-- ==== Sys2Proof/Word.lean ====
section
/-! DEFINITION. The binary instruction word's type and the type of program text. -/

namespace Sys2Proof

/-- Width of the binary instruction word, `W = 13 + I` bits (30_encoding.md R84). -/
abbrev wordWidth (I : Nat) : Nat := 13 + I

/-- A binary instruction word for immediates of `I` bits (30_encoding.md R84). -/
abbrev Word (I : Nat) : Type := BitVec (wordWidth I)

/-- A string of characters: the parser's input and the `text` a record carries
(40_parser.md R100, 93_implementation_defined.md U17). -/
abbrev Text : Type := List Char

end Sys2Proof
end

