-- ==== Sys2Proof/Config.lean ====
section
/-! DEFINITION. The configuration of the block, fixed by the host before Load
(00_scope.md R2, R8, R10), and the names its tables speak of: registers, operations, argument kinds. -/

namespace Sys2Proof

/-- The two register-set variants (00_scope.md R2). -/
inductive Variant where
  | minimal | extended
deriving DecidableEq, Repr

/-- The register identifiers, in the order of their ordinals 0 to 7 (10_state.md R20). -/
inductive Reg where
  | acc | in1 | in2 | pc | sp | baf | ds | cs
deriving DecidableEq, Repr

/-- The two argument kinds: a register reference, a signed immediate (30_encoding.md R72). -/
inductive ArgKind where
  | reg | int
deriving DecidableEq, Repr

/-- The 43 operation identifiers, in the order of the table of 30_encoding.md R78. -/
inductive Op where
  | load | loadin1 | loadin2 | loadin | loadi
  | storea | storein1a | storein2a | store | storein
  | move
  | add | addi | addr | sub | subi | subr
  | mult | multi | multr | div | divi | divr | mod | modi | modr
  | oplus | oplusi | oplusr | and | andi | andr | or | ori | orr
  | jump | jumpeq | jumpne | jumple | jumpge | jumplt | jumpgt
  | nop
deriving DecidableEq, Repr

/-- One row of the opcode table: a name, the operation it spells and the ordered tuple of argument
kinds (30_encoding.md R77), which may order the arguments otherwise than R79 does
(92_eei_decisions.md D4, 93_implementation_defined.md U8). -/
structure OpRow where
  name  : Text
  op    : Op
  kinds : List ArgKind
  /-- MODEL's own: the text gives the register arguments in the reverse of the order of R79. Kinds alone
  cannot say so of a two-register row, whose order D4 calls a property of the row (assumption 10). -/
  regsReversed : Bool := false
deriving DecidableEq, Repr

/-- The configuration fields of 00_scope.md R8 (the four widths) and R10 (the rest). Every field is
plain data; 10_state.md R29 lists them as state that only the host writes, before Load. -/
structure Config where
  /-- `R`, register width in bits. -/
  regWidth  : Nat
  /-- `A`, address bound exponent: legal addresses are `0 .. 2^A` inclusive. -/
  addrExp   : Nat
  /-- `M`, memory cell width in bits. -/
  cellWidth : Nat
  /-- `I`, immediate width in bits. -/
  immWidth  : Nat
  /-- `VARIANT`. -/
  variant   : Variant
  /-- `OPTABLE`. -/
  optable   : List OpRow
  /-- `REGNAMES`. -/
  regNames  : List (Text × Reg)
  /-- `REQUIRE_TERMINATOR`. -/
  requireTerminator     : Bool
  /-- `COMMENT_MARKER`. -/
  commentMarker         : Text
  /-- `OPCODE_CASE_SENSITIVE`. -/
  opcodeCaseSensitive   : Bool
  /-- `REGISTER_CASE_SENSITIVE`. -/
  registerCaseSensitive : Bool
  /-- `DEBUG_ENABLED`: gates the host's display of `dbg` only (45_controller.md R241). -/
  debugEnabled          : Bool
  /-- `DELAY_SHORT`, a duration without a unit (OPEN in the spec, D23; read by no state transition). -/
  delayShort            : Nat
  /-- `DELAY_LONG`, likewise. -/
  delayLong             : Nat
deriving DecidableEq, Repr

end Sys2Proof
end

