-- ==== Sys2Proof/Machine/Limits.lean ====
section
/-! DEFINITION. The derived constants of 00_scope.md R8 and the ranges of R11, for any widths. -/

namespace Sys2Proof

/-- `2^(w-1)`: one past the largest signed value of `w` bits. -/
def signedBound (w : Nat) : Int := ((2 ^ (w - 1) : Nat) : Int)

/-- `RMIN` (00_scope.md R8). -/
def Config.regMin (c : Config) : Int := - signedBound c.regWidth

/-- `RMAX` (00_scope.md R8). -/
def Config.regMax (c : Config) : Int := signedBound c.regWidth - 1

/-- `MMIN` (00_scope.md R8). -/
def Config.cellMin (c : Config) : Int := - signedBound c.cellWidth

/-- `MMAX` (00_scope.md R8). -/
def Config.cellMax (c : Config) : Int := signedBound c.cellWidth - 1

/-- `IMIN` (00_scope.md R8). -/
def Config.immMin (c : Config) : Int := - signedBound c.immWidth

/-- `IMAX` (00_scope.md R8). -/
def Config.immMax (c : Config) : Int := signedBound c.immWidth - 1

/-- `ADDR_MAX = 2^A`, itself a legal address (00_scope.md R8, 90_conflicts.md C11). -/
def Config.addrMax (c : Config) : Int := ((2 ^ c.addrExp : Nat) : Int)

/-- `v` lies in `RANGE_R` (00_scope.md R11). -/
abbrev Config.InReg (c : Config) (v : Int) : Prop := c.regMin ≤ v ∧ v ≤ c.regMax

/-- `v` lies in `RANGE_M` (00_scope.md R11). -/
abbrev Config.InCell (c : Config) (v : Int) : Prop := c.cellMin ≤ v ∧ v ≤ c.cellMax

/-- `v` lies in `RANGE_I` (00_scope.md R11). -/
abbrev Config.InImm (c : Config) (v : Int) : Prop := c.immMin ≤ v ∧ v ≤ c.immMax

/-- `a` is a legal address, `0 <= a <= ADDR_MAX` (20_memory.md R52). -/
abbrev Config.InAddr (c : Config) (a : Int) : Prop := 0 ≤ a ∧ a ≤ c.addrMax

/-- The width constraints of 00_scope.md R9. -/
abbrev Config.WidthsOk (c : Config) : Prop :=
  1 ≤ c.immWidth ∧ c.immWidth < c.regWidth ∧ c.regWidth ≤ c.cellWidth ∧ 1 ≤ c.addrExp

end Sys2Proof
end

