-- ==== Sys2Proof/Syntax.lean ====
section
/-! DEFINITION. The instructions, one constructor per row of the opcode table, with the operands in
text order (30_encoding.md R78, R79). -/

namespace Sys2Proof

/-- An instruction: the operation and the resolved argument tuple of an instruction record
(30_encoding.md R76). `d` is the destination, `src` the source, `b` the base register, `i` the
immediate as the integer it stands for (R74). -/
inductive Instr where
  | load (d : Reg) (i : Int)
  | loadin1 (d : Reg) (i : Int)
  | loadin2 (d : Reg) (i : Int)
  | loadin (b d : Reg) (i : Int)
  | loadi (d : Reg) (i : Int)
  | storea (i : Int)
  | storein1a (i : Int)
  | storein2a (i : Int)
  | store (src : Reg) (i : Int)
  | storein (b src : Reg) (i : Int)
  | move (src d : Reg)
  | add (d : Reg) (i : Int)
  | addi (d : Reg) (i : Int)
  | addr (d src : Reg)
  | sub (d : Reg) (i : Int)
  | subi (d : Reg) (i : Int)
  | subr (d src : Reg)
  | mult (d : Reg) (i : Int)
  | multi (d : Reg) (i : Int)
  | multr (d src : Reg)
  | div (d : Reg) (i : Int)
  | divi (d : Reg) (i : Int)
  | divr (d src : Reg)
  | mod (d : Reg) (i : Int)
  | modi (d : Reg) (i : Int)
  | modr (d src : Reg)
  | oplus (d : Reg) (i : Int)
  | oplusi (d : Reg) (i : Int)
  | oplusr (d src : Reg)
  | and (d : Reg) (i : Int)
  | andi (d : Reg) (i : Int)
  | andr (d src : Reg)
  | or (d : Reg) (i : Int)
  | ori (d : Reg) (i : Int)
  | orr (d src : Reg)
  | jump (i : Int)
  | jumpeq (i : Int)
  | jumpne (i : Int)
  | jumple (i : Int)
  | jumpge (i : Int)
  | jumplt (i : Int)
  | jumpgt (i : Int)
  | nop
deriving DecidableEq, Repr

end Sys2Proof
end

