-- ==== Sys2Proof/Machine/Tables.lean ====
section
/-! DEFINITION. The tables of the instruction set: registers (10_state.md R20), formats and variant
columns (30_encoding.md R73, R78), operation codes (R85), the fields of an instruction (R84), and the
default opcode and register name tables (R80, R81, 00_scope.md R10). -/

namespace Sys2Proof

/-! ### Registers (10_state.md R20) -/

/-- Every register, in ordinal order. -/
def Reg.all : List Reg := [.acc, .in1, .in2, .pc, .sp, .baf, .ds, .cs]

/-- The ordinal of a register, as the 3-bit field of the instruction word holds it. -/
def Reg.ordinal : Reg → BitVec 3
  | .acc => 0 | .in1 => 1 | .in2 => 2 | .pc => 3 | .sp => 4 | .baf => 5 | .ds => 6 | .cs => 7

/-- The register with a given ordinal: every 3-bit value is one. -/
def Reg.ofOrdinal (n : BitVec 3) : Reg :=
  match n.toNat with
  | 0 => .acc | 1 => .in1 | 2 => .in2 | 3 => .pc | 4 => .sp | 5 => .baf | 6 => .ds | _ => .cs

/-- The register's name. -/
def Reg.name : Reg → Text
  | .acc => "ACC".toList | .in1 => "IN1".toList | .in2 => "IN2".toList | .pc => "PC".toList
  | .sp => "SP".toList | .baf => "BAF".toList | .ds => "DS".toList | .cs => "CS".toList

/-- Membership of a register in a variant's register set. -/
def Reg.inVariant : Reg → Variant → Bool
  | .acc, _ | .in1, _ | .in2, _ | .pc, _ => true
  | .sp, v | .baf, v | .ds, v | .cs, v => v == .extended

/-- The registers of a variant, in ordinal order. -/
def Reg.ofVariant (v : Variant) : List Reg := Reg.all.filter (·.inVariant v)

/-! ### Operations (30_encoding.md R73, R78, R85) -/

/-- Every operation, in the table's order. -/
def Op.all : List Op :=
  [.load, .loadin1, .loadin2, .loadin, .loadi, .storea, .storein1a, .storein2a, .store,
   .storein, .move, .add, .addi, .addr, .sub, .subi, .subr, .mult,
   .multi, .multr, .div, .divi, .divr, .mod, .modi, .modr, .oplus,
   .oplusi, .oplusr, .and, .andi, .andr, .or, .ori, .orr, .jump,
   .jumpeq, .jumpne, .jumple, .jumpge, .jumplt, .jumpgt, .nop]

/-- The ordered argument-kind tuple of an operation, its format (30_encoding.md R73). -/
def Op.kinds : Op → List ArgKind
  | .nop => []
  | .storea | .storein1a | .storein2a | .jump | .jumpeq | .jumpne | .jumple | .jumpge => [.int]
  | .jumplt | .jumpgt => [.int]
  | .load | .loadin1 | .loadin2 | .loadi | .store | .add | .addi | .sub => [.reg, .int]
  | .subi | .mult | .multi | .div | .divi | .mod | .modi | .oplus => [.reg, .int]
  | .oplusi | .and | .andi | .or | .ori => [.reg, .int]
  | .move | .addr | .subr | .multr | .divr | .modr | .oplusr | .andr => [.reg, .reg]
  | .orr => [.reg, .reg]
  | .loadin | .storein => [.reg, .reg, .int]

/-- The number of register arguments of an operation. -/
def Op.regArgs (o : Op) : Nat := o.kinds.count .reg

/-- Whether an operation has an immediate argument. -/
def Op.hasImm (o : Op) : Bool := o.kinds.contains .int

/-- The variant columns `min` and `ext` of 30_encoding.md R78: whether the variant's default table
holds the operation. -/
def Op.inVariant : Op → Variant → Bool
  | .loadin1, v | .loadin2, v | .storea, v | .storein1a, v | .storein2a, v => v == .minimal
  | .loadin, v | .store, v | .storein, v | .mult, v | .multi, v | .multr, v => v == .extended
  | .div, v | .divi, v | .divr, v | .mod, v | .modi, v | .modr, v => v == .extended
  | .load, _ | .loadi, _ | .move, _ | .add, _ | .addi, _ | .addr, _ => true
  | .sub, _ | .subi, _ | .subr, _ | .oplus, _ | .oplusi, _ | .oplusr, _ => true
  | .and, _ | .andi, _ | .andr, _ | .or, _ | .ori, _ | .orr, _ => true
  | .jump, _ | .jumpeq, _ | .jumpne, _ | .jumple, _ | .jumpge, _ | .jumplt, _ => true
  | .jumpgt, _ | .nop, _ => true

/-- The 7-bit operation code of an operation (30_encoding.md R85). -/
def Op.code : Op → BitVec 7
  | .load => 0x01 | .loadin1 => 0x02 | .loadin2 => 0x03 | .loadin => 0x04 | .loadi => 0x05
  | .storea => 0x08 | .storein1a => 0x09 | .storein2a => 0x0A | .store => 0x0B | .storein => 0x0C
  | .move => 0x10 | .add => 0x20 | .addi => 0x28 | .addr => 0x30 | .sub => 0x21
  | .subi => 0x29 | .subr => 0x31 | .mult => 0x22 | .multi => 0x2A | .multr => 0x32
  | .div => 0x23 | .divi => 0x2B | .divr => 0x33 | .mod => 0x24 | .modi => 0x2C
  | .modr => 0x34 | .oplus => 0x25 | .oplusi => 0x2D | .oplusr => 0x35 | .and => 0x26
  | .andi => 0x2E | .andr => 0x36 | .or => 0x27 | .ori => 0x2F | .orr => 0x37
  | .jump => 0x40 | .jumpeq => 0x41 | .jumpne => 0x42 | .jumple => 0x43 | .jumpge => 0x44
  | .jumplt => 0x45 | .jumpgt => 0x46 | .nop => 0x60

/-- The operation a 7-bit code stands for; every other value is unassigned (30_encoding.md R85). -/
def Op.ofCode (c : BitVec 7) : Option Op := Op.all.find? (fun o => o.code == c)

/-! ### The fields of an instruction (30_encoding.md R84) -/

/-- The operation of an instruction. -/
def Instr.op : Instr → Op
  | .load _ _ => .load
  | .loadin1 _ _ => .loadin1
  | .loadin2 _ _ => .loadin2
  | .loadin _ _ _ => .loadin
  | .loadi _ _ => .loadi
  | .storea _ => .storea
  | .storein1a _ => .storein1a
  | .storein2a _ => .storein2a
  | .store _ _ => .store
  | .storein _ _ _ => .storein
  | .move _ _ => .move
  | .add _ _ => .add
  | .addi _ _ => .addi
  | .addr _ _ => .addr
  | .sub _ _ => .sub
  | .subi _ _ => .subi
  | .subr _ _ => .subr
  | .mult _ _ => .mult
  | .multi _ _ => .multi
  | .multr _ _ => .multr
  | .div _ _ => .div
  | .divi _ _ => .divi
  | .divr _ _ => .divr
  | .mod _ _ => .mod
  | .modi _ _ => .modi
  | .modr _ _ => .modr
  | .oplus _ _ => .oplus
  | .oplusi _ _ => .oplusi
  | .oplusr _ _ => .oplusr
  | .and _ _ => .and
  | .andi _ _ => .andi
  | .andr _ _ => .andr
  | .or _ _ => .or
  | .ori _ _ => .ori
  | .orr _ _ => .orr
  | .jump _ => .jump
  | .jumpeq _ => .jumpeq
  | .jumpne _ => .jumpne
  | .jumple _ => .jumple
  | .jumpge _ => .jumpge
  | .jumplt _ => .jumplt
  | .jumpgt _ => .jumpgt
  | .nop => .nop

/-- The register arguments, in text order. -/
def Instr.regs : Instr → List Reg
  | .load d _ => [d]
  | .loadin1 d _ => [d]
  | .loadin2 d _ => [d]
  | .loadin b d _ => [b, d]
  | .loadi d _ => [d]
  | .storea _ => []
  | .storein1a _ => []
  | .storein2a _ => []
  | .store src _ => [src]
  | .storein b src _ => [b, src]
  | .move src d => [src, d]
  | .add d _ => [d]
  | .addi d _ => [d]
  | .addr d src => [d, src]
  | .sub d _ => [d]
  | .subi d _ => [d]
  | .subr d src => [d, src]
  | .mult d _ => [d]
  | .multi d _ => [d]
  | .multr d src => [d, src]
  | .div d _ => [d]
  | .divi d _ => [d]
  | .divr d src => [d, src]
  | .mod d _ => [d]
  | .modi d _ => [d]
  | .modr d src => [d, src]
  | .oplus d _ => [d]
  | .oplusi d _ => [d]
  | .oplusr d src => [d, src]
  | .and d _ => [d]
  | .andi d _ => [d]
  | .andr d src => [d, src]
  | .or d _ => [d]
  | .ori d _ => [d]
  | .orr d src => [d, src]
  | .jump _ => []
  | .jumpeq _ => []
  | .jumpne _ => []
  | .jumple _ => []
  | .jumpge _ => []
  | .jumplt _ => []
  | .jumpgt _ => []
  | .nop => []

/-- The immediate argument, if the format has one. -/
def Instr.imm? : Instr → Option Int
  | .load _ i => some i
  | .loadin1 _ i => some i
  | .loadin2 _ i => some i
  | .loadin _ _ i => some i
  | .loadi _ i => some i
  | .storea i => some i
  | .storein1a i => some i
  | .storein2a i => some i
  | .store _ i => some i
  | .storein _ _ i => some i
  | .move _ _ => none
  | .add _ i => some i
  | .addi _ i => some i
  | .addr _ _ => none
  | .sub _ i => some i
  | .subi _ i => some i
  | .subr _ _ => none
  | .mult _ i => some i
  | .multi _ i => some i
  | .multr _ _ => none
  | .div _ i => some i
  | .divi _ i => some i
  | .divr _ _ => none
  | .mod _ i => some i
  | .modi _ i => some i
  | .modr _ _ => none
  | .oplus _ i => some i
  | .oplusi _ i => some i
  | .oplusr _ _ => none
  | .and _ i => some i
  | .andi _ i => some i
  | .andr _ _ => none
  | .or _ i => some i
  | .ori _ i => some i
  | .orr _ _ => none
  | .jump i => some i
  | .jumpeq i => some i
  | .jumpne i => some i
  | .jumple i => some i
  | .jumpge i => some i
  | .jumplt i => some i
  | .jumpgt i => some i
  | .nop => none

/-- Field `ra`: the first register argument; ordinal 0 (ACC) if the format has none. -/
def Instr.ra (i : Instr) : Reg := i.regs.getD 0 .acc

/-- Field `rb`: the second register argument; ordinal 0 (ACC) if the format has fewer than two. -/
def Instr.rb (i : Instr) : Reg := i.regs.getD 1 .acc

/-- Field `imm`: the immediate argument; 0 if the format has none. -/
def Instr.imm (i : Instr) : Int := i.imm?.getD 0

/-- The instruction with operation `o` whose register arguments are `ra` and then `rb` and whose
immediate is `i`, as far as its format has them. -/
def Op.build (o : Op) (ra rb : Reg) (i : Int) : Instr :=
  match o with
  | .load => .load ra i
  | .loadin1 => .loadin1 ra i
  | .loadin2 => .loadin2 ra i
  | .loadin => .loadin ra rb i
  | .loadi => .loadi ra i
  | .storea => .storea i
  | .storein1a => .storein1a i
  | .storein2a => .storein2a i
  | .store => .store ra i
  | .storein => .storein ra rb i
  | .move => .move ra rb
  | .add => .add ra i
  | .addi => .addi ra i
  | .addr => .addr ra rb
  | .sub => .sub ra i
  | .subi => .subi ra i
  | .subr => .subr ra rb
  | .mult => .mult ra i
  | .multi => .multi ra i
  | .multr => .multr ra rb
  | .div => .div ra i
  | .divi => .divi ra i
  | .divr => .divr ra rb
  | .mod => .mod ra i
  | .modi => .modi ra i
  | .modr => .modr ra rb
  | .oplus => .oplus ra i
  | .oplusi => .oplusi ra i
  | .oplusr => .oplusr ra rb
  | .and => .and ra i
  | .andi => .andi ra i
  | .andr => .andr ra rb
  | .or => .or ra i
  | .ori => .ori ra i
  | .orr => .orr ra rb
  | .jump => .jump i
  | .jumpeq => .jumpeq i
  | .jumpne => .jumpne i
  | .jumple => .jumple i
  | .jumpge => .jumpge i
  | .jumplt => .jumplt i
  | .jumpgt => .jumpgt i
  | .nop => .nop

/-! ### The default tables (30_encoding.md R80, R81; 00_scope.md R10) -/

/-- The default name of an operation (30_encoding.md R80, R81): the same in every variant that has it. -/
def Op.defaultName : Op → Text
  | .load => "LOAD".toList
  | .loadin1 => "LOADIN1".toList
  | .loadin2 => "LOADIN2".toList
  | .loadin => "LOADIN".toList
  | .loadi => "LOADI".toList
  | .storea => "STORE".toList
  | .storein1a => "STOREIN1".toList
  | .storein2a => "STOREIN2".toList
  | .store => "STORE".toList
  | .storein => "STOREIN".toList
  | .move => "MOVE".toList
  | .add => "ADD".toList
  | .addi => "ADDI".toList
  | .addr => "ADDR".toList
  | .sub => "SUB".toList
  | .subi => "SUBI".toList
  | .subr => "SUBR".toList
  | .mult => "MULT".toList
  | .multi => "MULTI".toList
  | .multr => "MULTR".toList
  | .div => "DIV".toList
  | .divi => "DIVI".toList
  | .divr => "DIVR".toList
  | .mod => "MOD".toList
  | .modi => "MODI".toList
  | .modr => "MODR".toList
  | .oplus => "OPLUS".toList
  | .oplusi => "OPLUSI".toList
  | .oplusr => "OPLUSR".toList
  | .and => "AND".toList
  | .andi => "ANDI".toList
  | .andr => "ANDR".toList
  | .or => "OR".toList
  | .ori => "ORI".toList
  | .orr => "ORR".toList
  | .jump => "JUMP".toList
  | .jumpeq => "JUMP==".toList
  | .jumpne => "JUMP!=".toList
  | .jumple => "JUMP<=".toList
  | .jumpge => "JUMP>=".toList
  | .jumplt => "JUMP<".toList
  | .jumpgt => "JUMP>".toList
  | .nop => "NOP".toList

/-- The default opcode table of a variant: 31 rows for `minimal`, 38 for `extended`
(30_encoding.md R80, R81). -/
def defaultOptable (v : Variant) : List OpRow :=
  (Op.all.filter (·.inVariant v)).map fun o => { name := o.defaultName, op := o, kinds := o.kinds }

/-- The default register name table: the names of 10_state.md R20, restricted to the variant. -/
def defaultRegNames (v : Variant) : List (Text × Reg) :=
  (Reg.ofVariant v).map fun r => (r.name, r)

/-- The configuration with every default of 00_scope.md R8 and R10. The variant has no default and is
an argument; the two delays are OPEN in the spec and are 0 here (assumption 3, DESIGN CHOICE: no rule
reads them). -/
def Config.standard (v : Variant) : Config where
  regWidth := 32
  addrExp := 32
  cellWidth := 32
  immWidth := 22
  variant := v
  optable := defaultOptable v
  regNames := defaultRegNames v
  requireTerminator := false
  commentMarker := "#".toList
  opcodeCaseSensitive := false
  registerCaseSensitive := false
  debugEnabled := false
  delayShort := 0
  delayLong := 0

end Sys2Proof
end

