-- ==== Sys2Proof/WellFormed.lean ====
section
/-! DEFINITION. When an instruction is well formed under a configuration (30_encoding.md R76), and
when it has a binary word (R86). -/

namespace Sys2Proof

/-- Every register the instruction names exists in the variant (30_encoding.md R76, 10_state.md R20). -/
def Instr.regsExist (v : Variant) (i : Instr) : Bool := i.regs.all (·.inVariant v)

/-- The immediate, if there is one, lies in `RANGE_I` (30_encoding.md R74). -/
def Instr.immInRange (c : Config) (i : Instr) : Bool :=
  match i.imm? with
  | none => true
  | some v => decide (c.InImm v)

/-- The operation has a row in the active opcode table (30_encoding.md R76, R77). -/
def Instr.inTable (c : Config) (i : Instr) : Bool := c.optable.any (fun row => row.op == i.op)

/-- The arguments fit the configuration: registers exist, the immediate is in range. -/
def Instr.fits (c : Config) (i : Instr) : Bool := i.regsExist c.variant && i.immInRange c

/-- The instruction of a record the parser may produce (30_encoding.md R76). The arity is right by the
type of `Instr`. -/
def Instr.wellFormed (c : Config) (i : Instr) : Bool := i.inTable c && i.fits c

/-- The instruction has a word that decodes in the configuration's variant: its operation is in the
variant's column of 30_encoding.md R78, its registers exist, its immediate is in range (R86). -/
def Instr.encodable (c : Config) (i : Instr) : Bool := i.op.inVariant c.variant && i.fits c

end Sys2Proof
end

