-- ==== Sys2Proof/Decode.lean ====
section
/-! DEFINITION. The decoder of the binary instruction word, total and rejecting by name, and the
encoder (30_encoding.md R84, R85, R86). -/

namespace Sys2Proof

/-- Why a word is `Illegal` (30_encoding.md R86). The spec has the one outcome `Illegal`; the reasons
are its list of cases. -/
inductive Illegal where
  /-- The number has bits beyond the word's `13 + I`. -/
  | tooWide
  /-- `opc` is unassigned. -/
  | unassignedCode
  /-- The operation is not in the active variant's table. -/
  | notInVariant
  /-- A field the format does not use is not zero. -/
  | unusedNotZero
  /-- A register field the format uses holds an ordinal the variant lacks. -/
  | registerAbsent
deriving DecidableEq, Repr

/-- What a word decodes to: an instruction, or `Illegal` with its reason. -/
inductive Decoded where
  | instr   (i : Instr)
  | illegal (why : Illegal)
deriving DecidableEq, Repr

/-- Field `opc`, bits `[I+12 : I+6]` (30_encoding.md R84). -/
def Word.opc {I : Nat} (w : Word I) : BitVec 7 := w.extractLsb' (I + 6) 7

/-- Field `ra`, bits `[I+5 : I+3]` (30_encoding.md R84). -/
def Word.ra {I : Nat} (w : Word I) : BitVec 3 := w.extractLsb' (I + 3) 3

/-- Field `rb`, bits `[I+2 : I]` (30_encoding.md R84). -/
def Word.rb {I : Nat} (w : Word I) : BitVec 3 := w.extractLsb' I 3

/-- Field `imm`, bits `[I-1 : 0]` (30_encoding.md R84); its `sext_I` is its `toInt` (00_scope.md R12). -/
def Word.imm {I : Nat} (w : Word I) : BitVec I := w.extractLsb' 0 I

/-- The fields the operation's format does not use are zero: `rb` for `FRI`; `ra` and `rb` for `FI`;
`imm` for `FRR`; all three for `F0` (30_encoding.md R86). -/
def Word.unusedZero {I : Nat} (w : Word I) (o : Op) : Bool :=
  (decide (1 ≤ o.regArgs) || w.ra == 0) && (decide (2 ≤ o.regArgs) || w.rb == 0) && (o.hasImm || w.imm == 0)

/-- `decode(word, VARIANT)` (30_encoding.md R86). -/
def decode (I : Nat) (v : Variant) (w : Word I) : Decoded :=
  match Op.ofCode w.opc with
  | none => .illegal .unassignedCode
  | some o =>
    let i := o.build (Reg.ofOrdinal w.ra) (Reg.ofOrdinal w.rb) w.imm.toInt
    if o.inVariant v = false then .illegal .notInVariant
    else if w.unusedZero o = false then .illegal .unusedNotZero
    else if i.regsExist v = false then .illegal .registerAbsent
    else .instr i

/-- `encode(record)`: `opc || ra || rb || imm`, with `enc_I` of the immediate (30_encoding.md R84, R86). -/
def encode (I : Nat) (i : Instr) : Word I :=
  i.op.code ++ i.ra.ordinal ++ i.rb.ordinal ++ BitVec.ofInt I i.imm

/-- `decode` of a number: a number that needs more than `13 + I` bits is no word. -/
def decodeNat (I : Nat) (v : Variant) (w : Nat) : Decoded :=
  if w < 2 ^ wordWidth I then decode I v (BitVec.ofNat (wordWidth I) w) else .illegal .tooWide

/-- A variant in which a number decodes, with the instruction: `v` if it decodes there, else the other
one. The two variants never give one word two instructions; `VARIANT` only decides which words are
legal (30_encoding.md R86). -/
def decodeSomewhere (I : Nat) (v : Variant) (w : Nat) : Option (Variant × Instr) :=
  match decodeNat I v w with
  | .instr i => some (v, i)
  | .illegal _ =>
    let v' : Variant := match v with
      | .minimal => .extended
      | .extended => .minimal
    match decodeNat I v' w with
    | .instr i => some (v', i)
    | .illegal _ => none

/-- The instruction of an opcode-table word at the default `I = 22`: the low `nbits` bits of `w`, read
in whichever variant has them. The table holds rows of both variants and names none (assumption 5). -/
def decodeTableWord (nbits w : Nat) : Option Instr :=
  (decodeSomewhere 22 .extended (w % 2 ^ nbits)).map (·.2)

end Sys2Proof
end

