-- ==== Sys2Proof/Machine/State.lean ====
section
/-! DEFINITION. The state of the block, all of it plain data (10_state.md), the reasons a step can
stop, and the state after reset. -/

namespace Sys2Proof.Machine

/-- The register file: each register an integer of `RANGE_R` (10_state.md R20, R21). The four registers
the `minimal` variant lacks are no part of its machine state; their fields stay 0 there. -/
structure RegFile where
  acc : Int
  in1 : Int
  in2 : Int
  pc  : Int
  sp  : Int
  baf : Int
  ds  : Int
  cs  : Int
deriving DecidableEq, Repr

/-- The data memory, a finite partial map from cell numbers to cell values (10_state.md R30): the
assigned cells, addresses strictly rising. An address not listed is unassigned and reads 0. A cell
assigned 0 is listed: the spec tells the two apart (R32, D28; assumption 7). -/
abbrev Memory : Type := List (Nat × Int)

/-- The canonical form of a memory: addresses strictly rising. -/
def Memory.wf : Memory → Bool
  | [] => true
  | [_] => true
  | (a, _) :: (b, w) :: m => decide (a < b) && Memory.wf ((b, w) :: m)

/-- An instruction record, immutable: source line number, raw text, instruction
(10_state.md R31, 30_encoding.md R76). -/
structure Record where
  line  : Nat
  text  : Text
  instr : Instr
deriving DecidableEq, Repr

/-- A snapshot: a full copy of the machine state and nothing else (10_state.md R32, R33). -/
structure Snapshot where
  regs : RegFile
  mem  : Memory
deriving DecidableEq, Repr

/-- The controller's three states (10_state.md R35). -/
inductive CState where
  | awaitingStep | running | terminated
deriving DecidableEq, Repr

/-- The signal of an instruction that did not fail (10_state.md R27). -/
inductive Signal where
  | advance | jumped
deriving DecidableEq, Repr

/-- The run-time errors E1 to E5 with what each carries (60_exceptions.md R252). -/
inductive RunError where
  /-- E1: a value to be written to a register is outside `RANGE_R`. -/
  | registerOverflow (r : Reg) (op : Op) (value : Int)
  /-- E2: an effective address is below 0 or above `ADDR_MAX`. -/
  | memoryAddressOutOfRange (a : Int)
  /-- E3: a taken jump's target, or PC after a successful instruction, is negative. -/
  | negativePC (target : Int)
  /-- E4: a taken jump's target is above `N`. -/
  | pcOverflow (target : Int)
  /-- E5: the right operand of a DIV or MOD operation is 0. -/
  | divisionByZero (r : Reg) (op : Op)
deriving DecidableEq, Repr

/-- The kinds of the step message `msg` (10_state.md R36). -/
inductive StepMsg where
  | none
  | stepOk (line : Nat) (text : Text)
  | terminateSentinel (line : Nat)
  | endOfProgram
  | error (e : RunError) (line : Nat) (text : Text)
  | alreadyTerminated
  | nothingToUndo
  | undone
deriving DecidableEq, Repr

/-- The kinds of the debug message `dbg` (10_state.md R36). -/
inductive DebugMsg where
  | none
  | jumpTaken (old new : Int)
  | jumpDenied (op : Op) (acc : Int)
deriving DecidableEq, Repr

/-- The parse errors P1 to P7 with what each carries (60_exceptions.md R251, 40_parser.md R126). -/
inductive ParseError where
  | missingTerminator (line : Nat) (text : Text)
  | emptyProgram
  | unknownOpcode (line : Nat) (text : Text) (token : Text) (names : List Text)
  | arityMismatch (line : Nat) (text : Text) (expected : List ArgKind) (got : Nat)
  | unknownRegister (line : Nat) (text : Text) (token : Text)
  | notAnInteger (line : Nat) (text : Text) (token : Text)
  | immediateOutOfRange (line : Nat) (text : Text) (value : Int)
deriving DecidableEq, Repr

/-- A key or value of the initial memory as the host's loader hands it over: an integer, or content
that is not one (40_parser.md R131). -/
inductive HostScalar where
  | int (v : Int)
  | other (content : Text)
deriving DecidableEq, Repr

/-- The initial-memory input: nothing, content that is no map at all, or a finite map
(40_parser.md R130, R131). -/
inductive InitMem where
  | absent
  | notAMap (content : Text)
  | entries (kvs : List (HostScalar × HostScalar))
deriving DecidableEq, Repr

/-- Why a configuration is refused at Load (00_scope.md R9, R10; 93_implementation_defined.md U12). -/
inductive ConfigError where
  /-- The widths break `1 <= I < R <= M`, `A >= 1` (00_scope.md R9). -/
  | widths
  /-- The comment marker is empty or holds whitespace or `;` (00_scope.md R10). -/
  | commentMarker
  /-- Two names of `OPTABLE` have one fold (40_parser.md R112). -/
  | optableFold
  /-- A row of `OPTABLE` gives an operation arguments that are no reordering of its format's
  (30_encoding.md R76, 92_eei_decisions.md D3, D4). -/
  | optableKinds
  /-- `REGNAMES` is not exactly the variant's names (40_parser.md R121). -/
  | regNames
  /-- `REG_INIT` names PC, an absent register or one register twice, or holds a value outside
  `RANGE_R` (10_state.md R45, D1). -/
  | regInit
deriving DecidableEq, Repr

/-- Why a Load failed (70_reset_and_hazards.md R290). -/
inductive LoadError where
  | config (why : ConfigError)
  /-- Parse errors P1 to P7. -/
  | parse (e : ParseError)
  /-- `N > RMAX` (00_scope.md R9, 40_parser.md R109). -/
  | programTooLong (n : Nat)
  /-- Parse-time error P8 (40_parser.md R131). -/
  | malformedInitialMemory (what : HostScalar)
  /-- A store of words holds an `Illegal` word (30_encoding.md R87). -/
  | illegalWord (index : Nat) (why : Illegal)
deriving DecidableEq, Repr

/-- The program handed to Load: a text, or words with the line and text that travel beside each
(30_encoding.md R70, R84, R87). -/
inductive ProgramSource where
  | text (t : Text)
  | words (ws : List (Nat × Text × Nat))
deriving DecidableEq, Repr

/-- The inputs of Load (70_reset_and_hazards.md R290), with the launch parameter `REG_INIT`
(10_state.md R45; the empty list is its default, all zero). -/
structure LoadInput where
  cfg     : Config
  source  : ProgramSource
  initMem : InitMem
  regInit : List (Reg × Int)
deriving DecidableEq, Repr

/-- The three requests the host can make (45_controller.md R238, 70_reset_and_hazards.md R290). -/
inductive Request where
  | load (input : LoadInput)
  | step
  | undo
deriving DecidableEq, Repr

/-- The stops with a refusal. -/
inductive Refusal where
  /-- An instruction `exec` gives no meaning yet. Safe. No arm of `exec` uses it. -/
  | notModelled (mnemonic : String)
  /-- Raised by a Step or Undo request when no program is loaded (10_state.md R46). Safe: the spec
  refuses it. -/
  | noProgram
  /-- Raised by a Step or Undo request once the shutdown latch is set (10_state.md R38). Safe: the
  spec refuses it. -/
  | shutDown
  /-- Raised by a Step or Undo request while another is being served, that is in `running`: the host
  never issues one (45_controller.md R238). Safe: the model stops. -/
  | requestInProgress
deriving DecidableEq, Repr

/-- The whole state of the block. Between requests `cstate` is never `running` and `signal` is
`advance`. -/
structure State where
  /-- The configuration fields (10_state.md R29). -/
  cfg       : Config
  /-- The register file (10_state.md R20). -/
  regs      : RegFile
  /-- The data memory (10_state.md R30). -/
  mem       : Memory
  /-- The instruction store, `prog[0 .. N-1]`; empty exactly when no program is loaded (10_state.md R31, R46). -/
  prog      : List Record
  /-- The undo stack, top first (10_state.md R34). -/
  undo      : List Snapshot
  /-- The controller state (10_state.md R35). -/
  cstate    : CState
  /-- The step message (10_state.md R36). -/
  msg       : StepMsg
  /-- The debug message (10_state.md R36). -/
  dbg       : DebugMsg
  /-- The shutdown latch (10_state.md R38). -/
  shutdown  : Bool
  /-- MODEL's own: the signal of the instruction just executed, read by the rest of the same Step
  (10_state.md R27; assumption 6). -/
  signal    : Signal
  /-- MODEL's own: what the last Load failed with (70_reset_and_hazards.md R290; assumption 1). -/
  loadError : Option LoadError
  /-- MODEL's own: why the last listed request was refused, if it was; the answer to the host
  (10_state.md R38, R46; assumption 4). -/
  refusal   : Option Refusal
  /-- MODEL's own: the requests the host issues next, oldest first; empty means Step (assumption 4). -/
  requests  : List Request
deriving DecidableEq, Repr

/-- The stops with a fault. -/
inductive Fault where
  /-- Raised by `raise` when an instruction fails while the undo stack is empty, so that there is no
  snapshot to restore: `exec` called outside a Step. No Step reaches it (45_controller.md R221,
  60_exceptions.md R262). Safe: the model stops. -/
  | noSnapshot
deriving DecidableEq, Repr

/-- The three outcomes, for this machine. -/
abbrev Out : Type := Host.Outcome State Fault Refusal

/-- Every register 0 (10_state.md R45; for the registers other than PC the spec's decision D1,
assumption 2). -/
def RegFile.zero : RegFile := ⟨0, 0, 0, 0, 0, 0, 0, 0⟩

/-- The block right after reset: every field as 10_state.md R45 gives it, no program loaded yet (R46;
assumption 1), the configuration at its defaults with the `extended` variant (assumption 3), no
request pending. -/
def State.reset : State where
  cfg := Config.standard .extended
  regs := RegFile.zero
  mem := []
  prog := []
  undo := []
  cstate := .awaitingStep
  msg := .none
  dbg := .none
  shutdown := false
  signal := .advance
  loadError := none
  refusal := none
  requests := []

end Sys2Proof.Machine
end

