-- ==== Sys2Proof/Machine/Ops.lean ====
section
/-! DEFINITION. The named operations over registers, memory, instruction store and undo stack, and
taking a run-time error (the block's exception) as one shared operation. -/

namespace Sys2Proof.Machine

/-! ### Register file -/

/-- Register read `x[r]` (10_state.md R22). -/
def RegFile.get (f : RegFile) : Reg → Int
  | .acc => f.acc | .in1 => f.in1 | .in2 => f.in2 | .pc => f.pc
  | .sp => f.sp | .baf => f.baf | .ds => f.ds | .cs => f.cs

/-- The register file with register `r` holding `v` (10_state.md R23, after its check). -/
def RegFile.set (f : RegFile) (r : Reg) (v : Int) : RegFile :=
  match r with
  | .acc => { f with acc := v } | .in1 => { f with in1 := v }
  | .in2 => { f with in2 := v } | .pc => { f with pc := v }
  | .sp => { f with sp := v } | .baf => { f with baf := v }
  | .ds => { f with ds := v } | .cs => { f with cs := v }

/-! ### Data memory -/

/-- The value assigned to cell `a`, if it is assigned (10_state.md R30). -/
def Memory.find : Memory → Nat → Option Int
  | [], _ => none
  | (k, v) :: m, a => if k = a then some v else Memory.find m a

/-- `MemRead(a, 1)`: the value of cell `a`, 0 if it is unassigned (20_memory.md R53). -/
def Memory.read (m : Memory) (a : Nat) : Int := (Memory.find m a).getD 0

/-- `MemWrite(a, 1, v)`: cell `a` becomes assigned with value `v`, 0 included; every other cell is
unchanged (20_memory.md R54). -/
def Memory.write : Memory → Nat → Int → Memory
  | [], a, v => [(a, v)]
  | (k, w) :: m, a, v =>
    if a < k then (a, v) :: (k, w) :: m
    else if a = k then (a, v) :: m
    else (k, w) :: Memory.write m a v

/-! ### Instruction store and undo stack -/

/-- `N`, the number of instructions of the loaded program (00_scope.md R13). -/
def State.progLen (s : State) : Int := (s.prog.length : Int)

/-- `prog[x[PC]]`, if PC indexes the program (45_controller.md R222). -/
def State.fetch (s : State) : Option Record :=
  if 0 ≤ s.regs.pc then s.prog[s.regs.pc.toNat]? else none

/-- The state with a copy of the machine state pushed on the undo stack (45_controller.md R221). -/
def State.pushSnapshot (s : State) : State :=
  { s with undo := { regs := s.regs, mem := s.mem } :: s.undo }

/-- The state whose machine state is the snapshot `snap`, with `rest` left on the undo stack
(45_controller.md R226, R232). -/
def State.restore (s : State) (snap : Snapshot) (rest : List Snapshot) : State :=
  { s with regs := snap.regs, mem := snap.mem, undo := rest }

/-- Line and text of the instruction PC indexes: after a rollback, the failing one
(45_controller.md R226). Out of range, which no Step reaches, line 0 and no text (assumption 8). -/
def State.faultSite (s : State) : Nat × Text :=
  match s.fetch with
  | some rec => (rec.line, rec.text)
  | none => (0, [])

/-! ### Taking a run-time error

There is no return from one: no handler runs, and the next Step fetches the same instruction again
(60_exceptions.md R258). -/

/-- `raise E(info)`: the failing instruction leaves no effect. The snapshot its Step pushed is popped
and becomes the machine state, `msg` records the error with the instruction's line and text, `dbg` is
cleared, and the controller waits (45_controller.md R226, 60_exceptions.md R256). -/
def raise (e : RunError) (s : State) : Out :=
  match s.undo with
  | [] => .fault .noSnapshot
  | snap :: rest =>
    let r := s.restore snap rest
    .next { r with
      msg := .error e r.faultSite.1 r.faultSite.2
      dbg := .none
      cstate := .awaitingStep
      signal := .advance }

/-- The code of a run-time error, 1 to 5 for E1 to E5 (60_exceptions.md R252). Nothing reads it. -/
def RunError.code : RunError → Nat
  | .registerOverflow .. => 1
  | .memoryAddressOutOfRange .. => 2
  | .negativePC .. => 3
  | .pcOverflow .. => 4
  | .divisionByZero .. => 5

/-! ### Checked accesses -/

/-- The signal of an instruction whose destination register is `r`: `Jumped` if that is PC
(10_state.md R23, R27). -/
def writeSignal (r : Reg) : Signal := if r = .pc then .jumped else .advance

/-- Checked register write `x[r] <- v` of operation `op` (10_state.md R23). -/
def writeReg (op : Op) (r : Reg) (v : Int) (s : State) : Out :=
  if s.cfg.InReg v then .next { s with regs := s.regs.set r v, signal := writeSignal r }
  else raise (.registerOverflow r op v) s

/-- `CheckAddr(a)`, then the access `k` at cell `a` (20_memory.md R52). -/
def withAddr (a : Int) (s : State) (k : Nat → Out) : Out :=
  if s.cfg.InAddr a then k a.toNat else raise (.memoryAddressOutOfRange a) s

/-- Checked load of cell `a` into register `d` (41_load.md R140). -/
def loadCell (op : Op) (d : Reg) (a : Int) (s : State) : Out :=
  withAddr a s fun n => writeReg op d (s.mem.read n) s

/-- Checked store of `v` to cell `a`; no register is written, so the signal is `Advance`
(42_store_move.md R150). -/
def storeCell (a : Int) (v : Int) (s : State) : Out :=
  withAddr a s fun n => .next { s with mem := s.mem.write n v, signal := .advance }

/-- `DoJump(i)`: a taken jump by `i` relative to its own index, target in `[0, N]`
(44_jump_nop.md R201). -/
def doJump (i : Int) (s : State) : Out :=
  let old := s.regs.pc
  let t := old + i
  if t < 0 then raise (.negativePC t) s
  else if s.progLen < t then raise (.pcOverflow t) s
  else .next { s with regs := s.regs.set .pc t, signal := .jumped, dbg := .jumpTaken old t }

end Sys2Proof.Machine
end

