-- ==== Sys2Proof/Machine/Alu.lean ====
section
/-! DEFINITION. The functions of the eight compute operations, exact on integers
(43_compute.md R161 to R163). -/

namespace Sys2Proof.Machine

/-- The eight functions (43_compute.md R160). -/
inductive AluFn where
  | add | sub | mult | div | mod | oplus | and | or
deriving DecidableEq, Repr

/-- `tdiv(a, b) = sgn(a) * sgn(b) * floor(|a| / |b|)` (43_compute.md R162). -/
def tdiv (a b : Int) : Int := a.sign * b.sign * ((a.natAbs / b.natAbs : Nat) : Int)

/-- `fmod(a, b) = a - b * floor(a / b)` (43_compute.md R162, D8); `Int.fdiv` is the floor of the
rational quotient. -/
def fmod (a b : Int) : Int := a - b * Int.fdiv a b

/-- A width `K` whose signed range holds both `a` and `b` (43_compute.md R163). -/
def jointWidth (a b : Int) : Nat := Nat.log2 (max a.natAbs b.natAbs) + 2

/-- `f_OPLUS`: combine `enc_K(a)` and `enc_K(b)` bit by bit and return `sext_K` (43_compute.md R163). -/
def bitXor (a b : Int) : Int :=
  (BitVec.ofInt (jointWidth a b) a ^^^ BitVec.ofInt (jointWidth a b) b).toInt

/-- `f_AND`, likewise (43_compute.md R163). -/
def bitAnd (a b : Int) : Int :=
  (BitVec.ofInt (jointWidth a b) a &&& BitVec.ofInt (jointWidth a b) b).toInt

/-- `f_OR`, likewise (43_compute.md R163). -/
def bitOr (a b : Int) : Int :=
  (BitVec.ofInt (jointWidth a b) a ||| BitVec.ofInt (jointWidth a b) b).toInt

/-- `f(a, b)` (43_compute.md R161, R162, R163). -/
def AluFn.eval : AluFn → Int → Int → Int
  | .add, a, b => a + b
  | .sub, a, b => a - b
  | .mult, a, b => a * b
  | .div, a, b => tdiv a b
  | .mod, a, b => fmod a b
  | .oplus, a, b => bitXor a b
  | .and, a, b => bitAnd a b
  | .or, a, b => bitOr a b

/-- DIV and MOD fail on a zero right operand (43_compute.md R160, R162). -/
def AluFn.divides : AluFn → Bool
  | .div | .mod => true
  | .add | .sub | .mult | .oplus | .and | .or => false

end Sys2Proof.Machine
end

