-- ==== Sys2Proof/Machine/Flags.lean ====
section
/-! DEFINITION. The machine has no status flags (10_state.md R28): no operation computes one. What
stands in their place are the six relations on ACC that conditional jumps test
(44_jump_nop.md R203 to R209). -/

namespace Sys2Proof.Machine

/-- The relation a conditional jump tests between ACC and 0. -/
inductive Cond where
  | eq | ne | le | ge | lt | gt
deriving DecidableEq, Repr

/-- `c(a)`, on ACC as a signed integer (44_jump_nop.md R204 to R209). -/
def Cond.holds : Cond → Int → Bool
  | .eq, a => decide (a = 0)
  | .ne, a => decide (a ≠ 0)
  | .le, a => decide (a ≤ 0)
  | .ge, a => decide (0 ≤ a)
  | .lt, a => decide (a < 0)
  | .gt, a => decide (0 < a)

end Sys2Proof.Machine
end

