-- ==== Sys2Proof/Machine/Operands.lean ====
section
/-! DEFINITION. The operand forms: effective addresses (20_memory.md R51), the right operand of a
compute operation (43_compute.md R160), and the templates over them. -/

namespace Sys2Proof.Machine

/-- The effective address of an offset form, `x[base] + i`, exact (20_memory.md R51). -/
def offsetAddr (s : State) (base : Reg) (i : Int) : Int := s.regs.get base + i

/-- The three forms of the right operand (43_compute.md R160). -/
inductive Operand where
  | mem (i : Int)
  | imm (i : Int)
  | reg (r : Reg)
deriving DecidableEq, Repr

/-- Reads the right operand and goes on with it; the memory form checks its address first
(43_compute.md R160). -/
def withOperand (o : Operand) (s : State) (k : Int → Out) : Out :=
  match o with
  | .mem i => withAddr i s fun n => k (s.mem.read n)
  | .imm i => k i
  | .reg r => k (s.regs.get r)

/-- The common template of the compute operations: address, zero divisor, result range are checked in
that order (43_compute.md R160). -/
def compute (op : Op) (f : AluFn) (d : Reg) (o : Operand) (s : State) : Out :=
  withOperand o s fun b =>
    if f.divides = true ∧ b = 0 then raise (.divisionByZero d op) s
    else writeReg op d (f.eval (s.regs.get d) b) s

/-- The common template of the conditional jumps: when denied, no state changes but the debug message,
and no bounds are tested (44_jump_nop.md R203). -/
def condJump (op : Op) (c : Cond) (i : Int) (s : State) : Out :=
  if c.holds s.regs.acc then doJump i s
  else .next { s with signal := .advance, dbg := .jumpDenied op s.regs.acc }

end Sys2Proof.Machine
end

