-- ==== Sys2Proof/Machine/Compute.lean ====
section
/-! DEFINITION. The arithmetic and bitwise family, three forms each (43_compute.md R160 to R188). -/

namespace Sys2Proof.Machine

/-- ADD: `D <- D + M[i]` (43_compute.md R164). -/
def execAdd (d : Reg) (i : Int) (s : State) : Out :=
  compute .add .add d (.mem i) s

/-- ADDI: `D <- D + i` (43_compute.md R165). -/
def execAddi (d : Reg) (i : Int) (s : State) : Out :=
  compute .addi .add d (.imm i) s

/-- ADDR: `D <- D + S` (43_compute.md R166). -/
def execAddr (d src : Reg) (s : State) : Out :=
  compute .addr .add d (.reg src) s

/-- SUB: `D <- D - M[i]` (43_compute.md R167). -/
def execSub (d : Reg) (i : Int) (s : State) : Out :=
  compute .sub .sub d (.mem i) s

/-- SUBI: `D <- D - i` (43_compute.md R168). -/
def execSubi (d : Reg) (i : Int) (s : State) : Out :=
  compute .subi .sub d (.imm i) s

/-- SUBR: `D <- D - S` (43_compute.md R169). -/
def execSubr (d src : Reg) (s : State) : Out :=
  compute .subr .sub d (.reg src) s

/-- MULT: `D <- D * M[i]` (43_compute.md R170). -/
def execMult (d : Reg) (i : Int) (s : State) : Out :=
  compute .mult .mult d (.mem i) s

/-- MULTI: `D <- D * i` (43_compute.md R171). -/
def execMulti (d : Reg) (i : Int) (s : State) : Out :=
  compute .multi .mult d (.imm i) s

/-- MULTR: `D <- D * S` (43_compute.md R172). -/
def execMultr (d src : Reg) (s : State) : Out :=
  compute .multr .mult d (.reg src) s

/-- DIV: `D <- D tdiv M[i]` (43_compute.md R173). -/
def execDiv (d : Reg) (i : Int) (s : State) : Out :=
  compute .div .div d (.mem i) s

/-- DIVI: `D <- D tdiv i` (43_compute.md R174). -/
def execDivi (d : Reg) (i : Int) (s : State) : Out :=
  compute .divi .div d (.imm i) s

/-- DIVR: `D <- D tdiv S` (43_compute.md R175). -/
def execDivr (d src : Reg) (s : State) : Out :=
  compute .divr .div d (.reg src) s

/-- MOD: `D <- D fmod M[i]` (43_compute.md R176). -/
def execMod (d : Reg) (i : Int) (s : State) : Out :=
  compute .mod .mod d (.mem i) s

/-- MODI: `D <- D fmod i` (43_compute.md R177). -/
def execModi (d : Reg) (i : Int) (s : State) : Out :=
  compute .modi .mod d (.imm i) s

/-- MODR: `D <- D fmod S` (43_compute.md R178). -/
def execModr (d src : Reg) (s : State) : Out :=
  compute .modr .mod d (.reg src) s

/-- OPLUS: `D <- D xor M[i]` (43_compute.md R179). -/
def execOplus (d : Reg) (i : Int) (s : State) : Out :=
  compute .oplus .oplus d (.mem i) s

/-- OPLUSI: `D <- D xor i` (43_compute.md R180). -/
def execOplusi (d : Reg) (i : Int) (s : State) : Out :=
  compute .oplusi .oplus d (.imm i) s

/-- OPLUSR: `D <- D xor S` (43_compute.md R181). -/
def execOplusr (d src : Reg) (s : State) : Out :=
  compute .oplusr .oplus d (.reg src) s

/-- AND: `D <- D and M[i]` (43_compute.md R182). -/
def execAnd (d : Reg) (i : Int) (s : State) : Out :=
  compute .and .and d (.mem i) s

/-- ANDI: `D <- D and i` (43_compute.md R183). -/
def execAndi (d : Reg) (i : Int) (s : State) : Out :=
  compute .andi .and d (.imm i) s

/-- ANDR: `D <- D and S` (43_compute.md R184). -/
def execAndr (d src : Reg) (s : State) : Out :=
  compute .andr .and d (.reg src) s

/-- OR: `D <- D or M[i]` (43_compute.md R185). -/
def execOr (d : Reg) (i : Int) (s : State) : Out :=
  compute .or .or d (.mem i) s

/-- ORI: `D <- D or i` (43_compute.md R186). -/
def execOri (d : Reg) (i : Int) (s : State) : Out :=
  compute .ori .or d (.imm i) s

/-- ORR: `D <- D or S` (43_compute.md R187). -/
def execOrr (d src : Reg) (s : State) : Out :=
  compute .orr .or d (.reg src) s

end Sys2Proof.Machine
end

