-- ==== Sys2Proof/Machine/Jump.lean ====
section
/-! DEFINITION. The jump family and NOP (44_jump_nop.md R200 to R212). -/

namespace Sys2Proof.Machine

/-- JUMP: `pc <- pc + i` (44_jump_nop.md R202). -/
def execJump (i : Int) (s : State) : Out :=
  doJump i s

/-- JUMPEQ: if `ACC = 0`: `pc <- pc + i` (44_jump_nop.md R204). -/
def execJumpeq (i : Int) (s : State) : Out :=
  condJump .jumpeq .eq i s

/-- JUMPNE: if `ACC != 0`: `pc <- pc + i` (44_jump_nop.md R205). -/
def execJumpne (i : Int) (s : State) : Out :=
  condJump .jumpne .ne i s

/-- JUMPLE: if `ACC <= 0`: `pc <- pc + i` (44_jump_nop.md R206). -/
def execJumple (i : Int) (s : State) : Out :=
  condJump .jumple .le i s

/-- JUMPGE: if `ACC >= 0`: `pc <- pc + i` (44_jump_nop.md R207). -/
def execJumpge (i : Int) (s : State) : Out :=
  condJump .jumpge .ge i s

/-- JUMPLT: if `ACC < 0`: `pc <- pc + i` (44_jump_nop.md R208). -/
def execJumplt (i : Int) (s : State) : Out :=
  condJump .jumplt .lt i s

/-- JUMPGT: if `ACC > 0`: `pc <- pc + i` (44_jump_nop.md R209). -/
def execJumpgt (i : Int) (s : State) : Out :=
  condJump .jumpgt .gt i s

/-- NOP: nothing; signal `Advance` (44_jump_nop.md R210). -/
def execNop (s : State) : Out :=
  .next { s with signal := .advance }

end Sys2Proof.Machine
end

