-- ==== Sys2Proof/Machine/Load.lean ====
section
/-! DEFINITION. The load family (41_load.md R140 to R145). -/

namespace Sys2Proof.Machine

/-- LOAD: `D <- M[i]` (41_load.md R141). -/
def execLoad (d : Reg) (i : Int) (s : State) : Out :=
  loadCell .load d i s

/-- LOADIN1: `D <- M[IN1 + i]` (41_load.md R142). -/
def execLoadin1 (d : Reg) (i : Int) (s : State) : Out :=
  loadCell .loadin1 d (offsetAddr s .in1 i) s

/-- LOADIN2: `D <- M[IN2 + i]` (41_load.md R143). -/
def execLoadin2 (d : Reg) (i : Int) (s : State) : Out :=
  loadCell .loadin2 d (offsetAddr s .in2 i) s

/-- LOADIN: `D <- M[B + i]` (41_load.md R144). -/
def execLoadin (b d : Reg) (i : Int) (s : State) : Out :=
  loadCell .loadin d (offsetAddr s b i) s

/-- LOADI: `D <- i` (41_load.md R145). -/
def execLoadi (d : Reg) (i : Int) (s : State) : Out :=
  writeReg .loadi d i s

end Sys2Proof.Machine
end

