-- ==== Sys2Proof/Machine/Store.lean ====
section
/-! DEFINITION. The store family and MOVE (42_store_move.md R150 to R156). -/

namespace Sys2Proof.Machine

/-- STOREA: `M[i] <- ACC` (42_store_move.md R151). -/
def execStorea (i : Int) (s : State) : Out :=
  storeCell i (s.regs.get .acc) s

/-- STOREIN1A: `M[IN1 + i] <- ACC` (42_store_move.md R152). -/
def execStorein1a (i : Int) (s : State) : Out :=
  storeCell (offsetAddr s .in1 i) (s.regs.get .acc) s

/-- STOREIN2A: `M[IN2 + i] <- ACC` (42_store_move.md R153). -/
def execStorein2a (i : Int) (s : State) : Out :=
  storeCell (offsetAddr s .in2 i) (s.regs.get .acc) s

/-- STORE: `M[i] <- S` (42_store_move.md R154). -/
def execStore (src : Reg) (i : Int) (s : State) : Out :=
  storeCell i (s.regs.get src) s

/-- STOREIN: `M[B + i] <- S` (42_store_move.md R155). -/
def execStorein (b src : Reg) (i : Int) (s : State) : Out :=
  storeCell (offsetAddr s b i) (s.regs.get src) s

/-- MOVE: `D <- S` (42_store_move.md R156). -/
def execMove (src d : Reg) (s : State) : Out :=
  writeReg .move d (s.regs.get src) s

end Sys2Proof.Machine
end

