-- ==== Sys2Proof/Machine/Dispatch.lean ====
section
/-! DEFINITION. The dispatch of one instruction to the interpreter (45_controller.md R223). -/

namespace Sys2Proof.Machine

/-- Applies the instruction's rule to the machine state, inside a Step. -/
def exec (i : Instr) (s : State) : Host.Outcome State Fault Refusal :=
  match i with
  | .load d n => Sys2Proof.Machine.execLoad d n s
  | .loadin1 d n => Sys2Proof.Machine.execLoadin1 d n s
  | .loadin2 d n => Sys2Proof.Machine.execLoadin2 d n s
  | .loadin b d n => Sys2Proof.Machine.execLoadin b d n s
  | .loadi d n => Sys2Proof.Machine.execLoadi d n s
  | .storea n => Sys2Proof.Machine.execStorea n s
  | .storein1a n => Sys2Proof.Machine.execStorein1a n s
  | .storein2a n => Sys2Proof.Machine.execStorein2a n s
  | .store src n => Sys2Proof.Machine.execStore src n s
  | .storein b src n => Sys2Proof.Machine.execStorein b src n s
  | .move src d => Sys2Proof.Machine.execMove src d s
  | .add d n => Sys2Proof.Machine.execAdd d n s
  | .addi d n => Sys2Proof.Machine.execAddi d n s
  | .addr d src => Sys2Proof.Machine.execAddr d src s
  | .sub d n => Sys2Proof.Machine.execSub d n s
  | .subi d n => Sys2Proof.Machine.execSubi d n s
  | .subr d src => Sys2Proof.Machine.execSubr d src s
  | .mult d n => Sys2Proof.Machine.execMult d n s
  | .multi d n => Sys2Proof.Machine.execMulti d n s
  | .multr d src => Sys2Proof.Machine.execMultr d src s
  | .div d n => Sys2Proof.Machine.execDiv d n s
  | .divi d n => Sys2Proof.Machine.execDivi d n s
  | .divr d src => Sys2Proof.Machine.execDivr d src s
  | .mod d n => Sys2Proof.Machine.execMod d n s
  | .modi d n => Sys2Proof.Machine.execModi d n s
  | .modr d src => Sys2Proof.Machine.execModr d src s
  | .oplus d n => Sys2Proof.Machine.execOplus d n s
  | .oplusi d n => Sys2Proof.Machine.execOplusi d n s
  | .oplusr d src => Sys2Proof.Machine.execOplusr d src s
  | .and d n => Sys2Proof.Machine.execAnd d n s
  | .andi d n => Sys2Proof.Machine.execAndi d n s
  | .andr d src => Sys2Proof.Machine.execAndr d src s
  | .or d n => Sys2Proof.Machine.execOr d n s
  | .ori d n => Sys2Proof.Machine.execOri d n s
  | .orr d src => Sys2Proof.Machine.execOrr d src s
  | .jump n => Sys2Proof.Machine.execJump n s
  | .jumpeq n => Sys2Proof.Machine.execJumpeq n s
  | .jumpne n => Sys2Proof.Machine.execJumpne n s
  | .jumple n => Sys2Proof.Machine.execJumple n s
  | .jumpge n => Sys2Proof.Machine.execJumpge n s
  | .jumplt n => Sys2Proof.Machine.execJumplt n s
  | .jumpgt n => Sys2Proof.Machine.execJumpgt n s
  | .nop => Sys2Proof.Machine.execNop s

end Sys2Proof.Machine
end

