-- ==== Sys2Proof/Machine/Parser.lean ====
section
/-! DEFINITION. The program parser: text to instruction records in three passes, or one parse error
(40_parser.md R100 to R127). Its states `Idle -> PassA -> PassB -> PassC -> Done` or `Failed(e)`
(R101) are the stages of one pure function. -/

namespace Sys2Proof.Machine

/-! ### Lines (Pass A) -/

/-- The whitespace characters: space, tab, carriage return, vertical tab, form feed (40_parser.md R103). -/
def isSpace (c : Char) : Bool :=
  c.toNat == 0x20 || c.toNat == 0x09 || c.toNat == 0x0D || c.toNat == 0x0B || c.toNat == 0x0C

/-- Removes leading and trailing whitespace (40_parser.md R103). -/
def trim (t : Text) : Text := ((t.dropWhile isSpace).reverse.dropWhile isSpace).reverse

/-- The physical lines: cut at every line feed, which belongs to neither line (40_parser.md R102). -/
def splitLines : Text → List Text
  | [] => [[]]
  | c :: cs =>
    if c.toNat = 0x0A then [] :: splitLines cs
    else
      match splitLines cs with
      | [] => [[c]]
      | l :: ls => (c :: l) :: ls

/-- Numbers lines from `n` on; the first physical line is line 1 (40_parser.md R102). -/
def numberLines (n : Nat) : List Text → List (Nat × Text)
  | [] => []
  | l :: ls => (n, l) :: numberLines (n + 1) ls

/-- Drops the first occurrence of the comment marker and everything after it (40_parser.md R104). -/
def cutComment (marker : Text) : Text → Text
  | [] => []
  | c :: cs => if marker.isPrefixOf (c :: cs) then [] else c :: cutComment marker cs

/-- Pass A on one physical line: nothing for a skipped line (40_parser.md R104, R106, R107). -/
def passALine (cfg : Config) (line : Nat) (raw : Text) : Except ParseError (Option (Nat × Text)) :=
  let s := trim (cutComment cfg.commentMarker raw)
  if s = [] then .ok none
  else if s.getLast? = some ';' then
    let s' := trim s.dropLast
    if s' = [] then .ok none else .ok (some (line, s'))
  else if cfg.requireTerminator then .error (.missingTerminator line s)
  else .ok (some (line, s))

/-- Pass A on every line, in ascending order; the first error ends it (40_parser.md R101). -/
def passALines (cfg : Config) : List (Nat × Text) → Except ParseError (List (Nat × Text))
  | [] => .ok []
  | (n, raw) :: ls =>
    match passALine cfg n raw with
    | .error e => .error e
    | .ok kept =>
      match passALines cfg ls with
      | .error e => .error e
      | .ok rest => .ok (kept.toList ++ rest)

/-- Pass A: the line-numbered raw instruction strings; `EmptyProgram` only after all lines
(40_parser.md R108, R109). -/
def passA (cfg : Config) (t : Text) : Except ParseError (List (Nat × Text)) :=
  match passALines cfg (numberLines 1 (splitLines t)) with
  | .error e => .error e
  | .ok [] => .error .emptyProgram
  | .ok ls => .ok ls

/-! ### Tokens and names (Pass B) -/

/-- The maximal runs of non-whitespace characters; `cur` is the run being read, reversed
(40_parser.md R110). -/
def tokensFrom (cur : Text) : Text → List Text
  | [] => if cur = [] then [] else [cur.reverse]
  | c :: cs =>
    if isSpace c then
      if cur = [] then tokensFrom [] cs else cur.reverse :: tokensFrom [] cs
    else tokensFrom (c :: cur) cs

/-- The tokens of a line (40_parser.md R110). -/
def tokens (t : Text) : List Text := tokensFrom [] t

/-- Folds one character: `a` to `z` become `A` to `Z` (40_parser.md R111). -/
def foldChar (c : Char) : Char :=
  if 97 ≤ c.toNat ∧ c.toNat ≤ 122 then Char.ofNat (c.toNat - 32) else c

/-- `fold(t)`, ASCII only (40_parser.md R111). -/
def fold (t : Text) : Text := t.map foldChar

/-- Whether a token matches a name: character for character, or by equal folds
(40_parser.md R112, R121). -/
def nameMatches (caseSensitive : Bool) (name token : Text) : Bool :=
  if caseSensitive then name == token else fold name == fold token

/-- The row of `OPTABLE` the opcode token selects (40_parser.md R112). -/
def lookupOp (cfg : Config) (token : Text) : Option OpRow :=
  cfg.optable.find? fun row => nameMatches cfg.opcodeCaseSensitive row.name token

/-- A line after Pass B: its row and its argument tokens. -/
structure Resolved where
  line : Nat
  text : Text
  row  : OpRow
  args : List Text
deriving DecidableEq, Repr

/-- Pass B on one line. Pass A leaves no empty line, so there is a first token (40_parser.md R110);
an empty one would be the unknown opcode with the empty token. -/
def passBLine (cfg : Config) (line : Nat) (s : Text) : Except ParseError Resolved :=
  let op := (tokens s).headD []
  match lookupOp cfg op with
  | some row => .ok { line := line, text := s, row := row, args := (tokens s).tail }
  | none => .error (.unknownOpcode line s op (cfg.optable.map (·.name)))

/-- Pass B on every line (40_parser.md R101, R112). -/
def passB (cfg : Config) : List (Nat × Text) → Except ParseError (List Resolved)
  | [] => .ok []
  | (n, s) :: ls =>
    match passBLine cfg n s with
    | .error e => .error e
    | .ok r =>
      match passB cfg ls with
      | .error e => .error e
      | .ok rest => .ok (r :: rest)

/-! ### Arguments (Pass C) -/

/-- The value of a digit `0` to `9` (40_parser.md R123). -/
def digitVal (c : Char) : Option Nat :=
  if 48 ≤ c.toNat ∧ c.toNat ≤ 57 then some (c.toNat - 48) else none

/-- Reads digits in base 10 onto `acc`; nothing if a character is no digit. -/
def readDigits (acc : Nat) : Text → Option Nat
  | [] => some acc
  | c :: cs =>
    match digitVal c with
    | none => none
    | some d => readDigits (10 * acc + d) cs

/-- One or more digits (40_parser.md R123). -/
def readNat (t : Text) : Option Nat := if t = [] then none else readDigits 0 t

/-- An integer literal: an optional sign, then one or more digits, nothing else (40_parser.md R123). -/
def readInt (t : Text) : Option Int :=
  match t with
  | [] => none
  | c :: cs =>
    if c = '-' then (readNat cs).map fun (n : Nat) => - (n : Int)
    else if c = '+' then (readNat cs).map fun (n : Nat) => (n : Int)
    else (readNat (c :: cs)).map fun (n : Nat) => (n : Int)

/-- A resolved argument. -/
inductive ArgVal where
  | reg (r : Reg)
  | int (v : Int)
deriving DecidableEq, Repr

/-- One argument token read according to its kind (40_parser.md R121, R122). -/
def resolveArg (cfg : Config) (line : Nat) (s : Text) (k : ArgKind) (token : Text) :
    Except ParseError ArgVal :=
  match k with
  | .reg =>
    match cfg.regNames.find? fun p => nameMatches cfg.registerCaseSensitive p.1 token with
    | some p => .ok (.reg p.2)
    | none => .error (.unknownRegister line s token)
  | .int =>
    match readInt token with
    | none => .error (.notAnInteger line s token)
    | some v => if cfg.InImm v then .ok (.int v) else .error (.immediateOutOfRange line s v)

/-- The arguments, left to right; the first that fails gives the error (40_parser.md R124). -/
def resolveArgs (cfg : Config) (line : Nat) (s : Text) :
    List ArgKind → List Text → Except ParseError (List ArgVal)
  | k :: ks, t :: ts =>
    match resolveArg cfg line s k t with
    | .error e => .error e
    | .ok a =>
      match resolveArgs cfg line s ks ts with
      | .error e => .error e
      | .ok as => .ok (a :: as)
  | _, _ => .ok []

/-- The register arguments of a resolved tuple, in order. -/
def argRegs : List ArgVal → List Reg
  | [] => []
  | .reg r :: as => r :: argRegs as
  | .int _ :: as => argRegs as

/-- The integer arguments of a resolved tuple, in order. -/
def argInts : List ArgVal → List Int
  | [] => []
  | .reg _ :: as => argInts as
  | .int v :: as => v :: argInts as

/-- The register arguments of a row's resolved tuple in the order of 30_encoding.md R79, whatever order
the row gives them in the text (92_eei_decisions.md D4, assumption 10). -/
def rowRegs (row : OpRow) (as : List ArgVal) : List Reg :=
  if row.regsReversed then (argRegs as).reverse else argRegs as

/-- The instruction of a row and a resolved tuple: each argument fills the slot of its kind in the
operation's format (40_parser.md R125, 30_encoding.md R76). -/
def buildInstr (row : OpRow) (as : List ArgVal) : Instr :=
  row.op.build ((rowRegs row as).getD 0 .acc) ((rowRegs row as).getD 1 .acc) ((argInts as).getD 0 0)

/-- Pass C on one line: arity first, then the arguments (40_parser.md R120, R125). -/
def passCLine (cfg : Config) (r : Resolved) : Except ParseError Record :=
  if r.args.length ≠ r.row.kinds.length then
    .error (.arityMismatch r.line r.text r.row.kinds r.args.length)
  else
    match resolveArgs cfg r.line r.text r.row.kinds r.args with
    | .error e => .error e
    | .ok as => .ok { line := r.line, text := r.text, instr := buildInstr r.row as }

/-- Pass C on every line (40_parser.md R101). -/
def passC (cfg : Config) : List Resolved → Except ParseError (List Record)
  | [] => .ok []
  | r :: rs =>
    match passCLine cfg r with
    | .error e => .error e
    | .ok rec =>
      match passC cfg rs with
      | .error e => .error e
      | .ok rest => .ok (rec :: rest)

/-- The parser: Pass A over all lines, then Pass B, then Pass C (40_parser.md R100, R101). -/
def parse (cfg : Config) (t : Text) : Except ParseError (List Record) :=
  match passA cfg t with
  | .error e => .error e
  | .ok ls =>
    match passB cfg ls with
    | .error e => .error e
    | .ok rs => passC cfg rs

end Sys2Proof.Machine
end

