-- ==== Sys2Proof/Machine/Loader.lean ====
section
/-! DEFINITION. The Load request, which is the block's reset: configuration checks, program, initial
memory, initial state (70_reset_and_hazards.md R290, 40_parser.md R130, R131). -/

namespace Sys2Proof.Machine

/-! ### Configuration checks (00_scope.md R9, R10; 93_implementation_defined.md U12) -/

/-- `COMMENT_MARKER` is a non-empty string without whitespace and without `;` (00_scope.md R10). -/
def markerOk (m : Text) : Bool := !m.isEmpty && m.all fun c => !isSpace c && c != ';'

/-- No two names have the same fold (40_parser.md R112). -/
def foldsDistinct : List Text → Bool
  | [] => true
  | n :: ns => ns.all (fun m => fold m != fold n) && foldsDistinct ns

/-- Every row gives its operation the arguments of the operation's format, in any order
(30_encoding.md R76, 92_eei_decisions.md D4, 93_implementation_defined.md U8). With other arguments the
row is no form the spec defines (92_eei_decisions.md D3; assumption 10). -/
def kindsOk (rows : List OpRow) : Bool := rows.all fun row => row.kinds.isPerm row.op.kinds

/-- `REGNAMES` holds exactly the names of the variant's registers (40_parser.md R121), in any order. -/
def regNamesOk (v : Variant) (names : List (Text × Reg)) : Bool :=
  names.isPerm (defaultRegNames v)

/-- The registers of `REG_INIT` are registers of the variant other than PC, none twice, with values in
`RANGE_R` (10_state.md R45, D1). -/
def regInitOk (c : Config) : List (Reg × Int) → Bool
  | [] => true
  | (r, v) :: rest =>
    r.inVariant c.variant && r != .pc && decide (c.InReg v) && rest.all (fun p => p.1 != r) &&
      regInitOk c rest

/-- The first constraint a configuration breaks. -/
def checkConfig (c : Config) : Option ConfigError :=
  if ¬ c.WidthsOk then some .widths
  else if markerOk c.commentMarker = false then some .commentMarker
  else if foldsDistinct (c.optable.map (·.name)) = false then some .optableFold
  else if kindsOk c.optable = false then some .optableKinds
  else if regNamesOk c.variant c.regNames = false then some .regNames
  else none

/-! ### Program -/

/-- The records of a store of words; a store that holds an `Illegal` word is refused
(30_encoding.md R87). -/
def decodeStore (c : Config) (index : Nat) : List (Nat × Text × Nat) → Except LoadError (List Record)
  | [] => .ok []
  | (line, text, w) :: ws =>
    match decodeNat c.immWidth c.variant w with
    | .illegal why => .error (.illegalWord index why)
    | .instr i =>
      match decodeStore c (index + 1) ws with
      | .error e => .error e
      | .ok rest => .ok ({ line := line, text := text, instr := i } :: rest)

/-- The program of a source. A store without words is an empty program, as a text without
instructions is (10_state.md R31, 40_parser.md R108). -/
def readProgram (c : Config) : ProgramSource → Except LoadError (List Record)
  | .text t =>
    match parse c t with
    | .error e => .error (.parse e)
    | .ok p => .ok p
  | .words [] => .error (.parse .emptyProgram)
  | .words (w :: ws) => decodeStore c 0 (w :: ws)

/-! ### Initial memory -/

/-- Adds the entries of an initial memory to `m`, refusing a key or value that is no integer or is out
of range, and a key listed twice, which no map has (40_parser.md R131, assumption 11). -/
def readEntries (c : Config) (m : Memory) : List (HostScalar × HostScalar) → Except LoadError Memory
  | [] => .ok m
  | (k, v) :: rest =>
    match k with
    | .other _ => .error (.malformedInitialMemory k)
    | .int a =>
      if ¬ c.InAddr a ∨ (Memory.find m a.toNat).isSome then .error (.malformedInitialMemory k)
      else
        match v with
        | .other _ => .error (.malformedInitialMemory v)
        | .int x =>
          if ¬ c.InCell x then .error (.malformedInitialMemory v)
          else readEntries c (m.write a.toNat x) rest

/-- The memory of an initial-memory input (40_parser.md R130, R131). -/
def readInitMem (c : Config) : InitMem → Except LoadError Memory
  | .absent => .ok []
  | .notAMap t => .error (.malformedInitialMemory (.other t))
  | .entries kvs => readEntries c [] kvs

/-- The register file at Load: 0 everywhere but where `REG_INIT` says otherwise (10_state.md R45). -/
def initRegs : List (Reg × Int) → RegFile
  | [] => RegFile.zero
  | (r, v) :: rest => (initRegs rest).set r v

/-! ### Load -/

/-- Load, up to the requests still to come: the checks in the order of 70_reset_and_hazards.md R290,
then the state of 10_state.md R45. -/
def load (inp : LoadInput) : Except LoadError State :=
  match checkConfig inp.cfg with
  | some why => .error (.config why)
  | none =>
    if regInitOk inp.cfg inp.regInit = false then .error (.config .regInit)
    else
      match readProgram inp.cfg inp.source with
      | .error e => .error e
      | .ok prog =>
        if inp.cfg.regMax < (prog.length : Int) then .error (.programTooLong prog.length)
        else
          match readInitMem inp.cfg inp.initMem with
          | .error e => .error e
          | .ok mem =>
            .ok { State.reset with
              cfg := inp.cfg
              regs := initRegs inp.regInit
              mem := mem
              prog := prog }

/-- The Load request. A failed Load leaves the block without a program (70_reset_and_hazards.md R291,
10_state.md R46); its error is the answer to the host. -/
def serveLoad (inp : LoadInput) (s : State) : Out :=
  match load inp with
  | .ok s' => .next { s' with requests := s.requests }
  | .error e => .next { State.reset with loadError := some e, requests := s.requests }

/-- The code of a parse-time error, 1 to 8 for P1 to P8, if the failure has one
(60_exceptions.md R251). Nothing reads it. -/
def LoadError.code : LoadError → Option Nat
  | .parse (.missingTerminator ..) => some 1
  | .parse .emptyProgram => some 2
  | .parse (.unknownOpcode ..) => some 3
  | .parse (.arityMismatch ..) => some 4
  | .parse (.unknownRegister ..) => some 5
  | .parse (.notAnInteger ..) => some 6
  | .parse (.immediateOutOfRange ..) => some 7
  | .malformedInitialMemory _ => some 8
  | .config _ | .programTooLong _ | .illegalWord .. => none

end Sys2Proof.Machine
end

