-- ==== Sys2Proof/Machine/Controller.lean ====
section
/-! DEFINITION. The execution controller: the Step and Undo requests, the outputs to the host, and the
placing of one word where the next fetch reads it (45_controller.md). -/

namespace Sys2Proof.Machine

/-! ### Step -/

/-- The start of a Step: messages cleared, `running`, a snapshot pushed; the signal starts as `Advance`
(45_controller.md R221, 00_scope.md R13). -/
def State.beginStep (s : State) : State :=
  { s.pushSnapshot with msg := .none, dbg := .none, cstate := .running, signal := .advance }

/-- Auto-advance: PC plus exactly 1 if the signal is `Advance` (45_controller.md R224). -/
def State.autoAdvance (s : State) : State :=
  match s.signal with
  | .advance => { s with regs := s.regs.set .pc (s.regs.pc + 1) }
  | .jumped => s

/-- The terminate sentinel: `JUMP` with offset 0, tested on the record (45_controller.md R227,
44_jump_nop.md R211). -/
def isSentinel (i : Instr) : Bool := i == .jump 0

/-- The end of a Step whose instruction succeeded: auto-advance, then the tests for a negative PC, the
sentinel and the end of the program, in that order (45_controller.md R224, R225, R227, R228, R229).
The signal is spent. -/
def finishStep (rec : Record) (s : State) : Out :=
  let a := s.autoAdvance
  if a.regs.pc < 0 then raise (.negativePC a.regs.pc) a
  else if isSentinel rec.instr = true then
    .next { a with cstate := .terminated, msg := .terminateSentinel rec.line, signal := .advance }
  else if a.progLen ≤ a.regs.pc then
    .next { a with cstate := .terminated, msg := .endOfProgram, signal := .advance }
  else
    .next { a with cstate := .awaitingStep, msg := .stepOk rec.line rec.text, signal := .advance }

/-- One Step of an instruction record on the state a Step begins with: dispatch, and the rest of the
Step unless the instruction failed, which left `running` (45_controller.md R223 to R229). -/
def runRecord (rec : Record) (s : State) : Out :=
  match exec rec.instr s with
  | .next t => if t.cstate = .running then finishStep rec t else .next t
  | .fault f => .fault f
  | .refused r => .refused r

/-- The outcome of an internal fault: orderly shutdown, the latch set, machine state and undo stack as
they were (10_state.md R38, 60_exceptions.md R262; assumption 8). -/
def State.internalFault (s : State) : State := { s with shutdown := true, msg := .none, dbg := .none }

/-- The Step request (45_controller.md R220 to R229). -/
def serveStep (s : State) : Out :=
  if s.prog = [] then .refused .noProgram
  else if s.shutdown = true then .refused .shutDown
  else
    match s.cstate with
    | .terminated => .next { s with msg := .alreadyTerminated, dbg := .none }
    | .running => .refused .requestInProgress
    | .awaitingStep =>
      match s.fetch with
      | none => .next s.internalFault
      | some rec => runRecord rec s.beginStep

/-! ### Undo -/

/-- The Undo request (45_controller.md R231, R232). -/
def serveUndo (s : State) : Out :=
  if s.prog = [] then .refused .noProgram
  else if s.shutdown = true then .refused .shutDown
  else if s.cstate = .running then .refused .requestInProgress
  else
    match s.undo with
    | [] => .next { s with msg := .nothingToUndo, dbg := .none }
    | snap :: rest =>
      .next { s.restore snap rest with cstate := .awaitingStep, msg := .undone, dbg := .none }

/-! ### Requests -/

/-- Serves one request to its end (45_controller.md R238). -/
def serve (r : Request) (s : State) : Out :=
  match r with
  | .load inp => serveLoad inp s
  | .step => serveStep s
  | .undo => serveUndo s

/-- Serves the host's next request: the oldest one listed, or Step if none is (assumption 4). A listed
request that is refused is spent all the same and changes nothing else but the answer `refusal`
(93_implementation_defined.md U13), so that a Load listed behind it is served
(70_reset_and_hazards.md R291). With no request listed the refused Step has nothing to spend, and the
outcome is the refusal. That a refused request is spent, and where its answer stands, is the model's
DESIGN CHOICE (assumption 4): R238 does not say what becomes of it. -/
def serveNext (s : State) : Out :=
  match s.requests with
  | [] => serveStep s
  | r :: rest =>
    let spent := { s with requests := rest }
    match serve r spent with
    | .next t => .next t
    | .fault f => .fault f
    | .refused why => .next { spent with refusal := some why }

/-! ### Outputs (45_controller.md R240 to R242) -/

/-- What the host can read between requests (45_controller.md R240). -/
structure Outputs where
  registers : List (Reg × Int)
  memory    : Memory
  msg       : StepMsg
  dbg       : DebugMsg
  terminal  : Bool
deriving DecidableEq, Repr

/-- The terminal flag, a function of `cstate` (10_state.md R37). -/
def State.terminal (s : State) : Bool := s.cstate == .terminated

/-- The controller-to-host contract (45_controller.md R240): the variant's registers, the assigned
cells, the messages, the terminal flag. -/
def State.outputs (s : State) : Outputs where
  registers := (Reg.ofVariant s.cfg.variant).map fun r => (r, s.regs.get r)
  memory := s.mem
  msg := s.msg
  dbg := s.dbg
  terminal := s.terminal

/-- The debug message the host shows: only if `DEBUG_ENABLED` (45_controller.md R241). -/
def State.shownDebug (s : State) : Option DebugMsg := if s.cfg.debugEnabled then some s.dbg else none

/-- The host's choice between the two auto-repeat delays (45_controller.md R242). -/
inductive Delay where
  | short | long
deriving DecidableEq, Repr

/-- The advisory output `delay_hint`; no transition reads it (45_controller.md R242). -/
def State.delayHint (s : State) : Delay → Nat
  | .short => s.cfg.delayShort
  | .long => s.cfg.delayLong

/-! ### One word where the next fetch reads it -/

/-- The instruction store with `rec` at index PC, if PC indexes it; otherwise the one-record program
`rec`. -/
def State.storeWith (s : State) (rec : Record) : List Record :=
  if s.fetch.isSome then s.prog.set s.regs.pc.toNat rec else [rec]

/-- The configuration with variant `v`: its variant, and the default tables that go with it if the
variant changes. -/
def Config.withVariant (c : Config) (v : Variant) : Config :=
  if c.variant = v then c
  else { c with variant := v, optable := defaultOptable v, regNames := defaultRegNames v }

/-- Stands for the load of a program from outside (assumption 5): the word's instruction becomes the
record the next Step fetches, in a variant that has it. PC becomes 0 only if it indexes nothing; the
controller waits for a Step and the host has no other request. A word that is `Illegal` in both
variants is no program: the store is then empty and the next Step is refused (30_encoding.md R87). -/
def State.placeWord (s : State) (nbits w : Nat) : State :=
  match decodeSomewhere s.cfg.immWidth s.cfg.variant (w % 2 ^ nbits) with
  | none => { s with prog := [], requests := [] }
  | some (v, i) =>
    { s with
      cfg := Config.withVariant s.cfg v
      prog := s.storeWith { line := 1, text := [], instr := i }
      regs := if s.fetch.isSome then s.regs else s.regs.set .pc 0
      cstate := .awaitingStep
      shutdown := false
      requests := [] }

end Sys2Proof.Machine
end

