-- ==== Sys2Proof/Machine/Step.lean ====
section
/-! DEFINITION. One step of the block: one request served; and the placing of an instruction word for
the next step. -/

namespace Sys2Proof.Machine

/-- One step serves the host's next request, which is Step unless State.requests says otherwise
(45_controller.md R238, assumption 4). -/
def step (s : State) : Host.Outcome State Fault Refusal := serveNext s

/-- The state in which the next step fetches and runs the instruction of word `w` (assumption 5). -/
def State.withFetchWord (s : State) (nbits w : Nat) : State := s.placeWord nbits w

end Sys2Proof.Machine
end

