-- ==== Sys2Proof/Safety.lean ====
section
/-! DEFINITION. What claims about the block speak of: the parts of an instruction a rule names, when a
state is inside a Step, the errors an operation may raise, and the invariant between requests
(45_controller.md R237). -/

namespace Sys2Proof

/-! ### Parts of an instruction -/

/-- The destination register, for the instructions that have one (30_encoding.md R78, role `D`). -/
def Instr.dest? : Instr → Option Reg
  | .load d _ => some d
  | .loadin1 d _ => some d
  | .loadin2 d _ => some d
  | .loadin _ d _ => some d
  | .loadi d _ => some d
  | .storea _ => none
  | .storein1a _ => none
  | .storein2a _ => none
  | .store _ _ => none
  | .storein _ _ _ => none
  | .move _ d => some d
  | .add d _ => some d
  | .addi d _ => some d
  | .addr d _ => some d
  | .sub d _ => some d
  | .subi d _ => some d
  | .subr d _ => some d
  | .mult d _ => some d
  | .multi d _ => some d
  | .multr d _ => some d
  | .div d _ => some d
  | .divi d _ => some d
  | .divr d _ => some d
  | .mod d _ => some d
  | .modi d _ => some d
  | .modr d _ => some d
  | .oplus d _ => some d
  | .oplusi d _ => some d
  | .oplusr d _ => some d
  | .and d _ => some d
  | .andi d _ => some d
  | .andr d _ => some d
  | .or d _ => some d
  | .ori d _ => some d
  | .orr d _ => some d
  | .jump _ => none
  | .jumpeq _ => none
  | .jumpne _ => none
  | .jumple _ => none
  | .jumpge _ => none
  | .jumplt _ => none
  | .jumpgt _ => none
  | .nop => none

end Sys2Proof

namespace Sys2Proof.Machine

/-- Function, destination and right operand of a compute instruction (43_compute.md R160). -/
def computeParts : Instr → Option (AluFn × Reg × Operand)
  | .load _ _ => none
  | .loadin1 _ _ => none
  | .loadin2 _ _ => none
  | .loadin _ _ _ => none
  | .loadi _ _ => none
  | .storea _ => none
  | .storein1a _ => none
  | .storein2a _ => none
  | .store _ _ => none
  | .storein _ _ _ => none
  | .move _ _ => none
  | .add d i => some (.add, d, .mem i)
  | .addi d i => some (.add, d, .imm i)
  | .addr d src => some (.add, d, .reg src)
  | .sub d i => some (.sub, d, .mem i)
  | .subi d i => some (.sub, d, .imm i)
  | .subr d src => some (.sub, d, .reg src)
  | .mult d i => some (.mult, d, .mem i)
  | .multi d i => some (.mult, d, .imm i)
  | .multr d src => some (.mult, d, .reg src)
  | .div d i => some (.div, d, .mem i)
  | .divi d i => some (.div, d, .imm i)
  | .divr d src => some (.div, d, .reg src)
  | .mod d i => some (.mod, d, .mem i)
  | .modi d i => some (.mod, d, .imm i)
  | .modr d src => some (.mod, d, .reg src)
  | .oplus d i => some (.oplus, d, .mem i)
  | .oplusi d i => some (.oplus, d, .imm i)
  | .oplusr d src => some (.oplus, d, .reg src)
  | .and d i => some (.and, d, .mem i)
  | .andi d i => some (.and, d, .imm i)
  | .andr d src => some (.and, d, .reg src)
  | .or d i => some (.or, d, .mem i)
  | .ori d i => some (.or, d, .imm i)
  | .orr d src => some (.or, d, .reg src)
  | .jump _ => none
  | .jumpeq _ => none
  | .jumpne _ => none
  | .jumple _ => none
  | .jumpge _ => none
  | .jumplt _ => none
  | .jumpgt _ => none
  | .nop => none

/-- The relation a conditional jump tests (44_jump_nop.md R204 to R209). -/
def condOf : Instr → Option Cond
  | .jumpeq _ => some .eq
  | .jumpne _ => some .ne
  | .jumple _ => some .le
  | .jumpge _ => some .ge
  | .jumplt _ => some .lt
  | .jumpgt _ => some .gt
  | _ => none

/-- The jump is taken in `s`: JUMP always, a conditional jump when its relation holds of ACC
(44_jump_nop.md R202, R203). -/
def takesJump (i : Instr) (s : State) : Bool :=
  match i, condOf i with
  | .jump _, _ => true
  | _, some c => c.holds s.regs.acc
  | _, none => false

/-- The address an instruction stores to in `s` (42_store_move.md R151 to R155). -/
def storeAddr (i : Instr) (s : State) : Option Int :=
  match i with
  | .storea n => some n
  | .storein1a n => some (offsetAddr s .in1 n)
  | .storein2a n => some (offsetAddr s .in2 n)
  | .store _ n => some n
  | .storein b _ n => some (offsetAddr s b n)
  | _ => none

/-- The effective address of an instruction that reaches the data memory, in `s`
(20_memory.md R50, R51). -/
def memAddr (i : Instr) (s : State) : Option Int :=
  match i, computeParts i with
  | .load _ n, _ => some n
  | .loadin1 _ n, _ => some (offsetAddr s .in1 n)
  | .loadin2 _ n, _ => some (offsetAddr s .in2 n)
  | .loadin b _ n, _ => some (offsetAddr s b n)
  | _, some (_, _, .mem n) => some n
  | _, _ => storeAddr i s

/-- The value of a right operand in `s`, where it can be read (43_compute.md R160). -/
def operandValue (o : Operand) (s : State) : Option Int :=
  match o with
  | .mem n => if s.cfg.InAddr n then some (s.mem.read n.toNat) else none
  | .imm n => some n
  | .reg r => some (s.regs.get r)

/-- The value a load or MOVE is to write to its destination register in `s`, where its cell can be read
(41_load.md R140, 42_store_move.md R156). -/
def movedValue (i : Instr) (s : State) : Option Int :=
  match i with
  | .load _ n => operandValue (.mem n) s
  | .loadin1 _ n => operandValue (.mem (offsetAddr s .in1 n)) s
  | .loadin2 _ n => operandValue (.mem (offsetAddr s .in2 n)) s
  | .loadin b _ n => operandValue (.mem (offsetAddr s b n)) s
  | .loadi _ n => some n
  | .move src _ => some (s.regs.get src)
  | _ => none

/-- The value an instruction is to write to its destination register in `s`, where its operand can be
read and its function is defined: DIV and MOD have none for the right operand 0
(41_load.md R140, 42_store_move.md R156, 43_compute.md R160, R162). -/
def destValue (i : Instr) (s : State) : Option Int :=
  match computeParts i with
  | none => movedValue i s
  | some (f, d, o) =>
    match operandValue o s with
    | none => none
    | some b => if (f = .div ∨ f = .mod) ∧ b = 0 then none else some (f.eval (s.regs.get d) b)

/-! ### Inside a Step -/

/-- `s` is a state in which a Step dispatches its instruction: `running`, with the snapshot of the
present machine state on top of the undo stack (45_controller.md R221). -/
def State.inStep (s : State) : Bool :=
  s.cstate == .running && s.undo.head? == some { regs := s.regs, mem := s.mem }

/-- The outcome of the last request was a run-time error (10_state.md R36). -/
def State.failed (s : State) : Bool :=
  match s.msg with
  | .error _ _ _ => true
  | _ => false

/-- The last request was a Step that succeeded (10_state.md R36). -/
def State.stepped (s : State) : Bool :=
  match s.msg with
  | .stepOk _ _ | .terminateSentinel _ | .endOfProgram => true
  | _ => false

/-- The errors an operation may raise with `M = R`, but for the controller's own test of PC: the
table of 60_exceptions.md R254. -/
def mayRaise : Op → RunError → Bool
  | .load, e | .loadin1, e | .loadin2, e | .loadin, e | .storea, e | .storein1a, e => [2].contains e.code
  | .storein2a, e | .store, e | .storein, e | .oplus, e | .and, e | .or, e => [2].contains e.code
  | .loadi, _ | .move, _ | .oplusi, _ | .oplusr, _ | .andi, _ | .andr, _ => false
  | .ori, _ | .orr, _ | .nop, _ => false
  | .add, e | .sub, e | .mult, e => [1, 2].contains e.code
  | .addi, e | .addr, e | .subi, e | .subr, e | .multi, e | .multr, e => [1].contains e.code
  | .div, e => [1, 2, 5].contains e.code
  | .divi, e | .divr, e => [1, 5].contains e.code
  | .mod, e => [2, 5].contains e.code
  | .modi, e | .modr, e => [5].contains e.code
  | .jump, e | .jumpeq, e | .jumpne, e | .jumple, e | .jumpge, e | .jumplt, e => [3, 4].contains e.code
  | .jumpgt, e => [3, 4].contains e.code

/-! ### The invariant between requests (45_controller.md R237) -/

/-- Registers lie in `RANGE_R`, and those the variant lacks, no part of the machine state, are 0
(10_state.md R20, R21). -/
def regsOk (c : Config) (f : RegFile) : Bool :=
  Reg.all.all fun r => decide (c.InReg (f.get r)) && (r.inVariant c.variant || f.get r == 0)

/-- The memory is in canonical form, every assigned address is legal and every cell value lies in
`RANGE_M` (10_state.md R30). -/
def memOk (c : Config) (m : Memory) : Bool :=
  Memory.wf m && m.all fun p => decide (c.InAddr p.1) && decide (c.InCell p.2)

/-- PC indexes a program of `n` instructions. -/
def pcInside (n : Nat) (f : RegFile) : Bool := decide (0 ≤ f.pc) && decide (f.pc < n)

/-- A snapshot on the undo stack: a legal machine state whose PC indexes the program (R237 (d)). -/
def snapshotOk (c : Config) (n : Nat) (p : Snapshot) : Bool :=
  regsOk c p.regs && memOk c p.mem && pcInside n p.regs

/-- Terminated states: PC is past the end or indexes the sentinel, and a Step can be undone (R237 (c)). -/
def terminatedOk (s : State) : Bool :=
  !s.undo.isEmpty &&
    (decide (s.progLen ≤ s.regs.pc) || (s.fetch.map (isSentinel ·.instr)) == some true)

/-- R237 for a state with a program loaded: the configuration was accepted and the program fits it,
(a) registers and memory are legal, (b) in AwaitingStep PC indexes the program, (c), (d). -/
def State.loadedOk (s : State) : Bool :=
  checkConfig s.cfg == none && decide (s.progLen ≤ s.cfg.regMax) &&
    s.prog.all (fun rec => rec.instr.fits s.cfg) &&
    regsOk s.cfg s.regs && memOk s.cfg s.mem &&
    s.undo.all (snapshotOk s.cfg s.prog.length) &&
    (match s.cstate with
      | .awaitingStep => pcInside s.prog.length s.regs
      | .terminated => terminatedOk s
      | .running => false)

/-- The invariant between requests. Without a program there is no machine state (10_state.md R46):
then nothing is left to undo and the controller rests. -/
def State.inv (s : State) : Bool :=
  s.signal == .advance &&
    (if s.prog = [] then s.undo == [] && s.cstate == .awaitingStep else s.loadedOk)

/-! ### Runs of one request -/

/-- `n` Step requests. -/
def steps : Nat → State → Out
  | 0, s => .next s
  | n + 1, s =>
    match serveStep s with
    | .next t => steps n t
    | .fault f => .fault f
    | .refused r => .refused r

/-- `n` Undo requests. -/
def undos : Nat → State → Out
  | 0, s => .next s
  | n + 1, s =>
    match serveUndo s with
    | .next t => undos n t
    | .fault f => .fault f
    | .refused r => .refused r

/-- The initial memory that lists the cells `kvs`, all keys and values integers (40_parser.md R131). -/
def InitMem.ofCells (kvs : List (Nat × Int)) : InitMem :=
  .entries (kvs.map fun p => (.int (p.1 : Int), .int p.2))

/-! ### Texts that spell a program (30_encoding.md R71) -/

/-- A token: one or more characters that are neither whitespace nor a line feed. -/
def isToken (t : Text) : Bool := !t.isEmpty && t.all fun ch => !isSpace ch && ch.toNat != 0x0A

/-- Nothing but whitespace. -/
def isBlank (t : Text) : Bool := t.all isSpace

/-- The token spells the argument of that kind: a name of the register in `REGNAMES`, or an integer
literal of a value in `RANGE_I` (40_parser.md R121, R122). -/
def spellsArg (c : Config) (k : ArgKind) (token : Text) (a : ArgVal) : Bool :=
  match k, a with
  | .reg, .reg r =>
    c.regNames.any fun p => p.2 == r && nameMatches c.registerCaseSensitive p.1 token
  | .int, .int v => readInt token == some v && decide (c.InImm v)
  | _, _ => false

/-- One argument as a line spells it: the whitespace before its token, the token, what it stands for. -/
structure SpelledArg where
  gap   : Text
  token : Text
  val   : ArgVal
deriving DecidableEq, Repr

/-- One instruction line taken apart as R71 builds it, with the row its first token names. -/
structure SpelledLine where
  lead   : Text
  row    : OpRow
  name   : Text
  args   : List SpelledArg
  trail  : Text
  /-- The line ends in the terminator `;`. -/
  closed : Bool
deriving DecidableEq, Repr

/-- The line without the whitespace around it and without its terminator. -/
def SpelledLine.body (l : SpelledLine) : Text := l.name ++ l.args.flatMap fun a => a.gap ++ a.token

/-- The whole physical line. -/
def SpelledLine.raw (l : SpelledLine) : Text :=
  l.lead ++ (l.body ++ (l.trail ++ if l.closed then [';'] else []))

/-- The line spells an instruction under a configuration: its name matches its row of `OPTABLE`, its
arguments spell the row's kinds in order, no comment marker occurs in it, and it has the terminator
where one is required. A line without one must not end in `;`, which would be taken for it
(30_encoding.md R71, 40_parser.md R104 to R107, R112, R120 to R122). -/
structure SpelledLine.Ok (c : Config) (l : SpelledLine) : Prop where
  blank      : isBlank l.lead = true ∧ isBlank l.trail = true
  row        : l.row ∈ c.optable
  name       : isToken l.name = true ∧ nameMatches c.opcodeCaseSensitive l.row.name l.name = true
  gaps       : ∀ a ∈ l.args, a.gap ≠ [] ∧ isBlank a.gap = true ∧ isToken a.token = true
  arity      : l.args.length = l.row.kinds.length
  args       : ∀ p ∈ l.row.kinds.zip l.args, spellsArg c p.1 p.2.token p.2.val = true
  noComment  : ¬ c.commentMarker <:+: l.body
  terminator : l.closed = true ∨ (c.requireTerminator = false ∧ l.body.getLast? ≠ some ';')

/-- The text of the lines, one instruction per physical line (30_encoding.md R71). -/
def programText (ls : List SpelledLine) : Text := List.intercalate ['\n'] (ls.map SpelledLine.raw)

/-! ### Parse errors -/

/-- Line and raw text a parse error names; none for `EmptyProgram` (40_parser.md R126). -/
def ParseError.site : ParseError → Option (Nat × Text)
  | .missingTerminator l t => some (l, t)
  | .emptyProgram => none
  | .unknownOpcode l t _ _ => some (l, t)
  | .arityMismatch l t _ _ => some (l, t)
  | .unknownRegister l t _ => some (l, t)
  | .notAnInteger l t _ => some (l, t)
  | .immediateOutOfRange l t _ => some (l, t)

end Sys2Proof.Machine
end

