-- ==== Sys2Proof/Certificates/Slice0/Obligations.lean ====
section
/-! DEFINITION. The statements for the provers. Each docstring says which part of the spec it
formalises; OBLIGATIONS.json lists them. -/

open Sys2Proof Sys2Proof.Machine

/-! ### Encoding (30_encoding.md section 4) -/

/-- `decode(encode(r)) = r` for every instruction that has a word, at every immediate width. The word is
the spec's own (its decision D5). -/
def Obligations.DecodeOfEncode : Prop :=
  ∀ (c : Config) (i : Instr), 1 ≤ c.immWidth → i.encodable c = true →
    decode c.immWidth c.variant (encode c.immWidth i) = .instr i

/-- `encode(decode(w)) = w` for every word that does not decode to `Illegal`. -/
def Obligations.EncodeOfDecode : Prop :=
  ∀ (I : Nat) (v : Variant) (w : Word I) (i : Instr), decode I v w = .instr i → encode I i = w

/-- A decoded instruction is one that has a word: its operation is in the variant's table, its
registers exist, its immediate is in range; and the decoder refuses exactly the words R86 lists. -/
def Obligations.DecodeRefusesExactly : Prop :=
  ∀ (c : Config) (w : Word c.immWidth), 1 ≤ c.immWidth →
    (∀ i, decode c.immWidth c.variant w = .instr i → i.encodable c = true) ∧
    ((∃ why, decode c.immWidth c.variant w = .illegal why) ↔
      Op.ofCode w.opc = none ∨
      ∃ o, Op.ofCode w.opc = some o ∧
        (o.inVariant c.variant = false ∨
         (1 ≤ o.regArgs ∧ (Reg.ofOrdinal w.ra).inVariant c.variant = false) ∨
         (2 ≤ o.regArgs ∧ (Reg.ofOrdinal w.rb).inVariant c.variant = false) ∨
         (o.regArgs = 0 ∧ w.ra ≠ 0) ∨ (o.regArgs ≤ 1 ∧ w.rb ≠ 0) ∨ (o.hasImm = false ∧ w.imm ≠ 0)))

/-- Words written out from the spec's encodings decode to the instructions they stand for: sanity. -/
def Obligations.KnownWordsDecode : Prop :=
  decodeNat 22 .extended 0x048800000 = .instr (.loadin .sp .in2 0) ∧
  decodeNat 22 .minimal 0x0203FFFFE = .instr (.loadin1 .acc (-2)) ∧
  decodeNat 22 .extended 0x0CB9FFFFF = .instr (.storein .baf .ds 2097151) ∧
  decodeNat 22 .minimal 0x106C00000 = .instr (.move .pc .pc) ∧
  decodeNat 22 .extended 0x2A03F8000 = .instr (.multi .acc (-32768)) ∧
  decodeNat 22 .extended 0x334400000 = .instr (.divr .in2 .in1) ∧
  decodeNat 22 .minimal 0x4603FFFFA = .instr (.jumpgt (-6)) ∧
  decodeNat 22 .minimal 0x600000000 = .instr .nop

/-! ### A step runs the fetched instruction (45_controller.md section 1) -/

/-- One step serves one request: Step if the host lists none, else the oldest listed, which is then
spent, also if it is refused, with no other change but the answer `refusal`. So a Load listed behind a
refused Step or Undo is served. The list is the model's form of the host, and that a refused request is
spent is the model's choice (assumption 4). -/
def Obligations.StepServesOneRequest : Prop :=
  (∀ u : State, serve .step u = serveStep u ∧ serve .undo u = serveUndo u ∧
    ∀ inp, serve (.load inp) u = serveLoad inp u) ∧
  ∀ s : State,
    (s.requests = [] → step s = serveStep s) ∧
    (∀ r rest, s.requests = r :: rest →
      (∀ t, serve r { s with requests := rest } = .next t → step s = .next t) ∧
      (∀ why, serve r { s with requests := rest } = .refused why →
        step s = .next { s with requests := rest, refusal := some why })) ∧
    (∀ r inp rest, r = .step ∨ r = .undo → s.prog = [] → s.requests = r :: .load inp :: rest →
      ∃ u, step s = .next u ∧
        step u = serveLoad inp { s with requests := rest, refusal := some .noProgram })

/-- When the controller waits and PC indexes a record, the step is exec of that record's instruction on
the state with messages cleared and a snapshot pushed, which always answers a next state; if the
instruction succeeds, the rest of the Step follows (auto-advance and the tests on PC), and if it fails,
nothing does. -/
def Obligations.StepRunsFetchedInstruction : Prop :=
  ∀ (s : State) (rec : Record), s.requests = [] → s.shutdown = false → s.cstate = .awaitingStep →
    s.fetch = some rec →
    ∃ t, exec rec.instr s.beginStep = .next t ∧
      (t.cstate = .running → step s = finishStep rec t) ∧
      (t.cstate ≠ .running → step s = .next t)

/-- A word placed for the next step is decoded, fetched and run: the record the step executes holds the
instruction the decoder reads from the word. Placing stands for a load from outside, the model's choice
(assumption 5). -/
def Obligations.PlacedWordRuns : Prop :=
  ∀ (s : State) (nbits w : Nat) (v : Variant) (i : Instr),
    decodeSomewhere s.cfg.immWidth s.cfg.variant (w % 2 ^ nbits) = some (v, i) →
    step (s.withFetchWord nbits w) =
      runRecord { line := 1, text := [], instr := i } (s.withFetchWord nbits w).beginStep

/-! ### Completion: what each instruction does when it runs (41_load.md to 44_jump_nop.md) -/

/-- The memory loads: with a legal effective address and a cell value in `RANGE_R` the destination
receives the cell, the signal is `Jumped` exactly for PC, and nothing else changes. -/
def Obligations.MemoryLoadsComplete : Prop :=
  ∀ (s : State) (d : Reg) (n : Int),
    (s.cfg.InAddr n → s.cfg.InReg (s.mem.read n.toNat) →
      exec (.load d n) s =
        .next { s with regs := s.regs.set d (s.mem.read n.toNat), signal := writeSignal d }) ∧
    (s.cfg.InAddr (s.regs.in1 + n) → s.cfg.InReg (s.mem.read (s.regs.in1 + n).toNat) →
      exec (.loadin1 d n) s =
        .next { s with
          regs := s.regs.set d (s.mem.read (s.regs.in1 + n).toNat)
          signal := writeSignal d }) ∧
    (s.cfg.InAddr (s.regs.in2 + n) → s.cfg.InReg (s.mem.read (s.regs.in2 + n).toNat) →
      exec (.loadin2 d n) s =
        .next { s with
          regs := s.regs.set d (s.mem.read (s.regs.in2 + n).toNat)
          signal := writeSignal d }) ∧
    (∀ b, s.cfg.InAddr (s.regs.get b + n) → s.cfg.InReg (s.mem.read (s.regs.get b + n).toNat) →
      exec (.loadin b d n) s =
        .next { s with
          regs := s.regs.set d (s.mem.read (s.regs.get b + n).toNat)
          signal := writeSignal d })

/-- LOADI and MOVE: the destination receives the immediate, or the source register's value. With legal
widths an immediate of `RANGE_I` and a register of `RANGE_R` always fit, so no error can occur. -/
def Obligations.LoadiAndMoveComplete : Prop :=
  ∀ (s : State) (d src : Reg) (n : Int), s.cfg.WidthsOk →
    (s.cfg.InImm n →
      exec (.loadi d n) s = .next { s with regs := s.regs.set d n, signal := writeSignal d }) ∧
    (s.cfg.InReg (s.regs.get src) →
      exec (.move src d) s =
        .next { s with regs := s.regs.set d (s.regs.get src), signal := writeSignal d })

/-- The stores: with a legal effective address the cell receives the register's value, the signal is
`Advance` whatever register it is, and no register changes. -/
def Obligations.StoresComplete : Prop :=
  ∀ (s : State) (src b : Reg) (n : Int),
    (s.cfg.InAddr n →
      exec (.storea n) s =
        .next { s with mem := s.mem.write n.toNat s.regs.acc, signal := .advance }) ∧
    (s.cfg.InAddr (s.regs.in1 + n) →
      exec (.storein1a n) s =
        .next { s with mem := s.mem.write (s.regs.in1 + n).toNat s.regs.acc, signal := .advance }) ∧
    (s.cfg.InAddr (s.regs.in2 + n) →
      exec (.storein2a n) s =
        .next { s with mem := s.mem.write (s.regs.in2 + n).toNat s.regs.acc, signal := .advance }) ∧
    (s.cfg.InAddr n →
      exec (.store src n) s =
        .next { s with mem := s.mem.write n.toNat (s.regs.get src), signal := .advance }) ∧
    (s.cfg.InAddr (s.regs.get b + n) →
      exec (.storein b src n) s =
        .next { s with
          mem := s.mem.write (s.regs.get b + n).toNat (s.regs.get src)
          signal := .advance })

/-- The memory forms of the compute operations: `D <- f(D, M[i])`, with the operand `b` the cell. -/
def Obligations.MemoryFormsComplete : Prop :=
  ∀ (s : State) (d : Reg) (n a b : Int), a = s.regs.get d → b = s.mem.read n.toNat →
    s.cfg.InAddr n →
    (s.cfg.InReg (a + b) →
      exec (.add d n) s = .next { s with regs := s.regs.set d (a + b), signal := writeSignal d }) ∧
    (s.cfg.InReg (a - b) →
      exec (.sub d n) s = .next { s with regs := s.regs.set d (a - b), signal := writeSignal d }) ∧
    (s.cfg.InReg (a * b) →
      exec (.mult d n) s = .next { s with regs := s.regs.set d (a * b), signal := writeSignal d }) ∧
    (b ≠ 0 → s.cfg.InReg (tdiv a b) →
      exec (.div d n) s =
        .next { s with regs := s.regs.set d (tdiv a b), signal := writeSignal d }) ∧
    (b ≠ 0 → s.cfg.InReg (fmod a b) →
      exec (.mod d n) s =
        .next { s with regs := s.regs.set d (fmod a b), signal := writeSignal d }) ∧
    (s.cfg.InReg (bitXor a b) →
      exec (.oplus d n) s =
        .next { s with regs := s.regs.set d (bitXor a b), signal := writeSignal d }) ∧
    (s.cfg.InReg (bitAnd a b) →
      exec (.and d n) s =
        .next { s with regs := s.regs.set d (bitAnd a b), signal := writeSignal d }) ∧
    (s.cfg.InReg (bitOr a b) →
      exec (.or d n) s = .next { s with regs := s.regs.set d (bitOr a b), signal := writeSignal d })

/-- The immediate forms: `D <- f(D, i)`. -/
def Obligations.ImmediateFormsComplete : Prop :=
  ∀ (s : State) (d : Reg) (n a : Int), a = s.regs.get d →
    (s.cfg.InReg (a + n) →
      exec (.addi d n) s = .next { s with regs := s.regs.set d (a + n), signal := writeSignal d }) ∧
    (s.cfg.InReg (a - n) →
      exec (.subi d n) s = .next { s with regs := s.regs.set d (a - n), signal := writeSignal d }) ∧
    (s.cfg.InReg (a * n) →
      exec (.multi d n) s =
        .next { s with regs := s.regs.set d (a * n), signal := writeSignal d }) ∧
    (n ≠ 0 → s.cfg.InReg (tdiv a n) →
      exec (.divi d n) s =
        .next { s with regs := s.regs.set d (tdiv a n), signal := writeSignal d }) ∧
    (n ≠ 0 → s.cfg.InReg (fmod a n) →
      exec (.modi d n) s =
        .next { s with regs := s.regs.set d (fmod a n), signal := writeSignal d }) ∧
    (s.cfg.InReg (bitXor a n) →
      exec (.oplusi d n) s =
        .next { s with regs := s.regs.set d (bitXor a n), signal := writeSignal d }) ∧
    (s.cfg.InReg (bitAnd a n) →
      exec (.andi d n) s =
        .next { s with regs := s.regs.set d (bitAnd a n), signal := writeSignal d }) ∧
    (s.cfg.InReg (bitOr a n) →
      exec (.ori d n) s =
        .next { s with regs := s.regs.set d (bitOr a n), signal := writeSignal d })

/-- The register forms: `D <- f(D, S)`; `S` may be `D`, and both reads see the old value. -/
def Obligations.RegisterFormsComplete : Prop :=
  ∀ (s : State) (d src : Reg) (a b : Int), a = s.regs.get d → b = s.regs.get src →
    (s.cfg.InReg (a + b) →
      exec (.addr d src) s =
        .next { s with regs := s.regs.set d (a + b), signal := writeSignal d }) ∧
    (s.cfg.InReg (a - b) →
      exec (.subr d src) s =
        .next { s with regs := s.regs.set d (a - b), signal := writeSignal d }) ∧
    (s.cfg.InReg (a * b) →
      exec (.multr d src) s =
        .next { s with regs := s.regs.set d (a * b), signal := writeSignal d }) ∧
    (b ≠ 0 → s.cfg.InReg (tdiv a b) →
      exec (.divr d src) s =
        .next { s with regs := s.regs.set d (tdiv a b), signal := writeSignal d }) ∧
    (b ≠ 0 → s.cfg.InReg (fmod a b) →
      exec (.modr d src) s =
        .next { s with regs := s.regs.set d (fmod a b), signal := writeSignal d }) ∧
    (s.cfg.InReg (bitXor a b) →
      exec (.oplusr d src) s =
        .next { s with regs := s.regs.set d (bitXor a b), signal := writeSignal d }) ∧
    (s.cfg.InReg (bitAnd a b) →
      exec (.andr d src) s =
        .next { s with regs := s.regs.set d (bitAnd a b), signal := writeSignal d }) ∧
    (s.cfg.InReg (bitOr a b) →
      exec (.orr d src) s =
        .next { s with regs := s.regs.set d (bitOr a b), signal := writeSignal d })

/-- The bitwise operations in immediate and register form complete on every operand: no result leaves
`RANGE_R`. -/
def Obligations.BitwiseFormsNeverFail : Prop :=
  ∀ (s : State) (d src : Reg) (n : Int), s.cfg.WidthsOk → s.cfg.InImm n →
    s.cfg.InReg (s.regs.get d) → s.cfg.InReg (s.regs.get src) →
    exec (.oplusi d n) s =
      .next { s with regs := s.regs.set d (bitXor (s.regs.get d) n), signal := writeSignal d } ∧
    exec (.andi d n) s =
      .next { s with regs := s.regs.set d (bitAnd (s.regs.get d) n), signal := writeSignal d } ∧
    exec (.ori d n) s =
      .next { s with regs := s.regs.set d (bitOr (s.regs.get d) n), signal := writeSignal d } ∧
    exec (.oplusr d src) s =
      .next { s with
        regs := s.regs.set d (bitXor (s.regs.get d) (s.regs.get src))
        signal := writeSignal d } ∧
    exec (.andr d src) s =
      .next { s with
        regs := s.regs.set d (bitAnd (s.regs.get d) (s.regs.get src))
        signal := writeSignal d } ∧
    exec (.orr d src) s =
      .next { s with
        regs := s.regs.set d (bitOr (s.regs.get d) (s.regs.get src))
        signal := writeSignal d }

/-- A taken jump sets PC to its own index plus the offset, if that lies in `[0, N]`, with signal
`Jumped`: JUMP always, the six conditional jumps when their relation holds of ACC. That the old and new
PC go to the debug message as `JumpTaken` is the spec's decision D20 (assumption 13). -/
def Obligations.TakenJumpsComplete : Prop :=
  ∀ (s : State) (n : Int), 0 ≤ s.regs.pc + n → s.regs.pc + n ≤ s.progLen →
    let t : State := { s with
      regs := s.regs.set .pc (s.regs.pc + n)
      signal := .jumped
      dbg := .jumpTaken s.regs.pc (s.regs.pc + n) }
    exec (.jump n) s = .next t ∧
    (s.regs.acc = 0 → exec (.jumpeq n) s = .next t) ∧
    (s.regs.acc ≠ 0 → exec (.jumpne n) s = .next t) ∧
    (s.regs.acc ≤ 0 → exec (.jumple n) s = .next t) ∧
    (0 ≤ s.regs.acc → exec (.jumpge n) s = .next t) ∧
    (s.regs.acc < 0 → exec (.jumplt n) s = .next t) ∧
    (0 < s.regs.acc → exec (.jumpgt n) s = .next t)

/-- A denied conditional jump changes nothing but the debug message, signals `Advance` and tests no
bounds: its offset is arbitrary. That operation and ACC go to the debug message as `JumpDenied` is the
spec's decision D20 (assumption 13). -/
def Obligations.DeniedJumpsComplete : Prop :=
  ∀ (s : State) (n : Int),
    (s.regs.acc ≠ 0 → exec (.jumpeq n) s =
      .next { s with signal := .advance, dbg := .jumpDenied .jumpeq s.regs.acc }) ∧
    (s.regs.acc = 0 → exec (.jumpne n) s =
      .next { s with signal := .advance, dbg := .jumpDenied .jumpne s.regs.acc }) ∧
    (0 < s.regs.acc → exec (.jumple n) s =
      .next { s with signal := .advance, dbg := .jumpDenied .jumple s.regs.acc }) ∧
    (s.regs.acc < 0 → exec (.jumpge n) s =
      .next { s with signal := .advance, dbg := .jumpDenied .jumpge s.regs.acc }) ∧
    (0 ≤ s.regs.acc → exec (.jumplt n) s =
      .next { s with signal := .advance, dbg := .jumpDenied .jumplt s.regs.acc }) ∧
    (s.regs.acc ≤ 0 → exec (.jumpgt n) s =
      .next { s with signal := .advance, dbg := .jumpDenied .jumpgt s.regs.acc })

/-- NOP reads and writes nothing and signals `Advance`. -/
def Obligations.NopCompletes : Prop :=
  ∀ s : State, exec .nop s = .next { s with signal := .advance }

/-! ### Run-time errors (60_exceptions.md) -/

/-- `CheckAddr` (20_memory.md section 1; for plain forms the spec's decision D7): every instruction
that reaches the data memory, plain or offset, load, store or compute, fails with
`MemoryAddressOutOfRange` when its effective address is below 0 or above `ADDR_MAX`. -/
def Obligations.AddressErrorsRaise : Prop :=
  ∀ (i : Instr) (s : State) (ea : Int), memAddr i s = some ea → (ea < 0 ∨ s.cfg.addrMax < ea) →
    exec i s = raise (.memoryAddressOutOfRange ea) s

/-- The common template of the 24 compute operations (43_compute.md section 1, with the spec's
decisions D7, D27). The memory form first checks its address; then DIV and MOD fail with
`DivisionByZero` on the right operand 0; then a result outside `RANGE_R` fails with
`RegisterOverflow`, neither wrapped nor saturated; else the destination receives the exact result, the
signal is `Jumped` exactly for PC, and nothing else changes. -/
def Obligations.ComputeTemplate : Prop :=
  ∀ (i : Instr) (s : State) (f : AluFn) (d : Reg) (o : Operand), computeParts i = some (f, d, o) →
    (∀ n, o = .mem n → ¬ s.cfg.InAddr n → exec i s = raise (.memoryAddressOutOfRange n) s) ∧
    ∀ b : Int,
      ((∃ n, o = .mem n ∧ s.cfg.InAddr n ∧ b = s.mem.read n.toNat) ∨ o = .imm b ∨
        (∃ r, o = .reg r ∧ b = s.regs.get r)) →
      ((f = .div ∨ f = .mod) → b = 0 → exec i s = raise (.divisionByZero d i.op) s) ∧
      (¬ ((f = .div ∨ f = .mod) ∧ b = 0) → ¬ s.cfg.InReg (f.eval (s.regs.get d) b) →
        exec i s = raise (.registerOverflow d i.op (f.eval (s.regs.get d) b)) s) ∧
      (¬ ((f = .div ∨ f = .mod) ∧ b = 0) → s.cfg.InReg (f.eval (s.regs.get d) b) →
        exec i s = .next { s with
          regs := s.regs.set d (f.eval (s.regs.get d) b)
          signal := if d = .pc then .jumped else .advance })

/-- Jump mechanics, for JUMP and the six conditional jumps (44_jump_nop.md, with the spec's decision D20
on the message). A jump is taken always (JUMP) or when its
relation holds of ACC; then a negative target fails with `NegativePC`, one above `N` with `PCOverflow`,
and any other is written to PC with signal `Jumped` and both values in the debug message. A denied jump
changes no state, tests no bounds, signals `Advance` and reports operation and ACC. -/
def Obligations.JumpRules : Prop :=
  ∀ (i : Instr) (s : State) (n t : Int), i.imm? = some n → t = s.regs.pc + n →
    (i = .jump n ∨ (∃ c, condOf i = some c ∧ c.holds s.regs.acc = true) →
      (t < 0 → exec i s = raise (.negativePC t) s) ∧
      (s.progLen < t → exec i s = raise (.pcOverflow t) s) ∧
      (0 ≤ t → t ≤ s.progLen → exec i s = .next { s with
        regs := s.regs.set .pc t
        signal := .jumped
        dbg := .jumpTaken s.regs.pc t })) ∧
    (∀ c, condOf i = some c → c.holds s.regs.acc = false →
      exec i s = .next { s with signal := .advance, dbg := .jumpDenied i.op s.regs.acc })

/-- The checked write. A value outside `RANGE_R` raises `RegisterOverflow` naming register and
operation; a legal one is written, reads back exactly, leaves every other register, and makes the signal
`Jumped` exactly if the register is PC; nothing else changes. Every instruction with a destination
register writes the value it produces so: the loads, whose cell may lie outside `RANGE_R` when `M > R`,
LOADI, MOVE and the 24 compute operations. -/
def Obligations.CheckedRegisterWrite : Prop :=
  (∀ (f : RegFile) (r : Reg) (v : Int),
    (f.set r v).get r = v ∧ ∀ q, q ≠ r → (f.set r v).get q = f.get q) ∧
  (∀ (op : Op) (r : Reg) (v : Int) (s : State),
    ((v < s.cfg.regMin ∨ s.cfg.regMax < v) →
      writeReg op r v s = raise (.registerOverflow r op v) s) ∧
    (s.cfg.InReg v → writeReg op r v s = .next { s with
      regs := s.regs.set r v
      signal := if r = .pc then .jumped else .advance })) ∧
  ∀ (i : Instr) (s : State) (d : Reg) (v : Int), i.dest? = some d → destValue i s = some v →
    ((v < s.cfg.regMin ∨ s.cfg.regMax < v) → exec i s = raise (.registerOverflow d i.op v) s) ∧
    (s.cfg.InReg v → exec i s = .next { s with
      regs := s.regs.set d v
      signal := if d = .pc then .jumped else .advance })

/-- Taking an error: the machine state becomes the snapshot the Step pushed, which leaves the stack;
the message records error, line and text of the instruction PC then indexes; the debug message is
cleared; the controller waits. Nothing else changes but the transient signal. -/
def Obligations.RaiseRestoresSnapshot : Prop :=
  ∀ (e : RunError) (s : State) (snap : Snapshot) (rest : List Snapshot) (rec : Record),
    s.undo = snap :: rest →
    ({ s with regs := snap.regs } : State).fetch = some rec →
    raise e s = .next { s with
      regs := snap.regs
      mem := snap.mem
      undo := rest
      msg := .error e rec.line rec.text
      dbg := .none
      cstate := .awaitingStep
      signal := .advance }

/-- A failed Step leaves no effect: machine state and undo stack equal those before it, the message
carries the error the instruction raised (or `NegativePC` of the PC it left) with the failing
instruction's line and text, the controller waits, and the same Step fails in the same way again. -/
def Obligations.FailedStepRollsBack : Prop :=
  ∀ (s t : State), serveStep s = .next t → t.failed = true →
    ∃ e rec, s.fetch = some rec ∧
      (exec rec.instr s.beginStep = raise e s.beginStep ∨
        ∃ u, exec rec.instr s.beginStep = .next u ∧ u.cstate = .running ∧
          u.autoAdvance.regs.pc < 0 ∧ e = .negativePC u.autoAdvance.regs.pc) ∧
      t = { s with
        msg := .error e rec.line rec.text
        dbg := .none
        cstate := .awaitingStep
        signal := .advance } ∧
      t.terminal = false ∧ serveStep t = .next t

/-- With `M = R`, legal widths, a legal machine state and a well-formed instruction, an instruction
fails only with the errors its operation may raise: the table of which operation can raise what, but
for the controller's own PC test. -/
def Obligations.OnlyListedErrors : Prop :=
  ∀ (i : Instr) (s t : State), s.inStep = true → s.cfg.WidthsOk → s.cfg.cellWidth = s.cfg.regWidth →
    regsOk s.cfg s.regs = true → memOk s.cfg s.mem = true → i.fits s.cfg = true →
    s.msg = .none → exec i s = .next t →
    ∀ e line text, t.msg = .error e line text → mayRaise i.op e = true

/-! ### Frames (what exec leaves unchanged inside a Step) -/

/-- Every register but the destination and PC is unchanged, for every instruction. -/
def Obligations.RegisterFrame : Prop :=
  ∀ (i : Instr) (s t : State) (r : Reg), s.inStep = true → exec i s = .next t →
    i.dest? ≠ some r → r ≠ .pc → t.regs.get r = s.regs.get r

/-- An instruction that is no store leaves every cell of memory, assigned or not, as it was. -/
def Obligations.NonStoringMemoryFrame : Prop :=
  ∀ (i : Instr) (s t : State) (a : Nat), s.inStep = true → exec i s = .next t →
    storeAddr i s = none → t.mem.find a = s.mem.find a ∧ t.mem.read a = s.mem.read a

/-- A store leaves every cell but the one at its effective address as it was, and no register changes.
-/
def Obligations.StoreFrame : Prop :=
  ∀ (i : Instr) (s t : State) (ea : Int), s.inStep = true → exec i s = .next t →
    storeAddr i s = some ea →
    t.regs = s.regs ∧
    ∀ a : Nat, (a : Int) ≠ ea → t.mem.find a = s.mem.find a ∧ t.mem.read a = s.mem.read a

/-- PC is written only by a taken jump or as a destination register. -/
def Obligations.PcFrame : Prop :=
  ∀ (i : Instr) (s t : State), s.inStep = true → exec i s = .next t →
    i.dest? ≠ some .pc → takesJump i s = false → t.regs.pc = s.regs.pc

/-- No instruction reaches the configuration, the instruction store, the shutdown latch, the answers to
the host or the coming requests; one that succeeds leaves the undo stack, `cstate` and `msg` too, and
`dbg` unless it is a jump. -/
def Obligations.ControlStateFrame : Prop :=
  ∀ (i : Instr) (s t : State), exec i s = .next t →
    (t.cfg = s.cfg ∧ t.prog = s.prog ∧ t.shutdown = s.shutdown ∧ t.loadError = s.loadError ∧
      t.refusal = s.refusal ∧ t.requests = s.requests) ∧
    (s.cstate = .running → t.cstate = .running →
      t.undo = s.undo ∧ t.msg = s.msg ∧
      (takesJump i s = false → condOf i = none → t.dbg = s.dbg))

/-! ### The signal, memory and arithmetic laws -/

/-- The signal of an instruction that does not fail is `Jumped` exactly when it wrote PC as its
destination register or is a jump that was taken. It lives for one Step only: the spec calls it no
state, and that the model's field for it (assumption 6, DESIGN CHOICE) holds `Advance` between requests
and is read by no Step but the one that wrote it is the model's form of that. -/
def Obligations.SignalRule : Prop :=
  (∀ (i : Instr) (s t : State), s.cstate = .running → exec i s = .next t → t.cstate = .running →
    (t.signal = .jumped ↔ i.dest? = some .pc ∨ takesJump i s = true)) ∧
  ∀ (s : State) (rec : Record) (old : Signal), s.shutdown = false → s.cstate = .awaitingStep →
    s.fetch = some rec →
    serveStep { s with signal := old } = serveStep s ∧ ∀ t, serveStep s = .next t →
      t.signal = .advance

/-- A read gives the cell's value if the cell is assigned and 0 if not, never an error; the result is a
value of `RANGE_M`; no load assigns the cell it reads. -/
def Obligations.MemoryReads : Prop :=
  ∀ (s : State) (d : Reg) (a : Nat), memOk s.cfg s.mem = true → s.cfg.InAddr a →
    (∀ x, s.mem.find a = some x → s.mem.read a = x) ∧
    (s.mem.find a = none → s.mem.read a = 0) ∧
    s.cfg.InCell (s.mem.read a) ∧
    (s.cfg.InReg (s.mem.read a) →
      ∃ t, exec (.load d a) s = .next t ∧ t.regs.get d = s.mem.read a ∧ t.mem = s.mem)

/-- A write of a register value assigns its cell, 0 included, which then reads as written; it leaves
every other cell and keeps the memory legal (20_memory.md section 1, with the spec's decisions D11,
D28). -/
def Obligations.MemoryWrites : Prop :=
  ∀ (c : Config) (m : Memory) (a : Nat) (v : Int), c.WidthsOk → memOk c m = true → c.InAddr a →
    c.InReg v →
    (m.write a v).find a = some v ∧ (m.write a v).read a = v ∧
    (∀ b, b ≠ a → (m.write a v).find b = m.find b ∧ (m.write a v).read b = m.read b) ∧
    memOk c (m.write a v) = true

/-- What a STORE writes a LOAD of the same cell reads. That the cell is assigned even if the value is 0
is the spec's decision D28 (assumption 7). -/
def Obligations.StoreThenLoad : Prop :=
  ∀ (s t : State) (src d : Reg) (n : Int), s.cfg.InAddr n → s.cfg.InReg (s.regs.get src) →
    exec (.store src n) s = .next t →
    t.mem.find n.toNat = some (s.regs.get src) ∧
    exec (.load d n) t =
      .next { t with regs := t.regs.set d (s.regs.get src), signal := writeSignal d }

/-- An unassigned cell loads 0, and loading does not assign it. -/
def Obligations.UnassignedCellLoadsZero : Prop :=
  ∀ (s : State) (d : Reg) (n : Int), s.cfg.InAddr n → s.mem.find n.toNat = none →
    exec (.load d n) s = .next { s with regs := s.regs.set d 0, signal := writeSignal d }

/-- A law of the model's own representation (assumption 7, DESIGN CHOICE): two memories in canonical
form with the same assigned cells are one list, so that equality of states is equality of maps, assigned
cells told apart from unassigned ones as the spec's decision D28 has it. -/
def Obligations.MemoryExtensional : Prop :=
  ∀ m m' : Memory, m.wf = true → m'.wf = true → (∀ a, m.find a = m'.find a) → m = m'

/-- DIV truncates toward zero; MOD (the spec's decision D8) is the remainder congruent to the dividend
modulo the divisor that is 0 or has the divisor's sign and is smaller in magnitude; in `RANGE_R` DIV
overflows only for `RMIN tdiv -1`, and MOD never. -/
def Obligations.DivisionLaws : Prop :=
  ∀ a b : Int, b ≠ 0 →
    tdiv a b = Int.tdiv a b ∧
    (∃ q, a = b * q + fmod a b) ∧
    (fmod a b = 0 ∨ (fmod a b).sign = b.sign) ∧
    (fmod a b).natAbs < b.natAbs ∧
    ∀ c : Config, c.InReg a → c.InReg b →
      (¬ c.InReg (tdiv a b) ↔ a = c.regMin ∧ b = -1) ∧ c.InReg (fmod a b)

/-- The bitwise functions (the spec's decision D26) combine the two's-complement forms of any width
`K` that holds both operands; the result does not depend on `K`, and lies in `RANGE_R` if the operands
do. The operand -1 is the all-ones mask. -/
def Obligations.BitwiseLaws : Prop :=
  ∀ a b : Int,
    (∀ K : Nat, 1 ≤ K → -signedBound K ≤ a → a < signedBound K → -signedBound K ≤ b →
      b < signedBound K →
      bitXor a b = (BitVec.ofInt K a ^^^ BitVec.ofInt K b).toInt ∧
      bitAnd a b = (BitVec.ofInt K a &&& BitVec.ofInt K b).toInt ∧
      bitOr a b = (BitVec.ofInt K a ||| BitVec.ofInt K b).toInt) ∧
    (∀ c : Config, c.WidthsOk → c.InReg a → c.InReg b →
      c.InReg (bitXor a b) ∧ c.InReg (bitAnd a b) ∧ c.InReg (bitOr a b)) ∧
    bitAnd a (-1) = a ∧ bitXor a (-1) = -a - 1

/-- A negative immediate is an all-ones-extended mask: `ANDI D -1` leaves `D`, `OPLUSI D -1` gives
`-D - 1`. -/
def Obligations.AllOnesMask : Prop :=
  ∀ (s : State) (d : Reg), s.cfg.InReg (s.regs.get d) →
    exec (.andi d (-1)) s = .next { s with signal := writeSignal d } ∧
    exec (.oplusi d (-1)) s =
      .next { s with regs := s.regs.set d (-s.regs.get d - 1), signal := writeSignal d }

/-- A program cannot tell that it is stepped or undone: two states with the same configuration, program
length and machine state, whatever their undo stacks and messages, give a succeeding instruction the
same effect. -/
def Obligations.ControllerInvisible : Prop :=
  ∀ (i : Instr) (s s' t : State), s.cfg = s'.cfg → s.regs = s'.regs → s.mem = s'.mem →
    s.progLen = s'.progLen → s.cstate = .running → s'.cstate = .running →
    exec i s = .next t → t.cstate = .running →
    ∃ t', exec i s' = .next t' ∧ t'.cstate = .running ∧ t'.regs = t.regs ∧ t'.mem = t.mem ∧
      t'.signal = t.signal

/-! ### The Step request (45_controller.md R220 to R229) -/

/-- An instruction that succeeds and leaves PC, after the auto-advance, negative fails the Step with
`NegativePC` (the spec's decision D10): the machine state and the undo stack are as before the Step.
Only an instruction with PC as its destination register can do so. -/
def Obligations.NegativePcFailsStep : Prop :=
  ∀ (s t : State) (rec : Record), s.prog ≠ [] → s.shutdown = false → s.cstate = .awaitingStep →
    s.fetch = some rec → exec rec.instr s.beginStep = .next t → t.cstate = .running →
    t.autoAdvance.regs.pc < 0 →
    rec.instr.dest? = some .pc ∧ serveStep s = .next { s with
      msg := .error (.negativePC t.autoAdvance.regs.pc) rec.line rec.text
      dbg := .none
      cstate := .awaitingStep
      signal := .advance }

/-- The sentinel `JUMP 0`, tested on the record (the spec's decision D6), ends the run and leaves the
machine state as it was; the snapshot stays on the stack. -/
def Obligations.SentinelTerminates : Prop :=
  ∀ (s : State) (rec : Record), s.shutdown = false → s.cstate = .awaitingStep →
    s.fetch = some rec → rec.instr = .jump 0 →
    serveStep s = .next { s with
      undo := { regs := s.regs, mem := s.mem } :: s.undo
      cstate := .terminated
      msg := .terminateSentinel rec.line
      dbg := .jumpTaken s.regs.pc s.regs.pc
      signal := .advance }

/-- A successful instruction other than the sentinel that leaves PC, after the auto-advance by exactly 1
if the signal is `Advance`, at or past `N` ends the run with `EndOfProgram`: the machine state keeps the
effect and the PC, and the snapshot stays on the stack. -/
def Obligations.EndOfProgramEnds : Prop :=
  ∀ (s t : State) (rec : Record) (pc : Int), s.prog ≠ [] → s.shutdown = false →
    s.cstate = .awaitingStep → s.fetch = some rec → rec.instr ≠ .jump 0 →
    exec rec.instr s.beginStep = .next t → t.cstate = .running →
    (t.signal = .advance → pc = t.regs.pc + 1) → (t.signal = .jumped → pc = t.regs.pc) →
    s.progLen ≤ pc →
    serveStep s = .next { t with
      regs := t.regs.set .pc pc
      undo := { regs := s.regs, mem := s.mem } :: s.undo
      cstate := .terminated
      msg := .endOfProgram
      signal := .advance }

/-- A successful instruction other than the sentinel that leaves PC, after the auto-advance by exactly 1
if the signal is `Advance` and as set if it is `Jumped`, in `[0, N)` lets the controller wait with
`StepOk` (45_controller.md section 1, with the spec's decision D20); the debug message is the
instruction's and the snapshot stays on the stack. -/
def Obligations.StepContinues : Prop :=
  ∀ (s t : State) (rec : Record) (pc : Int), s.prog ≠ [] → s.shutdown = false →
    s.cstate = .awaitingStep → s.fetch = some rec → rec.instr ≠ .jump 0 →
    exec rec.instr s.beginStep = .next t → t.cstate = .running →
    (t.signal = .advance → pc = t.regs.pc + 1) → (t.signal = .jumped → pc = t.regs.pc) →
    0 ≤ pc → pc < s.progLen →
    serveStep s = .next { t with
      regs := t.regs.set .pc pc
      undo := { regs := s.regs, mem := s.mem } :: s.undo
      cstate := .awaitingStep
      msg := .stepOk rec.line rec.text
      signal := .advance }

/-- A Step while Terminated changes nothing but the messages (the spec's decision D18); a Step or Undo
without a program or after the shutdown latch is refused. That one is refused too while another request
is being served is the model's reading (assumption 8, DEDUCED): the spec says only that the host never
issues one. -/
def Obligations.RequestPreconditions : Prop :=
  ∀ s : State,
    (s.prog = [] → serveStep s = .refused .noProgram ∧ serveUndo s = .refused .noProgram) ∧
    (s.prog ≠ [] → s.shutdown = true →
      serveStep s = .refused .shutDown ∧ serveUndo s = .refused .shutDown) ∧
    (s.prog ≠ [] → s.shutdown = false → s.cstate = .terminated →
      serveStep s = .next { s with msg := .alreadyTerminated, dbg := .none }) ∧
    (s.prog ≠ [] → s.shutdown = false → s.cstate = .running →
      serveStep s = .refused .requestInProgress ∧ serveUndo s = .refused .requestInProgress)

/-- A Step ends in a next state or a refusal, never in a fault, from every state; from a state of the
invariant whose latch is clear the fetch is always in range and the latch stays clear. -/
def Obligations.NoInternalFault : Prop :=
  ∀ s : State,
    (∀ f, step s ≠ .fault f) ∧
    (s.inv = true → s.prog ≠ [] → s.shutdown = false → s.cstate = .awaitingStep →
      (∃ rec, s.fetch = some rec) ∧ ∃ t, serveStep s = .next t ∧ t.shutdown = false)

/-! ### Undo -/

/-- Undo with an empty stack reports `NothingToUndo` and changes no more than the messages. -/
def Obligations.UndoEmptyStack : Prop :=
  ∀ s : State, s.prog ≠ [] → s.shutdown = false → s.cstate ≠ .running → s.undo = [] →
    serveUndo s = .next { s with msg := .nothingToUndo, dbg := .none }

/-- Undo pops the most recent snapshot, which becomes the machine state; the controller waits, also
after Terminated. Registers and memory are restored and nothing else (the spec's decision D29). -/
def Obligations.UndoRestoresSnapshot : Prop :=
  ∀ (s : State) (snap : Snapshot) (rest : List Snapshot), s.prog ≠ [] → s.shutdown = false →
    s.cstate ≠ .running → s.undo = snap :: rest →
    serveUndo s = .next { s with
      regs := snap.regs
      mem := snap.mem
      undo := rest
      cstate := .awaitingStep
      msg := .undone
      dbg := .none }

/-- The undo stack grows by the snapshot of the machine state exactly in a Step that succeeds; in any
other Step that is served it and the machine state stay. -/
def Obligations.UndoDepth : Prop :=
  ∀ s t : State, serveStep s = .next t →
    (t.stepped = true → t.undo = { regs := s.regs, mem := s.mem } :: s.undo) ∧
    (t.stepped = false → t.undo = s.undo ∧ t.regs = s.regs ∧ t.mem = s.mem)

/-- Undo after N successful Steps followed by N Undo calls returns the machine to its exact
pre-execution state; a further Undo call is a no-op that reports "nothing to undo". -/
def Obligations.UndoReturnsToStart : Prop :=
  ∀ (n : Nat) (s t : State), s.prog ≠ [] → s.shutdown = false → s.cstate = .awaitingStep →
    s.undo = [] → steps n s = .next t → t.undo.length = n →
    ∃ u, undos n t = .next u ∧ u.regs = s.regs ∧ u.mem = s.mem ∧ u.undo = [] ∧
      u.cstate = .awaitingStep ∧ u.prog = s.prog ∧ u.cfg = s.cfg ∧
      serveUndo u = .next { u with msg := .nothingToUndo, dbg := .none }

/-! ### The invariant between requests (45_controller.md R237) -/

/-- Every step, whatever request it serves, keeps the invariant. -/
def Obligations.StepKeepsInvariant : Prop :=
  ∀ s t : State, s.inv = true → step s = .next t → t.inv = true

/-- The reset state meets the invariant. -/
def Obligations.ResetMeetsInvariant : Prop := State.reset.inv = true

/-- Step and Undo leave the program and the configuration as Load set them, and `running` is never
observed between requests. -/
def Obligations.ProgramAndModeKept : Prop :=
  ∀ s t : State, (serveStep s = .next t ∨ serveUndo s = .next t) →
    t.prog = s.prog ∧ t.cfg = s.cfg ∧ (s.cstate ≠ .running → t.cstate ≠ .running)

/-! ### Load (70_reset_and_hazards.md section 1) and the parser (40_parser.md) -/

/-- Load succeeds when its checks do: an accepted configuration, a legal `REG_INIT`, a program that
reads, of at most RMAX records, and an initial memory that reads. The state is then the configuration,
the program and the memory given, registers as `REG_INIT` says, an empty undo stack, the controller
waiting, messages and latch clear, whatever the block held before; and every successful Load leaves
that: widths within the constraints, 1 <= N <= RMAX, memory legal, PC 0. That a register `REG_INIT`
does not name is 0 is the spec's decision D1 (assumption 2), that `REG_INIT` is an input of Load, checked
before the program, the model's form of it (assumption 9). -/
def Obligations.SuccessfulLoadState : Prop :=
  ∀ inp : LoadInput,
    (∀ (p : List Record) (m : Memory), checkConfig inp.cfg = none →
      regInitOk inp.cfg inp.regInit = true → readProgram inp.cfg inp.source = .ok p →
      (p.length : Int) ≤ inp.cfg.regMax → readInitMem inp.cfg inp.initMem = .ok m →
      load inp = .ok
        { cfg := inp.cfg, regs := initRegs inp.regInit, mem := m, prog := p, undo := []
          cstate := .awaitingStep, msg := .none, dbg := .none, shutdown := false
          signal := .advance, loadError := none, refusal := none, requests := [] }) ∧
    ∀ s t : State, load inp = .ok s →
      serveLoad inp t = .next { s with requests := t.requests } ∧
      s.cfg = inp.cfg ∧ s.cfg.WidthsOk ∧ 1 ≤ s.progLen ∧ s.progLen ≤ s.cfg.regMax ∧
      readProgram inp.cfg inp.source = .ok s.prog ∧ readInitMem inp.cfg inp.initMem = .ok s.mem ∧
      memOk s.cfg s.mem = true ∧ s.regs.pc = 0 ∧
      (∀ p ∈ inp.regInit, s.regs.get p.1 = p.2) ∧
      (∀ r, (∀ p ∈ inp.regInit, p.1 ≠ r) → s.regs.get r = 0) ∧
      s.undo = [] ∧ s.cstate = .awaitingStep ∧ s.msg = .none ∧ s.dbg = .none ∧ s.shutdown = false

/-- A configuration is accepted exactly when its widths keep their constraints, its comment marker is a
non-empty text without whitespace and without `;`, no two names of `OPTABLE` have one fold, every row of
`OPTABLE` gives its operation the arguments of its format in some order (decision D4), and `REGNAMES` is
the variant's names. That the last three are checked at step 1 of Load is the model's reading
(assumption 10, DEDUCED). -/
def Obligations.ConfigurationAccepted : Prop :=
  ∀ c : Config, checkConfig c = none ↔
    (1 ≤ c.immWidth ∧ c.immWidth < c.regWidth ∧ c.regWidth ≤ c.cellWidth ∧ 1 ≤ c.addrExp) ∧
    (c.commentMarker ≠ [] ∧ ∀ ch ∈ c.commentMarker, isSpace ch = false ∧ ch ≠ ';') ∧
    (c.optable.map fun row => fold row.name).Nodup ∧
    (∀ row ∈ c.optable, row.kinds.Perm row.op.kinds) ∧
    c.regNames.Perm (defaultRegNames c.variant)

/-- Before the first Load, and after a Load that failed, there is no program and nothing to undo: Step
and Undo are refused. -/
def Obligations.FailedLoadLeavesNoProgram : Prop :=
  (serveStep State.reset = .refused .noProgram ∧ serveUndo State.reset = .refused .noProgram) ∧
  ∀ (inp : LoadInput) (s : State) (e : LoadError), load inp = .error e →
    ∃ t, serveLoad inp s = .next t ∧ t.prog = [] ∧ t.undo = [] ∧
      serveStep t = .refused .noProgram ∧ serveUndo t = .refused .noProgram

/-- The initial memory (the spec's decision D12) is accepted exactly when it is absent or a map whose
keys are integers of `[0, ADDR_MAX]` and whose values are integers of `RANGE_M`; the memory after Load
is then exactly that map. Any other input is rejected with `MalformedInitialMemory` and the Load fails.
The map is handed over as a list, and that a list with a key twice is rejected is the model's reading
(assumption 11, DEDUCED). -/
def Obligations.InitialMemoryValidated : Prop :=
  ∀ (c : Config) (im : InitMem),
    (∀ m, readInitMem c im = .ok m →
      (im = .absent ∧ m = []) ∨
      ∃ kvs, im = InitMem.ofCells kvs ∧ (∀ p ∈ kvs, c.InAddr p.1 ∧ c.InCell p.2) ∧
        (kvs.map Prod.fst).Nodup ∧
        m.wf = true ∧ ∀ a v, m.find a = some v ↔ (a, v) ∈ kvs) ∧
    (im = .absent → readInitMem c im = .ok []) ∧
    (∀ kvs, im = InitMem.ofCells kvs → (∀ p ∈ kvs, c.InAddr p.1 ∧ c.InCell p.2) →
      (kvs.map Prod.fst).Nodup →
      ∃ m, readInitMem c im = .ok m) ∧
    (∀ e, readInitMem c im = .error e → ∃ k, e = .malformedInitialMemory k) ∧
    ∀ inp : LoadInput, inp.cfg = c → inp.initMem = im →
      (∀ s, load inp = .ok s → readInitMem c im = .ok s.mem) ∧
      (∀ e, readInitMem c im = .error e → ∃ e', load inp = .error e')

/-- Every program the parser produces under an accepted configuration is non-empty and made of
well-formed records. And it produces what a text spells: lines that each give a name of `OPTABLE` and, in
the order of its row, register names and integer literals in `RANGE_I`, with whitespace between and
around them and with or without the terminator, parse to one record a line, with the line's number, its
trimmed text, the row's operation and the arguments. That a row's kinds may be in another order than the
operation's format is the spec's decision D4 (93_implementation_defined.md U8); that each argument then
fills the slot of its kind is the model's reading (assumption 10, DEDUCED), and a row that reverses its
two registers (`regsReversed`, read by `rowRegs`) is the model's choice (assumption 10, DESIGN CHOICE). -/
def Obligations.ParsedRecordsWellFormed : Prop :=
  ∀ c : Config, checkConfig c = none →
    (∀ (t : Text) (p : List Record), parse c t = .ok p →
      p ≠ [] ∧ ∀ rec ∈ p, rec.instr.wellFormed c = true) ∧
    ∀ ls : List SpelledLine, ls ≠ [] → (∀ l ∈ ls, l.Ok c) →
      ∃ p, parse c (programText ls) = .ok p ∧ p.length = ls.length ∧
        ∀ (k : Nat) (l : SpelledLine) (rec : Record), ls[k]? = some l → p[k]? = some rec →
          rec.line = k + 1 ∧ rec.text = l.body ∧ rec.instr.op = l.row.op ∧
          rec.instr.regs = rowRegs l.row (l.args.map (·.val)) ∧
          rec.instr.imm? = (argInts (l.args.map (·.val))).head?

/-- Comments and blank lines (the spec's decision D14). A line of whitespace, a line that is nothing but
the terminator, and either of them before a comment, is skipped; a trailing comment is cut at the first
occurrence of the marker and the line read as it would be without it. In a program only what Pass A makes
of a line counts, and a skipped line anywhere changes no more than the numbers of the lines after it,
since every physical line is counted (the spec's decision D17). -/
def Obligations.CommentsAndBlankLinesSkipped : Prop :=
  ∀ c : Config, checkConfig c = none →
    (∀ (n : Nat) (b b' y : Text), isBlank b = true → isBlank b' = true →
      passALine c n b = .ok none ∧ passALine c n (b ++ c.commentMarker ++ y) = .ok none ∧
      passALine c n (b ++ ';' :: b') = .ok none ∧
      passALine c n (b ++ ';' :: b' ++ c.commentMarker ++ y) = .ok none) ∧
    (∀ (n : Nat) (x y : Text), ¬ c.commentMarker <:+: x ++ c.commentMarker.dropLast →
      passALine c n (x ++ c.commentMarker ++ y) = passALine c n x) ∧
    ∀ (before after : List Text) (x x' : Text),
      (∀ l ∈ x :: x' :: before ++ after, '\n' ∉ l) →
      ((∀ n, passALine c n x = passALine c n x') →
        parse c (List.intercalate ['\n'] (before ++ x :: after)) =
          parse c (List.intercalate ['\n'] (before ++ x' :: after))) ∧
      ((∀ n, passALine c n x = .ok none) → ∀ p,
        parse c (List.intercalate ['\n'] (before ++ after)) = .ok p →
        parse c (List.intercalate ['\n'] (before ++ x :: after)) =
          .ok (p.map fun rec =>
            if rec.line ≤ before.length then rec else { rec with line := rec.line + 1 }))

/-- A failing parse reports the lowest failing line of the earliest pass that fails (the spec's decision
D16), and every error but `EmptyProgram` names that line's number and text. If Pass A fails its error is
the parse's: `MissingTerminator` of the physical line that fails, all lower ones passing, or
`EmptyProgram` when every physical line is skipped. If it succeeds, each pair it gives is a physical line
with its number; and the error is that of Pass B on one of the pairs, all of lower lines passing, or, Pass
B succeeding, that of Pass C on one of its lines, all lower ones passing. -/
def Obligations.ParseErrorsNameTheirLine : Prop :=
  ∀ (c : Config) (t : Text) (e : ParseError), parse c t = .error e →
    (e.site = none → e = .emptyProgram) ∧
    (∀ e', passA c t = .error e' → e = e' ∧
      ((e = .emptyProgram ∧
          ∀ k raw, (splitLines t)[k]? = some raw → passALine c (k + 1) raw = .ok none) ∨
        ∃ k raw s, (splitLines t)[k]? = some raw ∧ e = .missingTerminator (k + 1) s ∧
          passALine c (k + 1) raw = .error e ∧
          ∀ j raw', j < k → (splitLines t)[j]? = some raw' →
            ∃ kept, passALine c (j + 1) raw' = .ok kept)) ∧
    ∀ ls, passA c t = .ok ls →
      (∀ n s, (n, s) ∈ ls → ∃ k raw, n = k + 1 ∧ (splitLines t)[k]? = some raw ∧
        passALine c n raw = .ok (some (n, s))) ∧
      ((passB c ls = .error e ∧ ∃ n s, (n, s) ∈ ls ∧ e.site = some (n, s) ∧
          passBLine c n s = .error e ∧
          ∀ m s', (m, s') ∈ ls → m < n → ∃ r, passBLine c m s' = .ok r) ∨
        ∃ rs, passB c ls = .ok rs ∧ passC c rs = .error e ∧
          ∃ r ∈ rs, (r.line, r.text) ∈ ls ∧ e.site = some (r.line, r.text) ∧
            passCLine c r = .error e ∧
            ∀ r' ∈ rs, r'.line < r.line → ∃ rec, passCLine c r' = .ok rec)

/-- A token is an integer literal (the spec's decision D13) exactly when it is an optional sign
followed by one or more digits; its value is the base-10 reading. Where an integer is expected
anything else, a register name among it, is `NotAnInteger`; where a register is expected an integer is
`UnknownRegister`. -/
def Obligations.IntegerLiteralGrammar : Prop :=
  ∀ t : Text,
    ((∃ v, readInt t = some v) ↔
      ∃ sign digits : Text, t = sign ++ digits ∧ (sign = [] ∨ sign = ['+'] ∨ sign = ['-']) ∧
        digits ≠ [] ∧ ∀ c ∈ digits, 48 ≤ c.toNat ∧ c.toNat ≤ 57) ∧
    (∀ digits : Text, digits ≠ [] → (∀ c ∈ digits, 48 ≤ c.toNat ∧ c.toNat ≤ 57) →
      let n : Int := Nat.ofDigits 10 (digits.reverse.map fun c => c.toNat - 48)
      (t = digits → readInt t = some n) ∧ (t = '+' :: digits → readInt t = some n) ∧
      (t = '-' :: digits → readInt t = some (-n))) ∧
    ∀ (c : Config) (line : Nat) (text : Text), checkConfig c = none →
      (readInt t = none → resolveArg c line text .int t = .error (.notAnInteger line text t)) ∧
      (∀ p ∈ c.regNames, nameMatches c.registerCaseSensitive p.1 t = true → readInt t = none) ∧
      ((∃ v, readInt t = some v) →
        resolveArg c line text .reg t = .error (.unknownRegister line text t))
end

