-- ==== Sys2Proof/Laws/State.lean ====
section
/-! SUPPORT. One lemma per field per named update of State, and the laws of the register file. -/

namespace Sys2Proof.Machine

/-! ### Register file -/

@[simp] theorem RegFile.get_set_self (f : RegFile) (r : Reg) (v : Int) : (f.set r v).get r = v := by
  cases r <;> rfl

@[simp] theorem RegFile.get_set_ne (f : RegFile) {q r : Reg} (v : Int) (h : q ≠ r) :
    (f.set r v).get q = f.get q := by
  cases q <;> cases r <;> first | rfl | exact absurd rfl h

theorem RegFile.get_set (f : RegFile) (q r : Reg) (v : Int) :
    (f.set r v).get q = if q = r then v else f.get q := by
  split
  · next h => subst h; simp
  · next h => simp [h]

theorem RegFile.set_get_self (f : RegFile) (r : Reg) : f.set r (f.get r) = f := by
  cases r <;> rfl

@[simp] theorem RegFile.set_pc_pc (f : RegFile) (v : Int) : (f.set .pc v).pc = v := rfl

theorem RegFile.set_pc_of_ne (f : RegFile) {r : Reg} (v : Int) (h : r ≠ .pc) : (f.set r v).pc = f.pc := by
  cases r <;> first | rfl | exact absurd rfl h

@[simp] theorem RegFile.get_acc (f : RegFile) : f.get .acc = f.acc := rfl
@[simp] theorem RegFile.get_in1 (f : RegFile) : f.get .in1 = f.in1 := rfl
@[simp] theorem RegFile.get_in2 (f : RegFile) : f.get .in2 = f.in2 := rfl
@[simp] theorem RegFile.get_pc (f : RegFile) : f.get .pc = f.pc := rfl

@[simp] theorem writeSignal_pc : writeSignal .pc = .jumped := rfl

theorem writeSignal_ne {r : Reg} (h : r ≠ .pc) : writeSignal r = .advance := by simp [writeSignal, h]

/-! ### pushSnapshot -/

@[simp] theorem State.pushSnapshot_cfg (s : State) : (s.pushSnapshot).cfg = s.cfg := rfl
@[simp] theorem State.pushSnapshot_regs (s : State) : (s.pushSnapshot).regs = s.regs := rfl
@[simp] theorem State.pushSnapshot_mem (s : State) : (s.pushSnapshot).mem = s.mem := rfl
@[simp] theorem State.pushSnapshot_prog (s : State) : (s.pushSnapshot).prog = s.prog := rfl
@[simp] theorem State.pushSnapshot_undo (s : State) : (s.pushSnapshot).undo = ⟨s.regs, s.mem⟩ :: s.undo := rfl
@[simp] theorem State.pushSnapshot_cstate (s : State) : (s.pushSnapshot).cstate = s.cstate := rfl
@[simp] theorem State.pushSnapshot_msg (s : State) : (s.pushSnapshot).msg = s.msg := rfl
@[simp] theorem State.pushSnapshot_dbg (s : State) : (s.pushSnapshot).dbg = s.dbg := rfl
@[simp] theorem State.pushSnapshot_shutdown (s : State) : (s.pushSnapshot).shutdown = s.shutdown := rfl
@[simp] theorem State.pushSnapshot_signal (s : State) : (s.pushSnapshot).signal = s.signal := rfl
@[simp] theorem State.pushSnapshot_loadError (s : State) : (s.pushSnapshot).loadError = s.loadError := rfl
@[simp] theorem State.pushSnapshot_refusal (s : State) : (s.pushSnapshot).refusal = s.refusal := rfl
@[simp] theorem State.pushSnapshot_requests (s : State) : (s.pushSnapshot).requests = s.requests := rfl

/-! ### restore -/

@[simp] theorem State.restore_cfg (s : State) (p : Snapshot) (rest : List Snapshot) : (s.restore p rest).cfg = s.cfg := rfl
@[simp] theorem State.restore_regs (s : State) (p : Snapshot) (rest : List Snapshot) : (s.restore p rest).regs = p.regs := rfl
@[simp] theorem State.restore_mem (s : State) (p : Snapshot) (rest : List Snapshot) : (s.restore p rest).mem = p.mem := rfl
@[simp] theorem State.restore_prog (s : State) (p : Snapshot) (rest : List Snapshot) : (s.restore p rest).prog = s.prog := rfl
@[simp] theorem State.restore_undo (s : State) (p : Snapshot) (rest : List Snapshot) : (s.restore p rest).undo = rest := rfl
@[simp] theorem State.restore_cstate (s : State) (p : Snapshot) (rest : List Snapshot) : (s.restore p rest).cstate = s.cstate := rfl
@[simp] theorem State.restore_msg (s : State) (p : Snapshot) (rest : List Snapshot) : (s.restore p rest).msg = s.msg := rfl
@[simp] theorem State.restore_dbg (s : State) (p : Snapshot) (rest : List Snapshot) : (s.restore p rest).dbg = s.dbg := rfl
@[simp] theorem State.restore_shutdown (s : State) (p : Snapshot) (rest : List Snapshot) : (s.restore p rest).shutdown = s.shutdown := rfl
@[simp] theorem State.restore_signal (s : State) (p : Snapshot) (rest : List Snapshot) : (s.restore p rest).signal = s.signal := rfl
@[simp] theorem State.restore_loadError (s : State) (p : Snapshot) (rest : List Snapshot) : (s.restore p rest).loadError = s.loadError := rfl
@[simp] theorem State.restore_refusal (s : State) (p : Snapshot) (rest : List Snapshot) : (s.restore p rest).refusal = s.refusal := rfl
@[simp] theorem State.restore_requests (s : State) (p : Snapshot) (rest : List Snapshot) : (s.restore p rest).requests = s.requests := rfl

/-! ### beginStep -/

@[simp] theorem State.beginStep_cfg (s : State) : (s.beginStep).cfg = s.cfg := rfl
@[simp] theorem State.beginStep_regs (s : State) : (s.beginStep).regs = s.regs := rfl
@[simp] theorem State.beginStep_mem (s : State) : (s.beginStep).mem = s.mem := rfl
@[simp] theorem State.beginStep_prog (s : State) : (s.beginStep).prog = s.prog := rfl
@[simp] theorem State.beginStep_undo (s : State) : (s.beginStep).undo = ⟨s.regs, s.mem⟩ :: s.undo := rfl
@[simp] theorem State.beginStep_cstate (s : State) : (s.beginStep).cstate = .running := rfl
@[simp] theorem State.beginStep_msg (s : State) : (s.beginStep).msg = .none := rfl
@[simp] theorem State.beginStep_dbg (s : State) : (s.beginStep).dbg = .none := rfl
@[simp] theorem State.beginStep_shutdown (s : State) : (s.beginStep).shutdown = s.shutdown := rfl
@[simp] theorem State.beginStep_signal (s : State) : (s.beginStep).signal = .advance := rfl
@[simp] theorem State.beginStep_loadError (s : State) : (s.beginStep).loadError = s.loadError := rfl
@[simp] theorem State.beginStep_refusal (s : State) : (s.beginStep).refusal = s.refusal := rfl
@[simp] theorem State.beginStep_requests (s : State) : (s.beginStep).requests = s.requests := rfl

/-! ### internalFault -/

@[simp] theorem State.internalFault_cfg (s : State) : (s.internalFault).cfg = s.cfg := rfl
@[simp] theorem State.internalFault_regs (s : State) : (s.internalFault).regs = s.regs := rfl
@[simp] theorem State.internalFault_mem (s : State) : (s.internalFault).mem = s.mem := rfl
@[simp] theorem State.internalFault_prog (s : State) : (s.internalFault).prog = s.prog := rfl
@[simp] theorem State.internalFault_undo (s : State) : (s.internalFault).undo = s.undo := rfl
@[simp] theorem State.internalFault_cstate (s : State) : (s.internalFault).cstate = s.cstate := rfl
@[simp] theorem State.internalFault_msg (s : State) : (s.internalFault).msg = .none := rfl
@[simp] theorem State.internalFault_dbg (s : State) : (s.internalFault).dbg = .none := rfl
@[simp] theorem State.internalFault_shutdown (s : State) : (s.internalFault).shutdown = true := rfl
@[simp] theorem State.internalFault_signal (s : State) : (s.internalFault).signal = s.signal := rfl
@[simp] theorem State.internalFault_loadError (s : State) : (s.internalFault).loadError = s.loadError := rfl
@[simp] theorem State.internalFault_refusal (s : State) : (s.internalFault).refusal = s.refusal := rfl
@[simp] theorem State.internalFault_requests (s : State) : (s.internalFault).requests = s.requests := rfl

/-! ### autoAdvance -/

@[simp] theorem State.autoAdvance_cfg (s : State) : s.autoAdvance.cfg = s.cfg := by
  unfold State.autoAdvance; split <;> rfl
@[simp] theorem State.autoAdvance_mem (s : State) : s.autoAdvance.mem = s.mem := by
  unfold State.autoAdvance; split <;> rfl
@[simp] theorem State.autoAdvance_prog (s : State) : s.autoAdvance.prog = s.prog := by
  unfold State.autoAdvance; split <;> rfl
@[simp] theorem State.autoAdvance_undo (s : State) : s.autoAdvance.undo = s.undo := by
  unfold State.autoAdvance; split <;> rfl
@[simp] theorem State.autoAdvance_cstate (s : State) : s.autoAdvance.cstate = s.cstate := by
  unfold State.autoAdvance; split <;> rfl
@[simp] theorem State.autoAdvance_msg (s : State) : s.autoAdvance.msg = s.msg := by
  unfold State.autoAdvance; split <;> rfl
@[simp] theorem State.autoAdvance_dbg (s : State) : s.autoAdvance.dbg = s.dbg := by
  unfold State.autoAdvance; split <;> rfl
@[simp] theorem State.autoAdvance_shutdown (s : State) : s.autoAdvance.shutdown = s.shutdown := by
  unfold State.autoAdvance; split <;> rfl
@[simp] theorem State.autoAdvance_signal (s : State) : s.autoAdvance.signal = s.signal := by
  unfold State.autoAdvance; split <;> rfl
@[simp] theorem State.autoAdvance_loadError (s : State) : s.autoAdvance.loadError = s.loadError := by
  unfold State.autoAdvance; split <;> rfl
@[simp] theorem State.autoAdvance_refusal (s : State) : s.autoAdvance.refusal = s.refusal := by
  unfold State.autoAdvance; split <;> rfl
@[simp] theorem State.autoAdvance_requests (s : State) : s.autoAdvance.requests = s.requests := by
  unfold State.autoAdvance; split <;> rfl

theorem State.autoAdvance_regs_advance {s : State} (h : s.signal = .advance) :
    s.autoAdvance.regs = s.regs.set .pc (s.regs.pc + 1) := by simp [State.autoAdvance, h]

theorem State.autoAdvance_regs_jumped {s : State} (h : s.signal = .jumped) :
    s.autoAdvance.regs = s.regs := by simp [State.autoAdvance, h]

/-! ### progLen and fetch depend on the program and PC alone -/

theorem State.progLen_congr {s t : State} (h : s.prog = t.prog) : s.progLen = t.progLen := by
  simp [State.progLen, h]

theorem State.fetch_congr {s t : State} (h : s.prog = t.prog) (hr : s.regs.pc = t.regs.pc) :
    s.fetch = t.fetch := by simp [State.fetch, h, hr]

@[simp] theorem State.beginStep_progLen (s : State) : s.beginStep.progLen = s.progLen := rfl
@[simp] theorem State.beginStep_fetch (s : State) : s.beginStep.fetch = s.fetch := rfl
@[simp] theorem State.autoAdvance_progLen (s : State) : s.autoAdvance.progLen = s.progLen := by
  simp [State.progLen]

/-- A fetch finds a record exactly at an index of the program. -/
theorem State.fetch_eq_some {s : State} {rec : Record} (h : s.fetch = some rec) :
    0 ≤ s.regs.pc ∧ s.regs.pc < s.progLen ∧ s.prog ≠ [] ∧ rec ∈ s.prog := by
  unfold State.fetch at h
  split at h
  · next h0 =>
    have hlt := (List.getElem?_eq_some_iff.mp h).1
    refine ⟨h0, ?_, ?_, List.mem_of_getElem? h⟩
    · unfold State.progLen; omega
    · rintro he; simp [he] at hlt
  · cases h

theorem State.fetch_isSome {s : State} (h0 : 0 ≤ s.regs.pc) (h1 : s.regs.pc < s.progLen) :
    ∃ rec, s.fetch = some rec := by
  unfold State.progLen at h1
  have : s.regs.pc.toNat < s.prog.length := by omega
  exact ⟨s.prog[s.regs.pc.toNat], by simp [State.fetch, h0, this]⟩

end Sys2Proof.Machine
end

