-- ==== Sys2Proof/Laws/Ops.lean ====
section
/-! SUPPORT. For each shared operation one lemma that says once everything it can do. -/

namespace Sys2Proof.Machine

/-- What a raised error leaves, with the snapshot and the rest of the stack. -/
def raised (e : RunError) (s : State) (p : Snapshot) (rest : List Snapshot) : State :=
  { s.restore p rest with
    msg := .error e (s.restore p rest).faultSite.1 (s.restore p rest).faultSite.2
    dbg := .none
    cstate := .awaitingStep
    signal := .advance }

/-- Everything `raise` can do. -/
theorem raise_cases (e : RunError) (s : State) :
    (s.undo = [] ∧ raise e s = .fault .noSnapshot) ∨
    ∃ p rest, s.undo = p :: rest ∧ raise e s = .next (raised e s p rest) := by
  unfold raise
  cases h : s.undo with
  | nil => exact .inl ⟨rfl, rfl⟩
  | cons p rest => exact .inr ⟨p, rest, rfl, rfl⟩

theorem raise_of_undo {e : RunError} {s : State} {p : Snapshot} {rest : List Snapshot}
    (h : s.undo = p :: rest) : raise e s = .next (raised e s p rest) := by
  unfold raise; rw [h]; rfl

theorem raise_eq_next {e : RunError} {s t : State} (h : raise e s = .next t) :
    ∃ p rest, s.undo = p :: rest ∧ t = raised e s p rest := by
  rcases raise_cases e s with ⟨_, h'⟩ | ⟨p, rest, hu, h'⟩
  · rw [h'] at h; cases h
  · rw [h'] at h; cases h; exact ⟨p, rest, hu, rfl⟩

theorem raise_ne_refused (e : RunError) (s : State) (r : Refusal) : raise e s ≠ .refused r := by
  rcases raise_cases e s with ⟨_, h⟩ | ⟨p, rest, _, h⟩ <;> rw [h] <;> exact fun h => nomatch h

/-- Everything a checked register write can do. -/
theorem writeReg_cases (op : Op) (r : Reg) (v : Int) (s : State) :
    (s.cfg.InReg v ∧
      writeReg op r v s = .next { s with regs := s.regs.set r v, signal := writeSignal r }) ∨
    (¬ s.cfg.InReg v ∧ writeReg op r v s = raise (.registerOverflow r op v) s) := by
  unfold writeReg; split
  · next h => exact .inl ⟨h, rfl⟩
  · next h => exact .inr ⟨h, rfl⟩

/-- Everything a checked access can do. -/
theorem withAddr_cases (a : Int) (s : State) (k : Nat → Out) :
    (s.cfg.InAddr a ∧ withAddr a s k = k a.toNat) ∨
    (¬ s.cfg.InAddr a ∧ withAddr a s k = raise (.memoryAddressOutOfRange a) s) := by
  unfold withAddr; split
  · next h => exact .inl ⟨h, rfl⟩
  · next h => exact .inr ⟨h, rfl⟩

/-- Everything a load can do. -/
theorem loadCell_cases (op : Op) (d : Reg) (a : Int) (s : State) :
    (¬ s.cfg.InAddr a ∧ loadCell op d a s = raise (.memoryAddressOutOfRange a) s) ∨
    (s.cfg.InAddr a ∧ ¬ s.cfg.InReg (s.mem.read a.toNat) ∧
      loadCell op d a s = raise (.registerOverflow d op (s.mem.read a.toNat)) s) ∨
    (s.cfg.InAddr a ∧ s.cfg.InReg (s.mem.read a.toNat) ∧ loadCell op d a s =
      .next { s with regs := s.regs.set d (s.mem.read a.toNat), signal := writeSignal d }) := by
  unfold loadCell
  rcases withAddr_cases a s fun n => writeReg op d (s.mem.read n) s with ⟨ha, h⟩ | ⟨ha, h⟩
  · rcases writeReg_cases op d (s.mem.read a.toNat) s with ⟨hr, h'⟩ | ⟨hr, h'⟩
    · exact .inr (.inr ⟨ha, hr, h.trans h'⟩)
    · exact .inr (.inl ⟨ha, hr, h.trans h'⟩)
  · exact .inl ⟨ha, h⟩

/-- Everything a store can do. -/
theorem storeCell_cases (a v : Int) (s : State) :
    (¬ s.cfg.InAddr a ∧ storeCell a v s = raise (.memoryAddressOutOfRange a) s) ∨
    (s.cfg.InAddr a ∧
      storeCell a v s = .next { s with mem := s.mem.write a.toNat v, signal := .advance }) := by
  unfold storeCell
  rcases withAddr_cases a s fun n => .next { s with mem := s.mem.write n v, signal := .advance } with
    ⟨ha, h⟩ | ⟨ha, h⟩
  · exact .inr ⟨ha, h⟩
  · exact .inl ⟨ha, h⟩

/-- Everything a compute operation can do. -/
theorem compute_cases (op : Op) (f : AluFn) (d : Reg) (o : Operand) (s : State) :
    (∃ n, o = .mem n ∧ operandValue o s = none ∧ ¬ s.cfg.InAddr n ∧
      compute op f d o s = raise (.memoryAddressOutOfRange n) s) ∨
    (∃ b, operandValue o s = some b ∧ f.divides = true ∧ b = 0 ∧
      compute op f d o s = raise (.divisionByZero d op) s) ∨
    (∃ b, operandValue o s = some b ∧ ¬ (f.divides = true ∧ b = 0) ∧
      ¬ s.cfg.InReg (f.eval (s.regs.get d) b) ∧
      compute op f d o s = raise (.registerOverflow d op (f.eval (s.regs.get d) b)) s) ∨
    (∃ b, operandValue o s = some b ∧ ¬ (f.divides = true ∧ b = 0) ∧
      s.cfg.InReg (f.eval (s.regs.get d) b) ∧
      compute op f d o s =
        .next { s with regs := s.regs.set d (f.eval (s.regs.get d) b), signal := writeSignal d }) := by
  have key : ∀ b, operandValue o s = some b → compute op f d o s =
      if f.divides = true ∧ b = 0 then raise (.divisionByZero d op) s
      else writeReg op d (f.eval (s.regs.get d) b) s := by
    intro b hb
    cases o with
    | mem n =>
      simp only [operandValue] at hb
      split at hb
      · next ha => cases hb; simp only [compute, withOperand, withAddr, if_pos ha]
      · cases hb
    | imm n => cases hb; rfl
    | reg r => cases hb; rfl
  cases hb : operandValue o s with
  | none =>
    cases o with
    | mem n =>
      simp only [operandValue] at hb
      split at hb
      · cases hb
      · next ha => exact .inl ⟨n, rfl, rfl, ha, by simp only [compute, withOperand, withAddr, if_neg ha]⟩
    | imm n => cases hb
    | reg r => cases hb
  | some b =>
    refine .inr ?_
    rw [key b hb]
    by_cases hz : f.divides = true ∧ b = 0
    · exact .inl ⟨b, rfl, hz.1, hz.2, if_pos hz⟩
    · rw [if_neg hz]
      rcases writeReg_cases op d (f.eval (s.regs.get d) b) s with ⟨hr, h'⟩ | ⟨hr, h'⟩
      · exact .inr (.inr ⟨b, rfl, hz, hr, h'⟩)
      · exact .inr (.inl ⟨b, rfl, hz, hr, h'⟩)

/-- Everything a taken jump can do. -/
theorem doJump_cases (i : Int) (s : State) :
    (s.regs.pc + i < 0 ∧ doJump i s = raise (.negativePC (s.regs.pc + i)) s) ∨
    (0 ≤ s.regs.pc + i ∧ s.progLen < s.regs.pc + i ∧
      doJump i s = raise (.pcOverflow (s.regs.pc + i)) s) ∨
    (0 ≤ s.regs.pc + i ∧ s.regs.pc + i ≤ s.progLen ∧ doJump i s =
      .next { s with
        regs := s.regs.set .pc (s.regs.pc + i)
        signal := .jumped
        dbg := .jumpTaken s.regs.pc (s.regs.pc + i) }) := by
  by_cases h0 : s.regs.pc + i < 0
  · exact .inl ⟨h0, by simp [doJump, h0]⟩
  · by_cases h1 : s.progLen < s.regs.pc + i
    · exact .inr (.inl ⟨by omega, h1, by simp [doJump, h0, h1]⟩)
    · exact .inr (.inr ⟨by omega, by omega, by simp [doJump, h0, h1]⟩)

/-- Everything a conditional jump can do. -/
theorem condJump_cases (op : Op) (c : Cond) (i : Int) (s : State) :
    (c.holds s.regs.acc = true ∧ condJump op c i s = doJump i s) ∨
    (c.holds s.regs.acc = false ∧
      condJump op c i s = .next { s with signal := .advance, dbg := .jumpDenied op s.regs.acc }) := by
  unfold condJump
  cases h : c.holds s.regs.acc
  · exact .inr ⟨rfl, by simp⟩
  · exact .inl ⟨rfl, by simp⟩

end Sys2Proof.Machine
end

