-- ==== Sys2Proof/Laws/Exec.lean ====
section
/-! SUPPORT. Everything one instruction can do, said once: `exec_cases`. -/

namespace Sys2Proof.Machine

/-- The instruction fails with some error. -/
def Fails (i : Instr) (s : State) : Prop := ∃ e, exec i s = raise e s

/-- The instruction writes a legal value to its destination register. -/
def WritesReg (i : Instr) (s : State) : Prop :=
  ∃ d v, i.dest? = some d ∧ storeAddr i s = none ∧ takesJump i s = false ∧ condOf i = none ∧
    s.cfg.InReg v ∧ exec i s = .next { s with regs := s.regs.set d v, signal := writeSignal d }

/-- The instruction writes a register's value to a legal address. -/
def WritesMem (i : Instr) (s : State) : Prop :=
  ∃ a r, i.dest? = none ∧ storeAddr i s = some a ∧ takesJump i s = false ∧ condOf i = none ∧
    s.cfg.InAddr a ∧
    exec i s = .next { s with mem := s.mem.write a.toNat (s.regs.get r), signal := .advance }

/-- The instruction is a jump that is taken, with its target in `[0, N]`. -/
def Jumps (i : Instr) (s : State) : Prop :=
  ∃ n, i.imm? = some n ∧ i.dest? = none ∧ storeAddr i s = none ∧ takesJump i s = true ∧
    0 ≤ s.regs.pc + n ∧ s.regs.pc + n ≤ s.progLen ∧
    exec i s = .next { s with
      regs := s.regs.set .pc (s.regs.pc + n)
      signal := .jumped
      dbg := .jumpTaken s.regs.pc (s.regs.pc + n) }

/-- The instruction is a conditional jump that is denied. -/
def Denied (i : Instr) (s : State) : Prop :=
  i.dest? = none ∧ storeAddr i s = none ∧ takesJump i s = false ∧ condOf i ≠ none ∧
    exec i s = .next { s with signal := .advance, dbg := .jumpDenied i.op s.regs.acc }

theorem cases_load {i : Instr} {s : State} {op : Op} {d : Reg} {a : Int}
    (h : exec i s = loadCell op d a s) (hd : i.dest? = some d) (hs : storeAddr i s = none)
    (hj : takesJump i s = false) (hc : condOf i = none) : Fails i s ∨ WritesReg i s := by
  rcases loadCell_cases op d a s with ⟨_, h'⟩ | ⟨_, _, h'⟩ | ⟨_, hr, h'⟩
  · exact .inl ⟨_, h.trans h'⟩
  · exact .inl ⟨_, h.trans h'⟩
  · exact .inr ⟨d, _, hd, hs, hj, hc, hr, h.trans h'⟩

theorem cases_write {i : Instr} {s : State} {op : Op} {d : Reg} {v : Int}
    (h : exec i s = writeReg op d v s) (hd : i.dest? = some d) (hs : storeAddr i s = none)
    (hj : takesJump i s = false) (hc : condOf i = none) : Fails i s ∨ WritesReg i s := by
  rcases writeReg_cases op d v s with ⟨hr, h'⟩ | ⟨_, h'⟩
  · exact .inr ⟨d, _, hd, hs, hj, hc, hr, h.trans h'⟩
  · exact .inl ⟨_, h.trans h'⟩

/-- The compute instructions are the common template on their parts. -/
theorem exec_computeParts {i : Instr} {f : AluFn} {d : Reg} {o : Operand}
    (h : computeParts i = some (f, d, o)) (s : State) : exec i s = compute i.op f d o s := by
  cases i <;> cases h <;> rfl

/-- Address, destination and jump parts of a compute instruction. -/
theorem parts_of_compute {i : Instr} {f : AluFn} {d : Reg} {o : Operand}
    (h : computeParts i = some (f, d, o)) (s : State) :
    i.dest? = some d ∧ storeAddr i s = none ∧ takesJump i s = false ∧ condOf i = none := by
  cases i <;> cases h <;> exact ⟨rfl, rfl, rfl, rfl⟩

theorem cases_compute {i : Instr} {s : State} {f : AluFn} {d : Reg} {o : Operand}
    (hp : computeParts i = some (f, d, o)) : Fails i s ∨ WritesReg i s := by
  have h := exec_computeParts hp s
  obtain ⟨hd, hs, hj, hc⟩ := parts_of_compute hp s
  rcases compute_cases i.op f d o s with ⟨_, _, _, _, h'⟩ | ⟨_, _, _, _, h'⟩ | ⟨_, _, _, _, h'⟩ |
    ⟨_, _, _, hr, h'⟩
  · exact .inl ⟨_, h.trans h'⟩
  · exact .inl ⟨_, h.trans h'⟩
  · exact .inl ⟨_, h.trans h'⟩
  · exact .inr ⟨d, _, hd, hs, hj, hc, hr, h.trans h'⟩

theorem cases_store {i : Instr} {s : State} {a : Int} {r : Reg}
    (h : exec i s = storeCell a (s.regs.get r) s) (hd : i.dest? = none) (hs : storeAddr i s = some a)
    (hj : takesJump i s = false) (hc : condOf i = none) : Fails i s ∨ WritesMem i s := by
  rcases storeCell_cases a (s.regs.get r) s with ⟨_, h'⟩ | ⟨ha, h'⟩
  · exact .inl ⟨_, h.trans h'⟩
  · exact .inr ⟨a, r, hd, hs, hj, hc, ha, h.trans h'⟩

theorem cases_jump {i : Instr} {s : State} {n : Int} (h : exec i s = doJump n s)
    (hn : i.imm? = some n) (hd : i.dest? = none) (hs : storeAddr i s = none)
    (hj : takesJump i s = true) : Fails i s ∨ Jumps i s := by
  rcases doJump_cases n s with ⟨_, h'⟩ | ⟨_, _, h'⟩ | ⟨h0, h1, h'⟩
  · exact .inl ⟨_, h.trans h'⟩
  · exact .inl ⟨_, h.trans h'⟩
  · exact .inr ⟨n, hn, hd, hs, hj, h0, h1, h.trans h'⟩

theorem cases_condJump {i : Instr} {s : State} {c : Cond} {n : Int}
    (h : exec i s = condJump i.op c n s) (hn : i.imm? = some n) (hd : i.dest? = none)
    (hs : storeAddr i s = none) (hc : condOf i = some c)
    (hj : takesJump i s = c.holds s.regs.acc) : Fails i s ∨ Jumps i s ∨ Denied i s := by
  rcases condJump_cases i.op c n s with ⟨ht, h'⟩ | ⟨ht, h'⟩
  · rcases cases_jump (h.trans h') hn hd hs (hj.trans ht) with h | h
    · exact .inl h
    · exact .inr (.inl h)
  · exact .inr (.inr ⟨hd, hs, hj.trans ht, by simp [hc], h.trans h'⟩)

/-- Everything `exec` can do: the instruction fails; or it writes its destination register, or one
cell, or PC as a taken jump, or nothing but the signal and the denied jump's message. -/
theorem exec_cases (i : Instr) (s : State) :
    Fails i s ∨ WritesReg i s ∨ WritesMem i s ∨ Jumps i s ∨ Denied i s ∨
      (i = .nop ∧ exec i s = .next { s with signal := .advance }) := by
  have reg : Fails i s ∨ WritesReg i s → Fails i s ∨ WritesReg i s ∨ WritesMem i s ∨ Jumps i s ∨
      Denied i s ∨ (i = .nop ∧ exec i s = .next { s with signal := .advance }) := by tauto
  have mem : Fails i s ∨ WritesMem i s → Fails i s ∨ WritesReg i s ∨ WritesMem i s ∨ Jumps i s ∨
      Denied i s ∨ (i = .nop ∧ exec i s = .next { s with signal := .advance }) := by tauto
  have jmp : Fails i s ∨ Jumps i s ∨ Denied i s → Fails i s ∨ WritesReg i s ∨ WritesMem i s ∨
      Jumps i s ∨ Denied i s ∨ (i = .nop ∧ exec i s = .next { s with signal := .advance }) := by tauto
  cases i with
  | load | loadin1 | loadin2 | loadin => exact reg (cases_load rfl rfl rfl rfl rfl)
  | loadi | move => exact reg (cases_write rfl rfl rfl rfl rfl)
  | storea => exact mem (cases_store (r := .acc) rfl rfl rfl rfl rfl)
  | storein1a => exact mem (cases_store (r := .acc) rfl rfl rfl rfl rfl)
  | storein2a => exact mem (cases_store (r := .acc) rfl rfl rfl rfl rfl)
  | store src _ => exact mem (cases_store (r := src) rfl rfl rfl rfl rfl)
  | storein _ src _ => exact mem (cases_store (r := src) rfl rfl rfl rfl rfl)
  | add | addi | addr | sub | subi | subr | mult | multi | multr | div | divi | divr | mod | modi
  | modr | oplus | oplusi | oplusr | and | andi | andr | or | ori | orr =>
    exact reg (cases_compute rfl)
  | jump => exact jmp ((cases_jump rfl rfl rfl rfl rfl).imp id .inl)
  | jumpeq | jumpne | jumple | jumpge | jumplt | jumpgt =>
    exact jmp (cases_condJump rfl rfl rfl rfl rfl rfl)
  | nop => exact .inr (.inr (.inr (.inr (.inr ⟨rfl, rfl⟩))))

/-- No instruction is refused. -/
theorem exec_ne_refused (i : Instr) (s : State) (r : Refusal) : exec i s ≠ .refused r := by
  rcases exec_cases i s with ⟨e, h⟩ | ⟨_, _, _, _, _, _, _, h⟩ | ⟨_, _, _, _, _, _, _, h⟩ |
    ⟨_, _, _, _, _, _, _, h⟩ | ⟨_, _, _, _, h⟩ | ⟨_, h⟩
  · rw [h]; exact raise_ne_refused e s r
  all_goals rw [h]; exact fun h => nomatch h

end Sys2Proof.Machine
end

