-- ==== Sys2Proof/Laws/Controller.lean ====
section
/-! SUPPORT. The controller's shared operations: for each one lemma that says once everything it can
do; and `exec` read from its outcome. -/

namespace Sys2Proof.Machine

/-- Everything an instruction that answers a next state has done: `exec_cases`, with the next state
written out. -/
theorem exec_eq_next {i : Instr} {s t : State} (h : exec i s = .next t) :
    (∃ e p rest, exec i s = raise e s ∧ s.undo = p :: rest ∧ t = raised e s p rest) ∨
    (∃ d v, i.dest? = some d ∧ storeAddr i s = none ∧ takesJump i s = false ∧ condOf i = none ∧
      s.cfg.InReg v ∧ t = { s with regs := s.regs.set d v, signal := writeSignal d }) ∨
    (∃ a r, i.dest? = none ∧ storeAddr i s = some a ∧ takesJump i s = false ∧ condOf i = none ∧
      s.cfg.InAddr a ∧ t = { s with mem := s.mem.write a.toNat (s.regs.get r), signal := .advance }) ∨
    (∃ n, i.imm? = some n ∧ i.dest? = none ∧ storeAddr i s = none ∧ takesJump i s = true ∧
      0 ≤ s.regs.pc + n ∧ s.regs.pc + n ≤ s.progLen ∧
      t = { s with
        regs := s.regs.set .pc (s.regs.pc + n)
        signal := .jumped
        dbg := .jumpTaken s.regs.pc (s.regs.pc + n) }) ∨
    (i.dest? = none ∧ storeAddr i s = none ∧ takesJump i s = false ∧ condOf i ≠ none ∧
      t = { s with signal := .advance, dbg := .jumpDenied i.op s.regs.acc }) ∨
    (i = .nop ∧ t = { s with signal := .advance }) := by
  rcases exec_cases i s with ⟨e, h'⟩ | ⟨d, v, h1, h2, h3, h4, h5, h'⟩ |
    ⟨a, r, h1, h2, h3, h4, h5, h'⟩ | ⟨n, h1, h2, h3, h4, h5, h6, h'⟩ | ⟨h1, h2, h3, h4, h'⟩ | ⟨h1, h'⟩
  · obtain ⟨p, rest, hu, ht⟩ := raise_eq_next (h'.symm.trans h)
    exact .inl ⟨e, p, rest, h', hu, ht⟩
  all_goals rw [h'] at h; cases h
  · exact .inr (.inl ⟨d, v, h1, h2, h3, h4, h5, rfl⟩)
  · exact .inr (.inr (.inl ⟨a, r, h1, h2, h3, h4, h5, rfl⟩))
  · exact .inr (.inr (.inr (.inl ⟨n, h1, h2, h3, h4, h5, h6, rfl⟩)))
  · exact .inr (.inr (.inr (.inr (.inl ⟨h1, h2, h3, h4, rfl⟩))))
  · exact .inr (.inr (.inr (.inr (.inr ⟨h1, rfl⟩))))

/-- Everything the end of a successful instruction's Step can do. -/
theorem finishStep_cases (rec : Record) (s : State) :
    (s.autoAdvance.regs.pc < 0 ∧
      finishStep rec s = raise (.negativePC s.autoAdvance.regs.pc) s.autoAdvance) ∨
    (0 ≤ s.autoAdvance.regs.pc ∧ isSentinel rec.instr = true ∧ finishStep rec s =
      .next { s.autoAdvance with
        cstate := .terminated, msg := .terminateSentinel rec.line, signal := .advance }) ∨
    (0 ≤ s.autoAdvance.regs.pc ∧ isSentinel rec.instr = false ∧ s.progLen ≤ s.autoAdvance.regs.pc ∧
      finishStep rec s =
        .next { s.autoAdvance with cstate := .terminated, msg := .endOfProgram, signal := .advance }) ∨
    (0 ≤ s.autoAdvance.regs.pc ∧ isSentinel rec.instr = false ∧ s.autoAdvance.regs.pc < s.progLen ∧
      finishStep rec s = .next { s.autoAdvance with
        cstate := .awaitingStep, msg := .stepOk rec.line rec.text, signal := .advance }) := by
  unfold finishStep
  by_cases h0 : s.autoAdvance.regs.pc < 0
  · exact .inl ⟨h0, by simp [h0]⟩
  · by_cases h1 : isSentinel rec.instr = true
    · exact .inr (.inl ⟨by omega, h1, by simp [h0, h1]⟩)
    · by_cases h2 : s.progLen ≤ s.autoAdvance.regs.pc
      · exact .inr (.inr (.inl ⟨by omega, by simpa using h1, h2, by simp [h0, h1, h2]⟩))
      · exact .inr (.inr (.inr ⟨by omega, by simpa using h1, by omega, by simp [h0, h1, h2]⟩))

/-- Everything a Step request can do. -/
theorem serveStep_cases (s : State) :
    (s.prog = [] ∧ serveStep s = .refused .noProgram) ∨
    (s.prog ≠ [] ∧ s.shutdown = true ∧ serveStep s = .refused .shutDown) ∨
    (s.prog ≠ [] ∧ s.shutdown = false ∧ s.cstate = .terminated ∧
      serveStep s = .next { s with msg := .alreadyTerminated, dbg := .none }) ∨
    (s.prog ≠ [] ∧ s.shutdown = false ∧ s.cstate = .running ∧
      serveStep s = .refused .requestInProgress) ∨
    (s.prog ≠ [] ∧ s.shutdown = false ∧ s.cstate = .awaitingStep ∧ s.fetch = none ∧
      serveStep s = .next s.internalFault) ∨
    (s.prog ≠ [] ∧ s.shutdown = false ∧ s.cstate = .awaitingStep ∧
      ∃ rec, s.fetch = some rec ∧ serveStep s = runRecord rec s.beginStep) := by
  unfold serveStep
  by_cases h1 : s.prog = []
  · simp [h1]
  · by_cases h2 : s.shutdown = true
    · simp [h1, h2]
    · cases h3 : s.cstate <;> simp [h1, h2]
      cases h4 : s.fetch <;> simp

/-- A Step whose fetch succeeds runs the record. -/
theorem serveStep_of_fetch {s : State} {rec : Record} (h2 : s.shutdown = false)
    (h3 : s.cstate = .awaitingStep) (h4 : s.fetch = some rec) :
    serveStep s = runRecord rec s.beginStep := by
  have := (State.fetch_eq_some h4).2.2.1
  simp [serveStep, this, h2, h3, h4]

/-- Everything an Undo request can do. -/
theorem serveUndo_cases (s : State) :
    (∃ r, serveUndo s = .refused r) ∨
    (s.prog ≠ [] ∧ s.shutdown = false ∧ s.cstate ≠ .running ∧ s.undo = [] ∧
      serveUndo s = .next { s with msg := .nothingToUndo, dbg := .none }) ∨
    (s.prog ≠ [] ∧ s.shutdown = false ∧ s.cstate ≠ .running ∧ ∃ p rest, s.undo = p :: rest ∧
      serveUndo s =
        .next { s.restore p rest with cstate := .awaitingStep, msg := .undone, dbg := .none }) := by
  unfold serveUndo
  by_cases h1 : s.prog = []
  · simp [h1]
  · by_cases h2 : s.shutdown = true
    · simp [h1, h2]
    · by_cases h3 : s.cstate = .running
      · simp [h1, h2, h3]
      · cases h4 : s.undo <;> simp [h1, h2, h3]

/-- Everything the serving of the next request can do: a Step if none is listed; else the oldest listed,
with its outcome, or spent with the answer recorded if it is refused. -/
theorem serveNext_cases (s : State) :
    (s.requests = [] ∧ serveNext s = serveStep s) ∨
    ∃ r rest, s.requests = r :: rest ∧
      (((∀ why, serve r { s with requests := rest } ≠ .refused why) ∧
          serveNext s = serve r { s with requests := rest }) ∨
        ∃ why, serve r { s with requests := rest } = .refused why ∧
          serveNext s = .next { s with requests := rest, refusal := some why }) := by
  cases hq : s.requests with
  | nil => exact .inl ⟨rfl, by simp only [serveNext, hq]⟩
  | cons r rest =>
    refine .inr ⟨r, rest, rfl, ?_⟩
    cases ho : serve r { s with requests := rest } with
    | next t => exact .inl ⟨nofun, by simp only [serveNext, hq, ho]⟩
    | fault f => exact .inl ⟨nofun, by simp only [serveNext, hq, ho]⟩
    | refused why => exact .inr ⟨why, rfl, by simp only [serveNext, hq, ho]⟩

/-- A Load request always answers a next state that keeps the requests still to come. -/
theorem serveLoad_next (inp : LoadInput) (s : State) :
    ∃ t, serveLoad inp s = .next t ∧ t.requests = s.requests := by
  unfold serveLoad
  cases load inp <;> exact ⟨_, rfl, rfl⟩

/-- Everything a Load can have done when it succeeds. -/
theorem load_eq_ok {inp : LoadInput} {s : State} (h : load inp = .ok s) :
    ∃ p m, checkConfig inp.cfg = none ∧ regInitOk inp.cfg inp.regInit = true ∧
      readProgram inp.cfg inp.source = .ok p ∧ (p.length : Int) ≤ inp.cfg.regMax ∧
      readInitMem inp.cfg inp.initMem = .ok m ∧
      s = { State.reset with cfg := inp.cfg, regs := initRegs inp.regInit, mem := m, prog := p } := by
  unfold load at h
  split at h
  · cases h
  · next h1 =>
    split at h
    · cases h
    · next h2 =>
      split at h
      · cases h
      · next p hp =>
        split at h
        · cases h
        · next h3 =>
          split at h
          · cases h
          · next m hm =>
            cases h
            exact ⟨p, m, h1, by simpa using h2, hp, by omega, hm, rfl⟩

end Sys2Proof.Machine
end

