-- ==== Sys2Proof/Laws/Memory.lean ====
section
/-! SUPPORT. The laws of the data memory: read after write, and every operation keeps the canonical
form. -/

namespace Sys2Proof.Machine

/-- Everything a write does: the cell written is assigned the value, every other cell is as before. -/
theorem Memory.find_write (m : Memory) (a b : Nat) (v : Int) :
    (m.write a v).find b = if b = a then some v else m.find b := by
  induction m with
  | nil => simp [Memory.write, Memory.find, eq_comm]
  | cons p m ih =>
    obtain ⟨k, w⟩ := p
    unfold Memory.write
    split
    · simp [Memory.find, eq_comm]
    · split
      · next _ h => subst h; simp only [Memory.find]; split <;> simp_all [eq_comm]
      · next h1 h2 =>
        simp only [Memory.find, ih]
        split
        · next h => subst h; simp [Ne.symm h2]
        · rfl

theorem Memory.read_write (m : Memory) (a b : Nat) (v : Int) :
    (m.write a v).read b = if b = a then v else m.read b := by
  unfold Memory.read; rw [Memory.find_write]; split <;> simp

@[simp] theorem Memory.read_write_self (m : Memory) (a : Nat) (v : Int) : (m.write a v).read a = v := by
  simp [Memory.read_write]

@[simp] theorem Memory.find_write_self (m : Memory) (a : Nat) (v : Int) :
    (m.write a v).find a = some v := by simp [Memory.find_write]

theorem Memory.read_of_find_none {m : Memory} {a : Nat} (h : m.find a = none) : m.read a = 0 := by
  simp [Memory.read, h]

/-- The cells of a memory after a write are the one written and cells there were before. -/
theorem Memory.mem_write {m : Memory} {a : Nat} {v : Int} {p : Nat × Int} (h : p ∈ m.write a v) :
    p = (a, v) ∨ p ∈ m := by
  induction m with
  | nil => simpa [Memory.write] using h
  | cons q m ih =>
    obtain ⟨k, w⟩ := q
    unfold Memory.write at h
    split at h
    · simpa using h
    · split at h
      · simp only [List.mem_cons] at h ⊢; tauto
      · simp only [List.mem_cons] at h ⊢
        rcases h with h | h
        · exact .inr (.inl h)
        · rcases ih h with h | h <;> tauto

/-- The canonical form, by the head: every later address is larger. -/
theorem Memory.wf_cons (a : Nat) (v : Int) (m : Memory) :
    Memory.wf ((a, v) :: m) = true ↔ (∀ p ∈ m, a < p.1) ∧ m.wf = true := by
  induction m generalizing a v with
  | nil => simp [Memory.wf]
  | cons q m ih =>
    obtain ⟨b, w⟩ := q
    simp only [Memory.wf, Bool.and_eq_true, decide_eq_true_eq, List.mem_cons, forall_eq_or_imp]
    constructor
    · rintro ⟨hab, h⟩
      have := ((ih b w).mp h).1
      exact ⟨⟨hab, fun p hp => lt_trans hab (this p hp)⟩, h⟩
    · rintro ⟨⟨hab, -⟩, h⟩
      exact ⟨hab, h⟩

/-- A write keeps the canonical form. -/
theorem Memory.write_wf {m : Memory} (h : m.wf = true) (a : Nat) (v : Int) : (m.write a v).wf = true := by
  induction m with
  | nil => rfl
  | cons q m ih =>
    obtain ⟨k, w⟩ := q
    have hk := (Memory.wf_cons k w m).mp h
    unfold Memory.write
    split
    · next hlt =>
      refine (Memory.wf_cons _ _ _).mpr ⟨?_, h⟩
      simp only [List.mem_cons, forall_eq_or_imp]
      exact ⟨hlt, fun p hp => lt_trans hlt (hk.1 p hp)⟩
    · split
      · next _ he => subst he; exact (Memory.wf_cons _ _ _).mpr hk
      · next h1 h2 =>
        refine (Memory.wf_cons _ _ _).mpr ⟨fun p hp => ?_, ih hk.2⟩
        rcases Memory.mem_write hp with rfl | hp
        · simp only; omega
        · exact hk.1 p hp

/-- The cells a memory in canonical form lists are the cells it finds. -/
theorem Memory.find_eq_some_iff {m : Memory} (h : m.wf = true) (a : Nat) (v : Int) :
    m.find a = some v ↔ (a, v) ∈ m := by
  induction m with
  | nil => simp [Memory.find]
  | cons q m ih =>
    obtain ⟨k, w⟩ := q
    have hk := (Memory.wf_cons k w m).mp h
    simp only [Memory.find, List.mem_cons, Prod.mk.injEq]
    split
    · next he =>
      subst he
      constructor
      · intro h; simp_all
      · rintro (⟨-, rfl⟩ | hm)
        · rfl
        · exact absurd (hk.1 _ hm) (lt_irrefl _)
    · next hne => rw [ih hk.2]; constructor
                  · exact .inr
                  · rintro (⟨rfl, -⟩ | hm)
                    · exact absurd rfl hne
                    · exact hm

/-- The memory of the reset state is in canonical form. -/
theorem reset_mem_wf : State.reset.mem.wf = true := rfl

/-- The memory Load builds is in canonical form. -/
theorem readEntries_wf {c : Config} {kvs : List (HostScalar × HostScalar)} {m m' : Memory}
    (hm : m.wf = true) (h : readEntries c m kvs = .ok m') : m'.wf = true := by
  induction kvs generalizing m with
  | nil => cases h; exact hm
  | cons kv kvs ih =>
    obtain ⟨k, v⟩ := kv
    unfold readEntries at h
    split at h
    · cases h
    · split at h
      · cases h
      · split at h
        · cases h
        · split at h
          · cases h
          · exact ih (Memory.write_wf hm _ _) h

theorem readInitMem_wf {c : Config} {im : InitMem} {m : Memory} (h : readInitMem c im = .ok m) :
    m.wf = true := by
  cases im with
  | absent => cases h; rfl
  | notAMap t => cases h
  | entries kvs => exact readEntries_wf (m := []) rfl h

end Sys2Proof.Machine
end

