-- ==== Sys2Proof/Laws/Invariant.lean ====
section
/-! SUPPORT. The parts of the invariant as propositions, and what the shared operations do to them. -/

namespace Sys2Proof.Machine

theorem signedBound_pos (w : Nat) : 0 < signedBound w := by
  unfold signedBound; exact_mod_cast Nat.pow_pos (by norm_num)

theorem signedBound_mono {a b : Nat} (h : a ≤ b) : signedBound a ≤ signedBound b := by
  unfold signedBound; exact_mod_cast Nat.pow_le_pow_right (by norm_num) (by omega)

/-- With legal widths every immediate is a register value. -/
theorem inReg_of_inImm {c : Config} (hw : c.WidthsOk) {n : Int} (h : c.InImm n) : c.InReg n := by
  have := signedBound_mono (a := c.immWidth) (b := c.regWidth) (by have := hw.2.1; omega)
  simp only [Config.InImm, Config.InReg, Config.immMin, Config.immMax, Config.regMin,
    Config.regMax] at *
  omega

/-- With legal widths every register value is a cell value. -/
theorem inCell_of_inReg {c : Config} (hw : c.WidthsOk) {v : Int} (h : c.InReg v) : c.InCell v := by
  have := signedBound_mono (a := c.regWidth) (b := c.cellWidth) hw.2.2.1
  simp only [Config.InCell, Config.InReg, Config.cellMin, Config.cellMax, Config.regMin,
    Config.regMax] at *
  omega

theorem regsOk_iff (c : Config) (f : RegFile) : regsOk c f = true ↔
    ∀ r, c.InReg (f.get r) ∧ (r.inVariant c.variant = true ∨ f.get r = 0) := by
  unfold regsOk
  rw [List.all_eq_true]
  constructor
  · intro h r
    have := h r (by cases r <;> simp [Reg.all])
    simpa using this
  · intro h r _
    simpa using h r

theorem regsOk_set {c : Config} {f : RegFile} (h : regsOk c f = true) {r : Reg} {v : Int}
    (hr : r.inVariant c.variant = true) (hv : c.InReg v) : regsOk c (f.set r v) = true := by
  rw [regsOk_iff] at *
  intro q
  rw [RegFile.get_set]
  split
  · next h => subst h; exact ⟨hv, .inl hr⟩
  · exact h q

theorem memOk_iff (c : Config) (m : Memory) :
    memOk c m = true ↔ m.wf = true ∧ ∀ p ∈ m, c.InAddr p.1 ∧ c.InCell p.2 := by
  unfold memOk
  rw [Bool.and_eq_true, List.all_eq_true]
  simp only [Bool.and_eq_true, decide_eq_true_eq]

theorem memOk_write {c : Config} {m : Memory} (h : memOk c m = true) {a : Nat} {v : Int}
    (ha : c.InAddr a) (hv : c.InCell v) : memOk c (m.write a v) = true := by
  rw [memOk_iff] at *
  refine ⟨Memory.write_wf h.1 a v, fun p hp => ?_⟩
  rcases Memory.mem_write hp with rfl | hp
  · exact ⟨ha, hv⟩
  · exact h.2 p hp

theorem State.loadedOk_iff (s : State) : s.loadedOk = true ↔
    checkConfig s.cfg = none ∧ s.progLen ≤ s.cfg.regMax ∧
    (∀ rec ∈ s.prog, rec.instr.fits s.cfg = true) ∧ regsOk s.cfg s.regs = true ∧
    memOk s.cfg s.mem = true ∧ (∀ p ∈ s.undo, snapshotOk s.cfg s.prog.length p = true) ∧
    (match s.cstate with
      | .awaitingStep => pcInside s.prog.length s.regs = true
      | .terminated => terminatedOk s = true
      | .running => False) := by
  unfold State.loadedOk
  cases s.cstate <;> simp [and_assoc]

theorem State.inv_iff (s : State) : s.inv = true ↔
    s.signal = .advance ∧ ((s.prog = [] ∧ s.undo = [] ∧ s.cstate = .awaitingStep) ∨
      (s.prog ≠ [] ∧ s.loadedOk = true)) := by
  unfold State.inv
  by_cases h : s.prog = [] <;> simp [h]

/-- An accepted configuration has legal widths. -/
theorem checkConfig_widths {c : Config} (h : checkConfig c = none) : c.WidthsOk := by
  unfold checkConfig at h
  split at h
  · cases h
  · next h' => exact Decidable.not_not.mp h'

/-- The destination of an instruction that fits is a register of the variant. -/
theorem fits_dest {c : Config} {i : Instr} (h : i.fits c = true) {d : Reg}
    (hd : i.dest? = some d) : d.inVariant c.variant = true := by
  cases i <;> simp only [Instr.dest?, Option.some.injEq, reduceCtorEq] at hd <;> subst hd <;>
    simp [Instr.fits, Instr.regsExist, Instr.regs] at h <;> simp [h]

/-- A row that reverses its registers gives the same ones. -/
@[simp] theorem mem_rowRegs {row : OpRow} {as : List ArgVal} {r : Reg} :
    r ∈ rowRegs row as ↔ r ∈ argRegs as := by
  unfold rowRegs; split <;> simp

@[simp] theorem rowRegs_length (row : OpRow) (as : List ArgVal) :
    (rowRegs row as).length = (argRegs as).length := by
  unfold rowRegs; split <;> simp

/-- Operation, immediate and registers of an instruction built from fields. -/
theorem build_fields (o : Op) (ra rb : Reg) (n : Int) :
    (o.build ra rb n).op = o ∧ (o.build ra rb n).imm? = (if o.hasImm then some n else none) ∧
    (o.build ra rb n).regs = [ra, rb].take o.regArgs := by
  cases o <;> exact ⟨rfl, rfl, rfl⟩

end Sys2Proof.Machine
end

