-- ==== Sys2Proof/Laws/PerInstr.lean ====
section
/-! SUPPORT. Statements for all instructions, made per instruction. -/

/-- An instruction is rebuilt from its operation and the fields of its word. -/
def Sys2Proof.Laws.Rebuild.Statement (i : Sys2Proof.Instr) : Prop :=
  i.op.build i.ra i.rb i.imm = i

namespace Sys2Proof.Laws.Rebuild

theorem load (d : Reg) (i : Int) : Statement (.load d i) := rfl
theorem loadin1 (d : Reg) (i : Int) : Statement (.loadin1 d i) := rfl
theorem loadin2 (d : Reg) (i : Int) : Statement (.loadin2 d i) := rfl
theorem loadin (b d : Reg) (i : Int) : Statement (.loadin b d i) := rfl
theorem loadi (d : Reg) (i : Int) : Statement (.loadi d i) := rfl
theorem storea (i : Int) : Statement (.storea i) := rfl
theorem storein1a (i : Int) : Statement (.storein1a i) := rfl
theorem storein2a (i : Int) : Statement (.storein2a i) := rfl
theorem store (src : Reg) (i : Int) : Statement (.store src i) := rfl
theorem storein (b src : Reg) (i : Int) : Statement (.storein b src i) := rfl
theorem move (src d : Reg) : Statement (.move src d) := rfl
theorem add (d : Reg) (i : Int) : Statement (.add d i) := rfl
theorem addi (d : Reg) (i : Int) : Statement (.addi d i) := rfl
theorem addr (d src : Reg) : Statement (.addr d src) := rfl
theorem sub (d : Reg) (i : Int) : Statement (.sub d i) := rfl
theorem subi (d : Reg) (i : Int) : Statement (.subi d i) := rfl
theorem subr (d src : Reg) : Statement (.subr d src) := rfl
theorem mult (d : Reg) (i : Int) : Statement (.mult d i) := rfl
theorem multi (d : Reg) (i : Int) : Statement (.multi d i) := rfl
theorem multr (d src : Reg) : Statement (.multr d src) := rfl
theorem div (d : Reg) (i : Int) : Statement (.div d i) := rfl
theorem divi (d : Reg) (i : Int) : Statement (.divi d i) := rfl
theorem divr (d src : Reg) : Statement (.divr d src) := rfl
theorem mod (d : Reg) (i : Int) : Statement (.mod d i) := rfl
theorem modi (d : Reg) (i : Int) : Statement (.modi d i) := rfl
theorem modr (d src : Reg) : Statement (.modr d src) := rfl
theorem oplus (d : Reg) (i : Int) : Statement (.oplus d i) := rfl
theorem oplusi (d : Reg) (i : Int) : Statement (.oplusi d i) := rfl
theorem oplusr (d src : Reg) : Statement (.oplusr d src) := rfl
theorem and (d : Reg) (i : Int) : Statement (.and d i) := rfl
theorem andi (d : Reg) (i : Int) : Statement (.andi d i) := rfl
theorem andr (d src : Reg) : Statement (.andr d src) := rfl
theorem or (d : Reg) (i : Int) : Statement (.or d i) := rfl
theorem ori (d : Reg) (i : Int) : Statement (.ori d i) := rfl
theorem orr (d src : Reg) : Statement (.orr d src) := rfl
theorem jump (i : Int) : Statement (.jump i) := rfl
theorem jumpeq (i : Int) : Statement (.jumpeq i) := rfl
theorem jumpne (i : Int) : Statement (.jumpne i) := rfl
theorem jumple (i : Int) : Statement (.jumple i) := rfl
theorem jumpge (i : Int) : Statement (.jumpge i) := rfl
theorem jumplt (i : Int) : Statement (.jumplt i) := rfl
theorem jumpgt (i : Int) : Statement (.jumpgt i) := rfl
theorem nop : Statement .nop := rfl

end Sys2Proof.Laws.Rebuild
end

