-- ==== Sys2Proof/Tests/Slice0.lean ====
section
/-! SUPPORT. The model's own tests: each expected result is a vector of 95_test_vectors.md, named by its
number, or follows from the rule named. Then a witness for the hypotheses of each obligation. -/

namespace Sys2Proof.Tests

open Sys2Proof.Machine

/-! ### Helpers -/

/-- The outcome is a next state with property `p`. -/
def next (o : Out) (p : State → Bool) : Bool :=
  match o with
  | .next t => p t
  | .fault _ => false
  | .refused _ => false

/-- The outcome is the refusal `r`. -/
def refusedWith (o : Out) (r : Refusal) : Bool :=
  match o with
  | .next _ => false
  | .fault _ => false
  | .refused r' => r' == r

/-- A program of `n` records that are all NOP. -/
def nops (n : Nat) : List Record := List.replicate n { line := 1, text := [], instr := .nop }

/-- Awaiting a Step of program `p`, with nothing to undo. -/
def waiting (v : Variant) (f : RegFile) (m : Memory) (p : List Record) : State :=
  { State.reset with cfg := Config.standard v, regs := f, mem := m, prog := p }

/-- Awaiting a Step of the one-record program `i`. -/
def only (i : Instr) : State :=
  waiting .extended RegFile.zero [] [{ line := 1, text := "X".toList, instr := i }]

/-- Inside a Step, with a program of `n` records. -/
def running (v : Variant) (f : RegFile) (m : Memory) (n : Nat) : State :=
  (waiting v f m (nops n)).beginStep

/-- Inside a Step, `i` succeeds with the given registers, memory and signal. -/
def runs (v : Variant) (f : RegFile) (m : Memory) (n : Nat) (i : Instr) (f' : RegFile) (m' : Memory)
    (sig : Signal) : Bool :=
  next (exec i (running v f m n)) fun t =>
    t.regs == f' && t.mem == m' && t.signal == sig && t.cstate == .running && i.encodable t.cfg

/-- Inside a Step, `i` fails with `e` and leaves no effect. -/
def fails (v : Variant) (f : RegFile) (m : Memory) (n : Nat) (i : Instr) (e : RunError) : Bool :=
  next (exec i (running v f m n)) fun t =>
    t.regs == f && t.mem == m && t.undo == [] && t.cstate == .awaitingStep &&
      (match t.msg with
        | .error e' _ _ => e' == e
        | _ => false)

/-- The opcode-table word `w` decodes to `i`, and `i` encodes to `w`. -/
def codes (w : Nat) (i : Instr) : Bool := decodeTableWord 40 w == some i && (encode 22 i).toNat == w

/-- The parser answers this program. -/
def parses (c : Config) (t : String) (p : List (Nat × String × Instr)) : Bool :=
  match parse c t.toList with
  | .ok q => q == p.map fun x => { line := x.1, text := x.2.1.toList, instr := x.2.2 }
  | .error _ => false

/-- The parser answers this error. -/
def parseFails (c : Config) (t : String) (e : ParseError) : Bool :=
  match parse c t.toList with
  | .ok _ => false
  | .error e' => e' == e

/-- The Load inputs of a text with the default configuration of variant `v`. -/
def textInput (v : Variant) (t : String) (im : InitMem) : LoadInput where
  cfg := Config.standard v
  source := .text t.toList
  initMem := im
  regInit := []

/-- The Load succeeds with a state with property `p`. -/
def loads (inp : LoadInput) (p : State → Bool) : Bool :=
  match load inp with
  | .ok s => p s
  | .error _ => false

/-- The Load fails with `e`. -/
def loadFails (inp : LoadInput) (e : LoadError) : Bool :=
  match load inp with
  | .ok _ => false
  | .error e' => e' == e

/-! ### Well-formedness: for each check an ill-formed term it refuses (30_encoding.md R74, R76, R86) -/

theorem test_wf_register_absent : Instr.regsExist .minimal (.loadi .sp 1) = false := by decide

theorem test_wf_second_register_absent : Instr.regsExist .minimal (.addr .acc .cs) = false
  := by decide

theorem test_wf_immediate_above :
    Instr.immInRange (Config.standard .extended) (.loadi .acc 2097152) = false := by decide

theorem test_wf_immediate_below :
    Instr.immInRange (Config.standard .extended) (.loadi .acc (-2097153)) = false := by decide

theorem test_wf_not_in_table :
    Instr.inTable (Config.standard .minimal) (.multi .acc 2) = false ∧
    Instr.wellFormed (Config.standard .minimal) (.multi .acc 2) = false := by decide

theorem test_wf_not_encodable :
    Instr.encodable (Config.standard .extended) (.loadin1 .acc 0) = false := by decide

theorem test_wf_accepts :
    Instr.wellFormed (Config.standard .minimal) (.loadin1 .acc (-2097152)) = true ∧
    Instr.wellFormed (Config.standard .extended) (.storein .baf .cs 2097151) = true := by decide

/-! ### Decoding (30_encoding.md R84 to R86): the word of every constructor, written out by the spec -/

theorem test_words_loads :
    codes 0x010000007 (.load .acc 7) = true ∧
    codes 0x0203FFFFE (.loadin1 .acc (-2)) = true ∧
    codes 0x0303FFFFF (.loadin2 .acc (-1)) = true ∧
    codes 0x048800000 (.loadin .sp .in2 0) = true ∧
    codes 0x05E1FFFFF (.loadi .cs 2097151) = true := by decide

theorem test_words_stores :
    codes 0x080000003 (.storea 3) = true ∧
    codes 0x090000002 (.storein1a 2) = true ∧
    codes 0x0A03FFFFB (.storein2a (-5)) = true ∧
    codes 0x0B8000000 (.store .sp 0) = true ∧
    codes 0x0CB9FFFFF (.storein .baf .ds 2097151) = true ∧
    codes 0x100C00000 (.move .acc .pc) = true := by decide

theorem test_words_add_sub_mult :
    codes 0x2003FFFFF (.add .acc (-1)) = true ∧
    codes 0x286000002 (.addi .pc 2) = true ∧
    codes 0x300400000 (.addr .acc .in1) = true ∧
    codes 0x210000002 (.sub .acc 2) = true ∧
    codes 0x298000001 (.subi .sp 1) = true ∧
    codes 0x310800000 (.subr .acc .in2) = true ∧
    codes 0x220000009 (.mult .acc 9) = true ∧
    codes 0x2A03F8000 (.multi .acc (-32768)) = true ∧
    codes 0x320400000 (.multr .acc .in1) = true := by decide

theorem test_words_div_mod :
    codes 0x230000004 (.div .acc 4) = true ∧
    codes 0x2B03FFFFD (.divi .acc (-3)) = true ∧
    codes 0x334400000 (.divr .in2 .in1) = true ∧
    codes 0x240000000 (.mod .acc 0) = true ∧
    codes 0x2C03FFFFF (.modi .acc (-1)) = true ∧
    codes 0x340400000 (.modr .acc .in1) = true := by decide

theorem test_words_bitwise :
    codes 0x250000000 (.oplus .acc 0) = true ∧
    codes 0x2D03FFFFF (.oplusi .acc (-1)) = true ∧
    codes 0x350400000 (.oplusr .acc .in1) = true ∧
    codes 0x260000003 (.and .acc 3) = true ∧
    codes 0x2E0200000 (.andi .acc (-2097152)) = true ∧
    codes 0x360400000 (.andr .acc .in1) = true ∧
    codes 0x270000000 (.or .acc 0) = true ∧
    codes 0x2F01FFFFF (.ori .acc 2097151) = true ∧
    codes 0x370400000 (.orr .acc .in1) = true := by decide

theorem test_words_jumps_nop :
    codes 0x4003FFFEC (.jump (-20)) = true ∧
    codes 0x410000003 (.jumpeq 3) = true ∧
    codes 0x4203FFFFC (.jumpne (-4)) = true ∧
    codes 0x430000002 (.jumple 2) = true ∧
    codes 0x4403FFFFE (.jumpge (-2)) = true ∧
    codes 0x450000001 (.jumplt 1) = true ∧
    codes 0x4603FFFC4 (.jumpgt (-60)) = true ∧
    codes 0x600000000 (.nop) = true := by decide

/-- V93, V94: the variant decides which words are legal. -/
theorem test_decode_variant :
    decodeNat 22 .minimal 0x048800000 = .illegal .notInVariant ∧
    decodeNat 22 .minimal 0x058000064 = .illegal .registerAbsent ∧
    decodeNat 22 .extended 0x058000064 = .instr (.loadi .sp 100) := by decide

/-- V95 to V98, and a number of 36 bits. -/
theorem test_decode_illegal :
    decodeNat 22 .extended 0x000000000 = .illegal .unassignedCode ∧
    decodeNat 22 .extended 0x600000001 = .illegal .unusedNotZero ∧
    decodeNat 22 .extended 0x300400001 = .illegal .unusedNotZero ∧
    decodeNat 22 .extended 0x7FFFFFFFF = .illegal .unassignedCode ∧
    decodeNat 22 .extended 0x850000005 = .illegal .tooWide := by decide

/-- The bits of LOADI PC -1 written field by field (V91). -/
theorem test_decode_fields :
    decode 22 .minimal (0b0000101#7 ++ 0b011#3 ++ 0b000#3 ++ 0b1111111111111111111111#22) =
      .instr (.loadi .pc (-1)) := by decide

/-- No two operations share a code (30_encoding.md R85). -/
theorem test_codes_distinct : (Op.all.map (·.code)).Nodup := by decide

/-! ### Loads (41_load.md; vectors of 95_test_vectors.md section 2.1) -/

/-- V4. -/
theorem test_load_to_pc :
    runs .minimal (RegFile.zero) [(7, 42)] 43 (.load .pc 7)
      ({ RegFile.zero with pc := 42 }) [(7, 42)] .jumped = true := by decide

/-- V3. -/
theorem test_load_negative :
    fails .extended ({ RegFile.zero with acc := 4 }) [] 1 (.load .acc (-1))
      (.memoryAddressOutOfRange (-1)) = true := by decide

/-- V5. -/
theorem test_loadin1 :
    runs .minimal ({ RegFile.zero with in1 := 100 }) [(98, -3)] 1 (.loadin1 .acc (-2))
      ({ RegFile.zero with in1 := 100, acc := -3 }) [(98, -3)] .advance = true := by decide

/-- V6. -/
theorem test_loadin1_own_base :
    runs .minimal ({ RegFile.zero with in1 := 100 }) [(100, 5)] 1 (.loadin1 .in1 0)
      ({ RegFile.zero with in1 := 5 }) [(100, 5)] .advance = true := by decide

/-- V7. -/
theorem test_loadin2_negative :
    fails .minimal (RegFile.zero) [] 1 (.loadin2 .acc (-1)) (.memoryAddressOutOfRange (-1))
      = true := by decide

/-- R143: the last address before V7's. -/
theorem test_loadin2 :
    runs .minimal ({ RegFile.zero with in2 := 1 }) [(0, 6)] 1 (.loadin2 .acc (-1))
      ({ RegFile.zero with in2 := 1, acc := 6 }) [(0, 6)] .advance = true := by decide

/-- V9. -/
theorem test_loadin :
    runs .extended ({ RegFile.zero with sp := 100 }) [(100, -4)] 1 (.loadin .sp .sp 0)
      ({ RegFile.zero with sp := -4 }) [(100, -4)] .advance = true := by decide

/-- V11. -/
theorem test_loadin_above_rmax :
    runs .extended ({ RegFile.zero with in1 := 2147483647 }) [(2149580798, 77)] 1
      (.loadin .in1 .acc 2097151)
      ({ RegFile.zero with in1 := 2147483647, acc := 77 }) [(2149580798, 77)] .advance = true
        := by decide

/-- V13. -/
theorem test_loadi_min :
    runs .extended ({ RegFile.zero with acc := 1 }) [] 1 (.loadi .acc (-2097152))
      ({ RegFile.zero with acc := -2097152 }) [] .advance = true := by decide

/-- V15. -/
theorem test_loadi_pc :
    runs .minimal (RegFile.zero) [] 1 (.loadi .pc 0)
      (RegFile.zero) [] .jumped = true := by decide

/-! ### Stores and MOVE (42_store_move.md; section 2.2) -/

/-- V18: the cell is assigned. -/
theorem test_storea_zero :
    runs .minimal (RegFile.zero) [] 1 (.storea 0)
      (RegFile.zero) [(0, 0)] .advance = true := by decide

/-- V17. -/
theorem test_storea_negative :
    fails .minimal ({ RegFile.zero with acc := 8 }) [] 1 (.storea (-1)) (.memoryAddressOutOfRange
      (-1)) = true := by decide

/-- V19. -/
theorem test_storein1a :
    runs .minimal ({ RegFile.zero with in1 := 50, acc := -1 }) [] 1 (.storein1a 2)
      ({ RegFile.zero with in1 := 50, acc := -1 }) [(52, -1)] .advance = true := by decide

/-- V20. -/
theorem test_storein2a_negative :
    fails .minimal ({ RegFile.zero with in2 := 3, acc := 7 }) [] 1 (.storein2a (-5))
      (.memoryAddressOutOfRange (-2)) = true := by decide

/-- V21. -/
theorem test_store :
    runs .extended ({ RegFile.zero with sp := 100 }) [] 1 (.store .sp 0)
      ({ RegFile.zero with sp := 100 }) [(0, 100)] .advance = true := by decide

/-- V22 at index 3. -/
theorem test_store_pc :
    runs .extended ({ RegFile.zero with pc := 3 }) [] 4 (.store .pc 4)
      ({ RegFile.zero with pc := 3 }) [(4, 3)] .advance = true := by decide

/-- V24. -/
theorem test_storein_same :
    runs .extended ({ RegFile.zero with sp := 100 }) [] 1 (.storein .sp .sp (-1))
      ({ RegFile.zero with sp := 100 }) [(99, 100)] .advance = true := by decide

/-- V25. -/
theorem test_storein_above_rmax :
    runs .extended ({ RegFile.zero with baf := 2147483647, ds := -2147483648 }) [] 1
      (.storein .baf .ds 2097151)
      ({ RegFile.zero with baf := 2147483647, ds := -2147483648 })
        [(2149580798, -2147483648)] .advance = true := by decide

/-- V27. -/
theorem test_move_to_pc :
    runs .minimal ({ RegFile.zero with acc := 4 }) [] 5 (.move .acc .pc)
      ({ RegFile.zero with acc := 4, pc := 4 }) [] .jumped = true := by decide

/-- V29. -/
theorem test_move_from_pc :
    runs .extended ({ RegFile.zero with pc := 6 }) [] 7 (.move .pc .acc)
      ({ RegFile.zero with pc := 6, acc := 6 }) [] .advance = true := by decide

/-! ### Compute (43_compute.md; section 2.3) -/

/-- V30. -/
theorem test_add :
    runs .extended ({ RegFile.zero with acc := 5 }) [(0, 10)] 1 (.add .acc 0)
      ({ RegFile.zero with acc := 15 }) [(0, 10)] .advance = true := by decide

/-- V56. -/
theorem test_add_overflow :
    fails .extended ({ RegFile.zero with acc := 2147483647 }) [(0, 1)] 1 (.add .acc 0)
      (.registerOverflow .acc .add 2147483648) = true := by decide

/-- V57. -/
theorem test_addi_pc :
    runs .extended ({ RegFile.zero with pc := 3 }) [] 6 (.addi .pc 2)
      ({ RegFile.zero with pc := 5 }) [] .jumped = true := by decide

/-- V54. -/
theorem test_addi_overflow :
    fails .minimal ({ RegFile.zero with acc := 2147483647 }) [] 1 (.addi .acc 1)
      (.registerOverflow .acc .addi 2147483648) = true := by decide

/-- V58. -/
theorem test_addr :
    runs .extended ({ RegFile.zero with acc := 7, in1 := -9 }) [] 1 (.addr .acc .in1)
      ({ RegFile.zero with acc := -2, in1 := -9 }) [] .advance = true := by decide

/-- V59. -/
theorem test_addr_overflow :
    fails .extended ({ RegFile.zero with acc := 1073741824 }) [] 1 (.addr .acc .acc)
      (.registerOverflow .acc .addr 2147483648) = true := by decide

/-- V59a. -/
theorem test_sub :
    runs .extended ({ RegFile.zero with acc := 5 }) [(2, 8)] 1 (.sub .acc 2)
      ({ RegFile.zero with acc := -3 }) [(2, 8)] .advance = true := by decide

/-- V59b. -/
theorem test_subi_overflow :
    fails .extended ({ RegFile.zero with acc := -2147483648 }) [] 1 (.subi .acc 1)
      (.registerOverflow .acc .subi (-2147483649)) = true := by decide

/-- V59c. -/
theorem test_subi :
    runs .extended ({ RegFile.zero with acc := 1 }) [] 1 (.subi .acc (-5))
      ({ RegFile.zero with acc := 6 }) [] .advance = true := by decide

/-- V59d. -/
theorem test_subr :
    runs .extended ({ RegFile.zero with acc := 3, in2 := 10 }) [] 1 (.subr .acc .in2)
      ({ RegFile.zero with acc := -7, in2 := 10 }) [] .advance = true := by decide

/-- V59f. -/
theorem test_subr_overflow :
    fails .extended ({ RegFile.zero with in1 := -2147483648 }) [] 1 (.subr .acc .in1)
      (.registerOverflow .acc .subr 2147483648) = true := by decide

/-- V59g. -/
theorem test_mult :
    runs .extended ({ RegFile.zero with acc := -6 }) [(1, 7)] 1 (.mult .acc 1)
      ({ RegFile.zero with acc := -42 }) [(1, 7)] .advance = true := by decide

/-- V59i. -/
theorem test_multi_min :
    runs .extended ({ RegFile.zero with acc := 65536 }) [] 1 (.multi .acc (-32768))
      ({ RegFile.zero with acc := -2147483648 }) [] .advance = true := by decide

/-- V59j. -/
theorem test_multi_overflow :
    fails .extended ({ RegFile.zero with acc := 65536 }) [] 1 (.multi .acc 32768)
      (.registerOverflow .acc .multi 2147483648) = true := by decide

/-- V59k. -/
theorem test_multr :
    runs .extended ({ RegFile.zero with acc := 46340 }) [] 1 (.multr .acc .acc)
      ({ RegFile.zero with acc := 2147395600 }) [] .advance = true := by decide

/-- V59l. -/
theorem test_multr_overflow :
    fails .extended ({ RegFile.zero with acc := -46341, in1 := 46341 }) [] 1 (.multr .acc .in1)
      (.registerOverflow .acc .multr (-2147488281)) = true := by decide

/-- V40. -/
theorem test_div :
    runs .extended ({ RegFile.zero with acc := -7 }) [(4, 2)] 1 (.div .acc 4)
      ({ RegFile.zero with acc := -3 }) [(4, 2)] .advance = true := by decide

/-- V41. -/
theorem test_div_unassigned :
    fails .extended ({ RegFile.zero with acc := -7 }) [] 1 (.div .acc 4)
      (.divisionByZero .acc .div) = true := by decide

/-- V36. -/
theorem test_divi :
    runs .extended ({ RegFile.zero with acc := -10 }) [] 1 (.divi .acc (-3))
      ({ RegFile.zero with acc := 3 }) [] .advance = true := by decide

/-- V39. -/
theorem test_divi_overflow :
    fails .extended ({ RegFile.zero with acc := -2147483648 }) [] 1 (.divi .acc (-1))
      (.registerOverflow .acc .divi 2147483648) = true := by decide

/-- V42. -/
theorem test_divr :
    runs .extended ({ RegFile.zero with acc := 7, in1 := -2 }) [] 1 (.divr .acc .in1)
      ({ RegFile.zero with acc := -3, in1 := -2 }) [] .advance = true := by decide

/-- V44. -/
theorem test_divr_zero :
    fails .extended (RegFile.zero) [] 1 (.divr .acc .acc) (.divisionByZero .acc .divr) = true
      := by decide

/-- V45. -/
theorem test_mod :
    runs .extended ({ RegFile.zero with acc := -10 }) [(0, 3)] 1 (.mod .acc 0)
      ({ RegFile.zero with acc := 2 }) [(0, 3)] .advance = true := by decide

/-- V46. -/
theorem test_modi :
    runs .extended ({ RegFile.zero with acc := 10 }) [] 1 (.modi .acc (-3))
      ({ RegFile.zero with acc := -2 }) [] .advance = true := by decide

/-- V50. -/
theorem test_modi_min :
    runs .extended ({ RegFile.zero with acc := -2147483648 }) [] 1 (.modi .acc (-1))
      ({ RegFile.zero with acc := 0 }) [] .advance = true := by decide

/-- V51. -/
theorem test_modr :
    runs .extended ({ RegFile.zero with acc := -7, in1 := 2 }) [] 1 (.modr .acc .in1)
      ({ RegFile.zero with acc := 1, in1 := 2 }) [] .advance = true := by decide

/-- V59m. -/
theorem test_oplus :
    runs .minimal ({ RegFile.zero with acc := 12 }) [(0, 10)] 1 (.oplus .acc 0)
      ({ RegFile.zero with acc := 6 }) [(0, 10)] .advance = true := by decide

/-- V59n. -/
theorem test_oplusi :
    runs .minimal ({ RegFile.zero with acc := 5 }) [] 1 (.oplusi .acc (-1))
      ({ RegFile.zero with acc := -6 }) [] .advance = true := by decide

/-- V59o. -/
theorem test_oplusr :
    runs .minimal ({ RegFile.zero with acc := -2147483648, in1 := -1 }) [] 1 (.oplusr .acc .in1)
      ({ RegFile.zero with acc := 2147483647, in1 := -1 }) [] .advance = true := by decide

/-- V59q. -/
theorem test_and :
    runs .minimal ({ RegFile.zero with acc := -4 }) [(3, 7)] 1 (.and .acc 3)
      ({ RegFile.zero with acc := 4 }) [(3, 7)] .advance = true := by decide

/-- V59u. -/
theorem test_andi :
    runs .minimal ({ RegFile.zero with acc := -1 }) [] 1 (.andi .acc (-2097152))
      ({ RegFile.zero with acc := -2097152 }) [] .advance = true := by decide

/-- V59v. -/
theorem test_andr :
    runs .minimal ({ RegFile.zero with acc := -2147483648, in1 := 2147483647 }) [] 1
      (.andr .acc .in1)
      ({ RegFile.zero with acc := 0, in1 := 2147483647 }) [] .advance = true := by decide

/-- V59w. -/
theorem test_or :
    runs .minimal ({ RegFile.zero with acc := -8 }) [(0, 3)] 1 (.or .acc 0)
      ({ RegFile.zero with acc := -5 }) [(0, 3)] .advance = true := by decide

/-- V59y. -/
theorem test_ori :
    runs .minimal ({ RegFile.zero with acc := -2147483648 }) [] 1 (.ori .acc 2097151)
      ({ RegFile.zero with acc := -2145386497 }) [] .advance = true := by decide

/-- V59z. -/
theorem test_orr :
    runs .minimal ({ RegFile.zero with acc := -2147483648, in1 := 2147483647 }) [] 1
      (.orr .acc .in1)
      ({ RegFile.zero with acc := -1, in1 := 2147483647 }) [] .advance = true := by decide

/-! ### Jumps and NOP (44_jump_nop.md; section 2.4) -/

/-- V63. -/
theorem test_jump_to_n :
    runs .extended ({ RegFile.zero with pc := 10 }) [] 100 (.jump 90)
      ({ RegFile.zero with pc := 100 }) [] .jumped = true := by decide

/-- V64. -/
theorem test_jump_over :
    fails .extended ({ RegFile.zero with pc := 10 }) [] 100 (.jump 91) (.pcOverflow 101)
      = true := by decide

/-- V68. -/
theorem test_jumpeq :
    runs .extended ({ RegFile.zero with pc := 4 }) [] 10 (.jumpeq 3)
      ({ RegFile.zero with pc := 7 }) [] .jumped = true := by decide

/-- V69. -/
theorem test_jumpeq_denied :
    next (exec (.jumpeq 3) (running .extended { RegFile.zero with pc := 4, acc := 1 } [] 10))
      (fun t =>
      t.regs.pc == 4 && t.signal == .advance && t.dbg == .jumpDenied .jumpeq 1) = true := by decide

/-- V70. -/
theorem test_jumpne :
    runs .extended ({ RegFile.zero with pc := 4, acc := -1 }) [] 10 (.jumpne (-4))
      ({ RegFile.zero with acc := -1 }) [] .jumped = true := by decide

/-- V71. -/
theorem test_jumpne_denied :
    runs .extended ({ RegFile.zero with pc := 4 }) [] 10 (.jumpne (-4))
      ({ RegFile.zero with pc := 4 }) [] .advance = true := by decide

/-- V72. -/
theorem test_jumple :
    runs .extended ({ RegFile.zero with pc := 2 }) [] 10 (.jumple 2)
      ({ RegFile.zero with pc := 4 }) [] .jumped = true := by decide

/-- V73. -/
theorem test_jumple_denied :
    runs .extended ({ RegFile.zero with pc := 2, acc := 1 }) [] 10 (.jumple 2)
      ({ RegFile.zero with pc := 2, acc := 1 }) [] .advance = true := by decide

/-- V74. -/
theorem test_jumpge :
    runs .extended ({ RegFile.zero with pc := 2 }) [] 10 (.jumpge (-2))
      (RegFile.zero) [] .jumped = true := by decide

/-- V75. -/
theorem test_jumpge_denied :
    runs .extended ({ RegFile.zero with pc := 2, acc := -1 }) [] 10 (.jumpge (-2))
      ({ RegFile.zero with pc := 2, acc := -1 }) [] .advance = true := by decide

/-- V76. -/
theorem test_jumplt :
    runs .extended ({ RegFile.zero with acc := -2147483648 }) [] 10 (.jumplt 1)
      ({ RegFile.zero with acc := -2147483648, pc := 1 }) [] .jumped = true := by decide

/-- V77. -/
theorem test_jumplt_denied :
    runs .extended (RegFile.zero) [] 10 (.jumplt 1)
      (RegFile.zero) [] .advance = true := by decide

/-- V80. -/
theorem test_jumpgt_denied_far :
    runs .extended ({ RegFile.zero with pc := 10 }) [] 12 (.jumpgt (-60))
      ({ RegFile.zero with pc := 10 }) [] .advance = true := by decide

/-- V81. -/
theorem test_jumpgt_negative :
    fails .extended ({ RegFile.zero with pc := 10, acc := 1 }) [] 12 (.jumpgt (-60)) (.negativePC
      (-50)) = true := by decide

/-- V83. -/
theorem test_nop :
    runs .extended ({ RegFile.zero with pc := 3 }) [] 10 (.nop)
      ({ RegFile.zero with pc := 3 }) [] .advance = true := by decide

/-! ### Parser (40_parser.md; section 2.6) -/

/-- V100. -/
theorem test_parse_ok : parses (Config.standard .minimal) "LOADI ACC 5;\nADDI ACC 3;\nJUMP 0;"
    [(1, "LOADI ACC 5", .loadi .acc 5), (2, "ADDI ACC 3", .addi .acc 3),
      (3, "JUMP 0", .jump 0)] = true := by
  decide

/-- V116. -/
theorem test_parse_comments : parses (Config.standard .extended)
    "# header\n\nLOADI ACC 5 # five\n  ADDI ACC 3;\nJUMP 0"
    [(3, "LOADI ACC 5", .loadi .acc 5), (4, "ADDI ACC 3", .addi .acc 3),
      (5, "JUMP 0", .jump 0)] = true := by
  decide

/-- V101. -/
theorem test_parse_arity : parseFails (Config.standard .minimal) "ADD ACC"
    (.arityMismatch 1 "ADD ACC".toList [.reg, .int] 1) = true := by decide

/-- V102. -/
theorem test_parse_empty : parseFails
  (Config.standard .minimal) "\n\n# c\n  \n;" .emptyProgram = true := by
  decide

/-- V106, V107. -/
theorem test_parse_tokens :
    parseFails (Config.standard .minimal) "LOADI SP 1"
      (.unknownRegister 1 "LOADI SP 1".toList "SP".toList) = true ∧
    parseFails (Config.standard .minimal) "LOADI ACC 0x10"
      (.notAnInteger 1 "LOADI ACC 0x10".toList "0x10".toList) = true ∧
    parseFails (Config.standard .minimal) "LOADI ACC +"
      (.notAnInteger 1 "LOADI ACC +".toList "+".toList) = true := by decide

/-- V108, V109. -/
theorem test_parse_range :
    parseFails (Config.standard .minimal) "LOADI ACC 2097152"
      (.immediateOutOfRange 1 "LOADI ACC 2097152".toList 2097152) = true ∧
    parses (Config.standard .minimal) "LOADI ACC -2097152"
      [(1, "LOADI ACC -2097152", .loadi .acc (-2097152))] = true ∧
    parses (Config.standard .minimal) "loadi acc +007" [(1, "loadi acc +007", .loadi .acc 7)]
      = true := by
  decide

/-- V115: Pass B runs over all lines before Pass C. -/
theorem test_parse_pass_order : parseFails (Config.standard .minimal) "LOADI ACC x\nFOO"
    (.unknownOpcode 2 "FOO".toList "FOO".toList ((defaultOptable .minimal).map (·.name)))
      = true := by decide

/-- V117, V118. -/
theorem test_parse_terminator :
    parseFails { Config.standard .minimal with requireTerminator := true } "JUMP 0 # end;"
      (.missingTerminator 1 "JUMP 0".toList) = true ∧
    parses { Config.standard .minimal with requireTerminator := true } "JUMP 0; # end"
      [(1, "JUMP 0", .jump 0)] = true := by decide

/-- V123, V124: `STORE` is STOREA in minimal, STORE in extended. -/
theorem test_parse_store :
    parses (Config.standard .minimal) "STORE 3" [(1, "STORE 3", .storea 3)] = true ∧
    parses (Config.standard .extended) "STORE ACC 3" [(1, "STORE ACC 3", .store .acc 3)]
      = true := by decide

/-- V120: carriage returns are whitespace. -/
theorem test_parse_crlf : parses (Config.standard .minimal) "LOADI ACC 5;\r\nJUMP 0;\r\n"
    [(1, "LOADI ACC 5", .loadi .acc 5), (2, "JUMP 0", .jump 0)] = true := by decide

/-- A configuration with the one row `row`. -/
def withRow (row : OpRow) : Config := { Config.standard .extended with optable := [row] }

/-- 92_eei_decisions.md D4, 93_implementation_defined.md U8: rows with other argument orders. -/
theorem test_parse_reordered :
    parses (withRow { name := "SET".toList, op := .loadi, kinds := [.int, .reg] }) "SET 5 SP"
      [(1, "SET 5 SP", .loadi .sp 5)] = true ∧
    parses (withRow { name := "MOVE".toList, op := .move, kinds := [.reg, .reg], regsReversed := true })
      "MOVE ACC IN1" [(1, "MOVE ACC IN1", .move .in1 .acc)] = true ∧
    parses (withRow { name := "LD".toList, op := .loadin, kinds := [.reg, .int, .reg] }) "LD SP -3 CS"
      [(1, "LD SP -3 CS", .loadin .sp .cs (-3))] = true := by decide

/-- 92_eei_decisions.md D4, D3: a reordered tuple is accepted, another number of arguments is not. -/
theorem test_optable_kinds :
    checkConfig (withRow { name := "SET".toList, op := .loadi, kinds := [.int, .reg] }) = none ∧
    checkConfig (withRow { name := "LD".toList, op := .loadin, kinds := [.int, .reg, .reg] }) = none ∧
    checkConfig (withRow { name := "LOADIN1".toList, op := .loadin1, kinds := [.int] }) =
      some .optableKinds := by decide

/-! ### Load (70_reset_and_hazards.md R290; section 2.6) -/

/-- V131, V132: address `2^32` is legal; a cell assigned 0 is listed. -/
theorem test_load_memory :
    loads (textInput .minimal "JUMP 0" (InitMem.ofCells [(4294967296, -1), (0, 0)])) (fun s =>
      s.mem == [(0, 0), (4294967296, -1)] && s.regs == RegFile.zero && s.cstate == .awaitingStep) = true := by
  decide

/-- V133. -/
theorem test_load_memory_refused :
    loadFails (textInput .minimal "JUMP 0" (.entries [(.int (-1), .int 0)]))
      (.malformedInitialMemory (.int (-1))) = true ∧
    loadFails (textInput .minimal "JUMP 0" (.entries [(.int 4294967297, .int 0)]))
      (.malformedInitialMemory (.int 4294967297)) = true ∧
    loadFails (textInput .minimal "JUMP 0" (.entries [(.int 0, .int 2147483648)]))
      (.malformedInitialMemory (.int 2147483648)) = true := by decide

/-- V134: the parse error is reported. -/
theorem test_load_error_order :
    loadFails (textInput .minimal ";" (.notAMap [])) (.parse .emptyProgram) = true := by decide

/-- 30_encoding.md R87: a store of words that holds an `Illegal` word is refused. -/
theorem test_load_words :
    loads { textInput .minimal "" .absent with source := .words [(1, [], 0x050000005), (2,
      [], 0x400000000)] }
      (fun s => s.prog.map (·.instr) == [.loadi .acc 5, .jump 0]) = true ∧
    loadFails { textInput .minimal "" .absent with source := .words [(1, [], 0x400000000), (2,
      [], 0)] }
      (.illegalWord 1 .unassignedCode) = true := by decide

/-! ### Controller (45_controller.md; section 2.7) -/

/-- V140. -/
theorem test_step_sentinel : next (step (only (.jump 0))) (fun t =>
    t.cstate == .terminated && t.msg == .terminateSentinel 1 && t.regs.pc == 0 && t.undo.length == 1 &&
      t.terminal) = true := by decide

/-- V141. -/
theorem test_step_jump_past_end : next (step (only (.jump 1))) (fun t =>
    t.cstate == .terminated && t.msg == .endOfProgram && t.regs.pc == 1 && t.undo.length == 1) = true := by
  decide

/-- V142. -/
theorem test_step_pc_overflow : next (step (only (.jump 2))) (fun t =>
    t.cstate == .awaitingStep && t.msg == .error
      (.pcOverflow 2) 1 "X".toList && t.regs == RegFile.zero &&
      t.undo == []) = true := by decide

/-- V145. -/
theorem test_step_negative_pc : next (step (only (.subi .pc 1))) (fun t =>
    t.cstate == .awaitingStep && t.msg == .error (.negativePC (-1)) 1 "X".toList &&
      t.regs == RegFile.zero && t.undo == []) = true := by decide

/-- V146: a PC write past `N` is not `PCOverflow`. -/
theorem test_step_write_past_end : next (step (only (.loadi .pc 5))) (fun t =>
    t.cstate == .terminated && t.msg == .endOfProgram && t.regs.pc == 5) = true := by decide

/-- V148. -/
theorem test_step_loop : next (step (only (.loadi .pc 0))) (fun t =>
    t.cstate == .awaitingStep && t.msg == .stepOk 1 "X".toList && t.regs.pc == 0 &&
      t.undo.length == 1) = true := by decide

/-- V149. -/
theorem test_undo_nothing : next (serveUndo (only .nop)) (fun t =>
    t.msg == .nothingToUndo && t.regs == RegFile.zero && t.cstate == .awaitingStep) = true
      := by decide

/-- V150. -/
theorem test_step_when_terminated :
    next (step { only (.jump 0) with cstate := .terminated }) (fun t =>
      t.msg == .alreadyTerminated && t.cstate == .terminated && t.undo == []) = true := by decide

/-- 45_controller.md R222, 10_state.md R38: a fetch out of range is the internal fault. -/
theorem test_internal_fault :
    next (step { only .nop with regs := { RegFile.zero with pc := 9 } }) (fun t =>
      t.shutdown && t.regs.pc == 9 && t.undo == [] && refusedWith (step t) .shutDown) = true
        := by decide

/-- 10_state.md R46: before the first Load, Step is refused. -/
theorem test_reset_refuses : refusedWith (step State.reset) .noProgram = true := by decide

/-- P1 of section 3: the Load request, then its first Step, as requests. -/
theorem test_requests :
    next (step { State.reset with requests := [.load
      (textInput .minimal "LOADI ACC 5;\nJUMP 0;" .absent)] })
      (fun s => next (step s) fun t =>
        t.regs == { RegFile.zero with acc := 5, pc := 1 } && t.msg == .stepOk 1 "LOADI ACC 5".toList) = true := by
  decide

/-- 70_reset_and_hazards.md R291, 93_implementation_defined.md U13: a refused Step changes nothing, and the
Load behind it is served. -/
theorem test_refused_request :
    next (step { State.reset with requests :=
        [.step, .load (textInput .minimal "JUMP 0" .absent)] }) (fun s =>
      s == { State.reset with
          refusal := some .noProgram
          requests := [.load (textInput .minimal "JUMP 0" .absent)] } &&
      next (step s) fun t =>
        t.prog.map (·.instr) == [.jump 0] && t.refusal == none && t.requests == []) = true := by decide

/-- A table word placed at reset runs: LOADIN1 in the variant that has it. -/
theorem test_placed_word :
    next (step (State.reset.withFetchWord 40 0x020000007)) (fun t =>
      t.cstate == .terminated && t.cfg.variant == .minimal && t.regs ==
        { RegFile.zero with pc := 1 }) = true := by
  decide

/-- 45_controller.md R240: the outputs of a minimal block list its four registers. -/
theorem test_outputs :
    (waiting .minimal { RegFile.zero with acc := 3 } [(2, 0)] (nops 1)).outputs.registers =
      [(.acc, 3), (.in1, 0), (.in2, 0), (.pc, 0)] ∧
    (waiting .minimal RegFile.zero [(2, 0)] (nops 1)).outputs.memory = [(2, 0)] := by decide

/-! ### Witnesses: states and operands that meet the hypotheses of each obligation -/

/-- The default configuration of the extended variant is accepted. -/
theorem witness_config : checkConfig (Config.standard .extended) = none ∧
    checkConfig (Config.standard .minimal) = none ∧ (Config.standard .extended).WidthsOk ∧
    (Config.standard .extended).cellWidth = (Config.standard .extended).regWidth := by decide

theorem witness_DecodeOfEncode :
    1 ≤ (Config.standard .extended).immWidth ∧
    Instr.encodable (Config.standard .extended) (.loadi .cs (-2097152)) = true ∧
    Instr.encodable (Config.standard .minimal) (.storein2a 2097151) = true := by decide

theorem witness_EncodeOfDecode :
    decode 22 .minimal (0x4603FFFFA#35) = .instr (.jumpgt (-6)) := by decide

theorem witness_DecodeRefusesExactly :
    1 ≤ (Config.standard .minimal).immWidth ∧
    decode 22 .minimal (0x056000000#35) = .instr (.loadi .pc 0) ∧
    Op.ofCode (Word.opc (I := 22) (0x000000000#35)) = none ∧
    (Op.ofCode (Word.opc (I := 22) (0x048800000#35)) = some .loadin ∧
      Op.inVariant .loadin .minimal = false) ∧
    (Op.ofCode (Word.opc (I := 22) (0x058000064#35)) = some .loadi ∧ 1 ≤ Op.regArgs .loadi ∧
      (Reg.ofOrdinal (Word.ra (I := 22) (0x058000064#35))).inVariant .minimal = false) ∧
    (Op.ofCode (Word.opc (I := 22) (0x301000000#35)) = some .addr ∧ 2 ≤ Op.regArgs .addr ∧
      (Reg.ofOrdinal (Word.rb (I := 22) (0x301000000#35))).inVariant .minimal = false) ∧
    (Op.regArgs .nop = 0 ∧ Word.ra (I := 22) (0x602000000#35) ≠ 0) ∧
    (Op.regArgs .loadi ≤ 1 ∧ Word.rb (I := 22) (0x050400000#35) ≠ 0) ∧
    (Op.hasImm .addr = false ∧ Word.imm (I := 22) (0x300400001#35) ≠ 0) := by decide

theorem witness_StepServesOneRequest :
    (only .nop).requests = [] ∧ ({ only .nop with requests := [.step] }).requests = [.step] ∧
    ({ only .nop with requests := [.undo, .step] }).requests = [.undo, .step] ∧
    ({ only .nop with requests := [.load (textInput .minimal "NOP" .absent)] }).requests =
      [.load (textInput .minimal "NOP" .absent)] ∧
    next (serve .step (only .nop)) (fun _ => true) = true ∧
    refusedWith (serve .undo State.reset) .noProgram = true ∧ State.reset.prog = [] := by decide

/-- A succeeding and a failing instruction. -/
theorem witness_StepRunsFetchedInstruction :
    ((only (.loadi .acc 5)).requests = [] ∧ (only (.loadi .acc 5)).shutdown = false ∧
      (only (.loadi .acc 5)).cstate = .awaitingStep ∧
      (only (.loadi .acc 5)).fetch = some
        { line := 1, text := "X".toList, instr := .loadi .acc 5 } ∧
      next (exec (.loadi .acc 5) (only (.loadi .acc 5)).beginStep)
        (fun t => t.cstate == .running) = true) ∧
    next (exec (.jump 2) (only (.jump 2)).beginStep) (fun t => t.cstate != .running) = true
      := by decide

theorem witness_PlacedWordRuns :
    decodeSomewhere 22 .extended (0x0203FFFFE % 2 ^ 40) = some (.minimal, .loadin1 .acc (-2))
      := by decide

/-- Plain addresses 0 and `2^32`, offset addresses 8 and 0, PC as base. -/
theorem witness_MemoryLoadsComplete :
    let s := running .extended { RegFile.zero with in1 := 7, in2 := -1, pc := 1 }
      [(0, -2147483648), (8, 9)] 3
    (s.cfg.InAddr 0 ∧ s.cfg.InReg (s.mem.read (0 : Int).toNat)) ∧
    (s.cfg.InAddr 4294967296 ∧ s.cfg.InReg (s.mem.read (4294967296 : Int).toNat)) ∧
    (s.cfg.InAddr (s.regs.in1 + 1) ∧ s.cfg.InReg (s.mem.read (s.regs.in1 + 1).toNat)) ∧
    (s.cfg.InAddr (s.regs.in2 + 1) ∧ s.cfg.InReg (s.mem.read (s.regs.in2 + 1).toNat)) ∧
    (s.cfg.InAddr (s.regs.get .pc + (-1)) ∧
      s.cfg.InReg (s.mem.read (s.regs.get .pc + (-1)).toNat)) := by decide

theorem witness_LoadiAndMoveComplete :
    let s := running .extended { RegFile.zero with cs := 2147483647 } [] 1
    s.cfg.WidthsOk ∧ s.cfg.InImm (-2097152) ∧ s.cfg.InReg (s.regs.get .cs) := by decide

theorem witness_StoresComplete :
    let s := running .extended { RegFile.zero with in1 := 2097152, in2 := 5, sp := 2147483647 } [] 1
    s.cfg.InAddr 0 ∧ s.cfg.InAddr (s.regs.in1 + (-2097152)) ∧ s.cfg.InAddr (s.regs.in2 + (-5)) ∧
    s.cfg.InAddr 4294967296 ∧ s.cfg.InAddr (s.regs.get .sp + 2097151) := by decide

/-- One state for every clause: the results reach the ends of the range. -/
theorem witness_MemoryFormsComplete :
    let s := running .extended { RegFile.zero with acc := 2147483646 } [(4, 1)] 1
    let a := s.regs.get .acc
    let b := s.mem.read (4 : Int).toNat
    s.cfg.InAddr 4 ∧ b ≠ 0 ∧ s.cfg.InReg (a + b) ∧ s.cfg.InReg (a - b) ∧ s.cfg.InReg (a * b) ∧
    s.cfg.InReg (tdiv a b) ∧ s.cfg.InReg (fmod a b) ∧ s.cfg.InReg (bitXor a b) ∧
    s.cfg.InReg (bitAnd a b) ∧ s.cfg.InReg (bitOr a b) := by decide

theorem witness_ImmediateFormsComplete :
    let s := running .extended { RegFile.zero with acc := -2147483647 } [] 1
    let a := s.regs.get .acc
    (-1 : Int) ≠ 0 ∧ s.cfg.InReg (a + -1) ∧ s.cfg.InReg (a - -1) ∧ s.cfg.InReg (a * -1) ∧
    s.cfg.InReg (tdiv a (-1)) ∧ s.cfg.InReg (fmod a (-1)) ∧ s.cfg.InReg (bitXor a (-1)) ∧
    s.cfg.InReg (bitAnd a (-1)) ∧ s.cfg.InReg (bitOr a (-1)) := by decide

/-- Source and destination are one register. -/
theorem witness_RegisterFormsComplete :
    let s := running .extended { RegFile.zero with ds := -46340 } [] 1
    let a := s.regs.get .ds
    a ≠ 0 ∧ s.cfg.InReg (a + a) ∧ s.cfg.InReg (a - a) ∧ s.cfg.InReg (a * a) ∧
    s.cfg.InReg (tdiv a a) ∧ s.cfg.InReg (fmod a a) ∧ s.cfg.InReg (bitXor a a) ∧
    s.cfg.InReg (bitAnd a a) ∧ s.cfg.InReg (bitOr a a) := by decide

theorem witness_BitwiseFormsNeverFail :
    let s := running .extended { RegFile.zero with acc := -2147483648, in1 := 2147483647 } [] 1
    s.cfg.WidthsOk ∧ s.cfg.InImm 2097151 ∧ s.cfg.InReg (s.regs.get .acc) ∧
      s.cfg.InReg (s.regs.get .in1) := by
  decide

/-- Targets 0 and `N`, and an accumulator for each clause. -/
theorem witness_TakenJumpsComplete :
    let s := running .extended { RegFile.zero with pc := 2 } [] 5
    (0 ≤ s.regs.pc + (-2) ∧ s.regs.pc + (-2) ≤ s.progLen) ∧ (0 ≤ s.regs.pc + 3 ∧
      s.regs.pc + 3 ≤ s.progLen) ∧
    s.regs.acc = 0 ∧ s.regs.acc ≤ 0 ∧ 0 ≤ s.regs.acc ∧
    (running .extended { RegFile.zero with pc := 2, acc := -1 } [] 5).regs.acc ≠ 0 ∧
    (running .extended { RegFile.zero with pc := 2, acc := -1 } [] 5).regs.acc < 0 ∧
    0 < (running .extended { RegFile.zero with pc := 2, acc := 1 } [] 5).regs.acc := by decide

theorem witness_DeniedJumpsComplete :
    let s := fun a : Int => running .extended { RegFile.zero with acc := a } [] 1
    (s 1).regs.acc ≠ 0 ∧ (s 0).regs.acc = 0 ∧ 0 < (s 1).regs.acc ∧ (s (-1)).regs.acc < 0 ∧
    0 ≤ (s 0).regs.acc ∧ (s 0).regs.acc ≤ 0 := by decide

/-- Both bounds: -1 by a plain form, `2^32 + 1` by an offset of a base register wider than 32 bits. -/
theorem witness_AddressErrorsRaise :
    let s := running .extended RegFile.zero [] 1
    let w := { running .extended { RegFile.zero with sp := 4294967296 } [] 1 with
      cfg := { Config.standard .extended with regWidth := 40, cellWidth := 40 } }
    (memAddr (.add .acc (-1)) s = some (-1) ∧ ((-1 : Int) < 0 ∨ s.cfg.addrMax < -1)) ∧
    (memAddr (.storein .sp .acc 1) w = some 4294967297 ∧
      ((4294967297 : Int) < 0 ∨ w.cfg.addrMax < 4294967297)) := by decide

/-- One input for each clause: a bad address, a zero divisor, a result out of range and one in range. -/
theorem witness_ComputeTemplate :
    let s := running .extended { RegFile.zero with acc := -2147483648 } [] 1
    computeParts (.mod .acc (-1)) = some (.mod, .acc, .mem (-1)) ∧ ¬ s.cfg.InAddr (-1) ∧
    computeParts (.div .acc 3) = some (.div, .acc, .mem 3) ∧ s.cfg.InAddr 3 ∧
      s.mem.read (3 : Int).toNat = 0 ∧
    computeParts (.divi .acc (-1)) = some (.div, .acc, .imm (-1)) ∧
    ¬ s.cfg.InReg (AluFn.div.eval (s.regs.get .acc) (-1)) ∧
    computeParts (.addr .acc .in1) = some (.add, .acc, .reg .in1) ∧
    s.cfg.InReg (AluFn.add.eval (s.regs.get .acc) (s.regs.get .in1)) := by decide

/-- Targets -1, 0, `N` and `N + 1`; a relation that holds and one that does not. -/
theorem witness_JumpRules :
    let s := running .extended { RegFile.zero with pc := 2 } [] 5
    (s.regs.pc + (-3) < 0 ∧ 0 ≤ s.regs.pc + (-2) ∧ s.regs.pc + 3 ≤ s.progLen ∧
      s.progLen < s.regs.pc + 4) ∧
    Instr.imm? (.jump 3) = some 3 ∧
    (Instr.imm? (.jumpge 3) = some 3 ∧ condOf (.jumpge 3) = some .ge ∧
      Cond.ge.holds s.regs.acc = true) ∧
    (condOf (.jumplt 3) = some .lt ∧ Cond.lt.holds s.regs.acc = false) := by decide

/-- The ends of the range and the values beyond them; with `M > R` a cell that no register holds, for each
load; and an instruction of every other shape. -/
theorem witness_CheckedRegisterWrite :
    let c := Config.standard .extended
    let s := { running .extended { RegFile.zero with acc := -2147483648, in1 := 7 }
        [(7, 2147483648), (8, 2147483647)] 1 with cfg := { c with cellWidth := 40 } }
    ((-2147483649 : Int) < c.regMin ∧ c.regMax < (2147483648 : Int) ∧ c.InReg (-2147483648) ∧
      c.InReg 2147483647) ∧
    (destValue (.load .sp 7) s = some 2147483648 ∧ destValue (.loadin1 .sp 0) s = some 2147483648 ∧
      destValue (.loadin2 .sp 7) s = some 2147483648 ∧
      destValue (.loadin .in1 .sp 0) s = some 2147483648 ∧
      destValue (.load .pc 8) s = some 2147483647) ∧
    (Instr.dest? (.divi .acc (-1)) = some .acc ∧
      destValue (.divi .acc (-1)) s = some 2147483648 ∧
      destValue (.move .acc .sp) s = some (-2147483648) ∧
      destValue (.loadi .pc 3) s = some 3) := by decide

theorem witness_RaiseRestoresSnapshot :
    let s := running .extended { RegFile.zero with pc := 1 } [] 2
    s.undo = [{ regs := { RegFile.zero with pc := 1 }, mem := [] }] ∧
    ({ s with regs := { RegFile.zero with pc := 1 } } : State).fetch =
      some { line := 1, text := [], instr := .nop } := by decide

/-- Failing by the instruction, and by the controller's own test. -/
theorem witness_FailedStepRollsBack :
    next (serveStep (only (.divi .acc 0))) (fun t => t.failed) = true ∧
    next (serveStep (only (.loadi .pc (-1)))) (fun t => t.failed) = true := by decide

theorem witness_OnlyListedErrors :
    let s := running .extended { RegFile.zero with acc := 2147483647 } [(7, 1)] 1
    s.inStep = true ∧ s.cfg.WidthsOk ∧ s.cfg.cellWidth = s.cfg.regWidth ∧
      regsOk s.cfg s.regs = true ∧
    memOk s.cfg s.mem = true ∧ Instr.fits s.cfg (.add .acc 7) = true ∧ s.msg = .none ∧
    next (exec (.add .acc 7) s) (fun t => t.failed) = true := by decide

/-- For the frames: an instruction of each kind answers a next state inside a Step. -/
theorem witness_RegisterFrame :
    let s := running .extended { RegFile.zero with sp := 9 } [] 2
    s.inStep = true ∧ next (exec (.addi .acc 3) s) (fun _ => true) = true ∧
    (Instr.dest? (.addi .acc 3) ≠ some .sp ∧ Reg.sp ≠ .pc) := by decide

theorem witness_NonStoringMemoryFrame :
    let s := running .extended RegFile.zero [(7, 1)] 2
    s.inStep = true ∧ next (exec (.load .acc 7) s) (fun _ => true) = true ∧
    storeAddr (.load .acc 7) s = none := by decide

theorem witness_StoreFrame :
    let s := running .extended { RegFile.zero with sp := 8, acc := 5 } [(6, 1), (7, 2)] 2
    s.inStep = true ∧ next (exec (.storein .sp .acc (-1)) s) (fun _ => true) = true ∧
    storeAddr (.storein .sp .acc (-1)) s = some 7 ∧ ((6 : Nat) : Int) ≠ 7 := by decide

theorem witness_PcFrame :
    let s := running .extended { RegFile.zero with pc := 1, acc := 1 } [] 2
    s.inStep = true ∧ next (exec (.jumpeq (-9)) s) (fun _ => true) = true ∧
    Instr.dest? (.jumpeq (-9)) ≠ some .pc ∧ takesJump (.jumpeq (-9)) s = false := by decide

theorem witness_ControlStateFrame :
    let s := running .extended { RegFile.zero with acc := 1 } [] 2
    s.cstate = .running ∧ next (exec (.storein .sp .acc 1) s) (fun t => t.cstate == .running)
      = true ∧
    takesJump (.storein .sp .acc 1) s = false ∧ condOf (.storein .sp .acc 1) = none := by decide

/-- Both directions: a write of PC, and a store. -/
theorem witness_SignalRule :
    let s := running .extended RegFile.zero [] 2
    s.cstate = .running ∧ next (exec (.loadi .pc 1) s)
      (fun t => t.cstate == .running && t.signal == .jumped) = true ∧
    next (exec (.store .pc 1) s) (fun t => t.cstate == .running && t.signal == .advance) = true ∧
    (only .nop).shutdown = false ∧ (only .nop).cstate = .awaitingStep ∧
      (only .nop).fetch ≠ none := by decide

theorem witness_MemoryReads :
    let s := running .extended RegFile.zero [(0, 0), (4294967296, -2147483648)] 1
    memOk s.cfg s.mem = true ∧ s.cfg.InAddr (4294967296 : Nat) ∧
    s.mem.find 4294967296 = some (-2147483648) ∧ s.cfg.InReg (s.mem.read 4294967296) ∧
    s.cfg.InAddr (1 : Nat) ∧ s.mem.find 1 = none := by decide

theorem witness_MemoryWrites :
    let c := Config.standard .extended
    let m : Memory := [(0, 0), (4294967296, -2147483648)]
    c.WidthsOk ∧ memOk c m = true ∧ c.InAddr (4294967296 : Nat) ∧ c.InReg 0 ∧
      (0 : Nat) ≠ 4294967296 := by decide

theorem witness_StoreThenLoad :
    let s := running .extended { RegFile.zero with sp := -2147483648 } [] 2
    s.cfg.InAddr 4294967296 ∧ s.cfg.InReg (s.regs.get .sp) ∧
    next (exec (.store .sp 4294967296) s) (fun _ => true) = true := by decide

theorem witness_UnassignedCellLoadsZero :
    let s := running .extended RegFile.zero [(3, 1)] 2
    s.cfg.InAddr 4294967296 ∧ s.mem.find (4294967296 : Int).toNat = none := by decide

/-- Two orders of writing give one list. -/
theorem witness_MemoryExtensional :
    let m := Memory.write (Memory.write [] 1 5) 0 7
    let m' := Memory.write (Memory.write [] 0 7) 1 5
    m.wf = true ∧ m'.wf = true ∧ ∀ a, m.find a = m'.find a := ⟨by decide, by decide, fun _ => rfl⟩

theorem witness_DivisionLaws :
    let c := Config.standard .extended
    (-1 : Int) ≠ 0 ∧ c.InReg (-2147483648) ∧ c.InReg (-1) := by decide

theorem witness_BitwiseLaws :
    let c := Config.standard .extended
    1 ≤ 32 ∧ -signedBound 32 ≤ (-2147483648 : Int) ∧ (-2147483648 : Int) < signedBound 32 ∧
    -signedBound 32 ≤ (2147483647 : Int) ∧ (2147483647 : Int) < signedBound 32 ∧ c.WidthsOk ∧
    c.InReg (-2147483648) ∧ c.InReg 2147483647 := by decide

theorem witness_AllOnesMask :
    let s := running .extended { RegFile.zero with baf := -2147483648 } [] 1
    s.cfg.InReg (s.regs.get .baf) := by decide

/-- The same machine state with another undo stack and other messages. -/
theorem witness_ControllerInvisible :
    let s := running .extended { RegFile.zero with acc := 1 } [] 2
    let s' := { s with undo := [], msg := .undone, dbg := .jumpTaken 0 0 }
    s.cfg = s'.cfg ∧ s.regs = s'.regs ∧ s.mem = s'.mem ∧ s.progLen = s'.progLen ∧
      s.cstate = .running ∧
    s'.cstate = .running ∧ next (exec (.addi .acc 1) s) (fun t => t.cstate == .running) = true
      := by decide

theorem witness_NegativePcFailsStep :
    let s := only (.subi .pc 1)
    s.prog ≠ [] ∧ s.shutdown = false ∧ s.cstate = .awaitingStep ∧
    s.fetch = some { line := 1, text := "X".toList, instr := .subi .pc 1 } ∧
    next (exec (.subi .pc 1) s.beginStep) (fun t =>
      t.cstate == .running && decide (t.autoAdvance.regs.pc < 0)) = true := by decide

theorem witness_SentinelTerminates :
    let s := only (.jump 0)
    s.shutdown = false ∧ s.cstate = .awaitingStep ∧
    s.fetch = some { line := 1, text := "X".toList, instr := .jump 0 } := by decide

/-- By the auto-advance to `N`, by a jump to `N`, and by a write of PC past it. -/
theorem witness_EndOfProgramEnds :
    (only .nop).prog ≠ [] ∧ (only .nop).shutdown = false ∧ (only .nop).cstate = .awaitingStep ∧
    (only .nop).fetch = some { line := 1, text := "X".toList, instr := .nop } ∧
      Instr.nop ≠ .jump 0 ∧
    next (exec .nop (only .nop).beginStep) (fun t =>
      t.cstate == .running && t.signal == .advance && (only .nop).progLen == t.regs.pc + 1) = true ∧
    next (exec (.jump 1) (only (.jump 1)).beginStep) (fun t =>
      t.cstate == .running && t.signal == .jumped && (only (.jump 1)).progLen == t.regs.pc) = true ∧
    next (exec (.loadi .pc 5) (only (.loadi .pc 5)).beginStep) (fun t =>
      t.cstate == .running && t.signal == .jumped && t.regs.pc == 5) = true := by decide

/-- By a jump to itself, and by the auto-advance in a program of two records. -/
theorem witness_StepContinues :
    (only (.jumpeq 0)).prog ≠ [] ∧ (only (.jumpeq 0)).shutdown = false ∧
    (only (.jumpeq 0)).cstate = .awaitingStep ∧
    (only (.jumpeq 0)).fetch = some { line := 1, text := "X".toList, instr := .jumpeq 0 } ∧
    Instr.jumpeq 0 ≠ .jump 0 ∧
    next (exec (.jumpeq 0) (only (.jumpeq 0)).beginStep) (fun t =>
      t.cstate == .running && t.signal == .jumped && t.regs.pc == 0) = true ∧
    next (exec .nop (waiting .minimal RegFile.zero [] (nops 2)).beginStep) (fun t =>
      t.cstate == .running && t.signal == .advance && t.regs.pc == 0 && t.progLen == 2) = true
        := by decide

theorem witness_RequestPreconditions :
    State.reset.prog = [] ∧ (only .nop).prog ≠ [] ∧
      ({ only .nop with shutdown := true }).shutdown = true ∧
    ({ only .nop with cstate := .terminated }).cstate = .terminated ∧ (only .nop).shutdown = false ∧
    (only .nop).beginStep.cstate = .running ∧ (only .nop).beginStep.prog ≠ [] := by decide

theorem witness_NoInternalFault :
    let s := only .nop
    s.inv = true ∧ s.prog ≠ [] ∧ s.shutdown = false ∧ s.cstate = .awaitingStep := by decide

theorem witness_UndoEmptyStack :
    let s := only .nop
    s.prog ≠ [] ∧ s.shutdown = false ∧ s.cstate ≠ .running ∧ s.undo = [] := by decide

theorem witness_UndoRestoresSnapshot :
    let s := { only .nop with cstate := .terminated, undo := [{ regs := RegFile.zero, mem := [] }] }
    s.prog ≠ [] ∧ s.shutdown = false ∧ s.cstate ≠ .running ∧
    s.undo = { regs := RegFile.zero, mem := [] } :: [] := by decide

theorem witness_UndoDepth :
    next (serveStep (only .nop)) (fun t => t.stepped) = true ∧
    next (serveStep (only (.jump 2))) (fun t => !t.stepped) = true := by decide

/-- Two Steps, the second of which ends the run. -/
theorem witness_UndoReturnsToStart :
    let s := waiting .extended RegFile.zero [(1, 2)]
      [{ line := 1, text := [], instr := .store .acc 1 }, { line := 2, text := [], instr := .jump 0 }]
    s.prog ≠ [] ∧ s.shutdown = false ∧ s.cstate = .awaitingStep ∧ s.undo = [] ∧
    next (steps 2 s) (fun t => t.undo.length == 2) = true := by decide

/-- States of the invariant whose step answers a next state: a Step, an Undo and a Load. -/
theorem witness_StepKeepsInvariant :
    ((only .nop).inv = true ∧ next (step (only .nop)) (fun _ => true) = true) ∧
    (({ only .nop with requests := [.undo] }).inv = true ∧
      next (step { only .nop with requests := [.undo] }) (fun _ => true) = true) ∧
    (({ State.reset with requests := [.load (textInput .minimal "NOP" .absent)] }).inv = true ∧
      next (step { State.reset with requests := [.load (textInput .minimal "NOP" .absent)] })
        (fun t => t.prog != []) = true) := by decide

theorem witness_ProgramAndModeKept :
    next (serveStep (only .nop)) (fun _ => true) = true ∧
    next (serveUndo (only .nop)) (fun _ => true) = true ∧ (only .nop).cstate ≠ .running := by decide

/-- Both clauses, with a `REG_INIT` at the ends of the range. -/
theorem witness_SuccessfulLoadState :
    let inp := { textInput .extended "JUMP 0" (InitMem.ofCells [(0, -2147483648)]) with
      regInit := [(.sp, 2147483647), (.acc, -2147483648)] }
    checkConfig inp.cfg = none ∧ regInitOk inp.cfg inp.regInit = true ∧
    readProgram inp.cfg inp.source =
      .ok [{ line := 1, text := "JUMP 0".toList, instr := .jump 0 }] ∧
    ((1 : Nat) : Int) ≤ inp.cfg.regMax ∧
    readInitMem inp.cfg inp.initMem = .ok [(0, -2147483648)] ∧
    loads inp (fun s => s.regs == { RegFile.zero with acc := -2147483648, sp := 2147483647 }) = true :=
  ⟨by decide, by decide, rfl, by decide, rfl, by decide⟩

/-- A configuration for each side, and for each constraint one that breaks it. -/
theorem witness_ConfigurationAccepted :
    let c := Config.standard .extended
    checkConfig c = none ∧
    checkConfig { c with immWidth := 32 } = some .widths ∧
    checkConfig { c with commentMarker := "; ".toList } = some .commentMarker ∧
    checkConfig { c with optable :=
      [{ name := "nop".toList, op := .nop, kinds := [] },
        { name := "NOP".toList, op := .jump, kinds := [.int] }] } = some .optableFold ∧
    checkConfig { c with optable := [{ name := "NOP".toList, op := .nop, kinds := [.int] }] } =
      some .optableKinds ∧
    checkConfig { c with regNames := defaultRegNames .minimal } = some .regNames := by decide

theorem witness_FailedLoadLeavesNoProgram :
    loadFails (textInput .extended "JUMP 0" (.notAMap [])) (.malformedInitialMemory (.other
      [])) = true := by
  decide

theorem witness_InitialMemoryValidated :
    let c := Config.standard .extended
    let kvs : List (Nat × Int) := [(0, -2147483648), (4294967296, 2147483647)]
    (∀ p ∈ kvs, c.InAddr p.1 ∧ c.InCell p.2) ∧ (kvs.map Prod.fst).Nodup ∧
    (match readInitMem c (InitMem.ofCells kvs) with
      | .ok m => m == kvs
      | .error _ => false) = true ∧
    (match readInitMem c (InitMem.ofCells [(4294967297, 0)]) with
      | .ok _ => false
      | .error _ => true) = true ∧
    (match readInitMem c (InitMem.ofCells [(3, 1), (3, 1)]) with
      | .ok _ => false
      | .error e => e == .malformedInitialMemory (.int 3)) = true := by decide

/-- Two lines that spell instructions: lower case with blanks around, and a terminator. -/
def spelled : List SpelledLine :=
  [{ lead := " ".toList
     row := { name := "LOADIN".toList, op := .loadin, kinds := [.reg, .reg, .int] }
     name := "loadin".toList
     args := [{ gap := " ".toList, token := "sp".toList, val := .reg .sp },
       { gap := "\t ".toList, token := "ACC".toList, val := .reg .acc },
       { gap := " ".toList, token := "-2097152".toList, val := .int (-2097152) }]
     trail := "\r".toList
     closed := false },
   { lead := []
     row := { name := "JUMP".toList, op := .jump, kinds := [.int] }
     name := "JUMP".toList
     args := [{ gap := " ".toList, token := "+2097151".toList, val := .int 2097151 }]
     trail := [], closed := true }]

/-- A parsed text, and lines that spell instructions. -/
theorem witness_ParsedRecordsWellFormed :
    checkConfig (Config.standard .minimal) = none ∧
    parses (Config.standard .minimal) "STORE 3" [(1, "STORE 3", .storea 3)] = true ∧
    checkConfig (Config.standard .extended) = none ∧ spelled ≠ [] ∧
    (∀ l ∈ spelled, l.Ok (Config.standard .extended)) ∧
    programText spelled = " loadin sp\t ACC -2097152\r\nJUMP +2097151;".toList := by
  refine ⟨by decide, by decide, by decide, by decide, ?_, by decide⟩
  intro l hl
  simp only [spelled, List.mem_cons, List.not_mem_nil, or_false] at hl
  rcases hl with rfl | rfl <;> constructor <;> decide

/-- A trailing comment, a comment line, and a line put in before the second of two. -/
theorem witness_CommentsAndBlankLinesSkipped :
    let c := Config.standard .extended
    checkConfig c = none ∧ isBlank " \t".toList = true ∧
    ¬ c.commentMarker <:+: "NOP ".toList ++ c.commentMarker.dropLast ∧
    passALine c 7 "NOP # x".toList = .ok (some (7, "NOP".toList)) ∧
    (∀ n, passALine c n "  # x".toList = .ok none) ∧
    (∀ l ∈ ["# x".toList, "NOP".toList, "JUMP 0".toList], '\n' ∉ l) ∧
    parses c "NOP\nJUMP 0" [(1, "NOP", .nop), (2, "JUMP 0", .jump 0)] = true ∧
    parses c "NOP\n # x\nJUMP 0" [(1, "NOP", .nop), (3, "JUMP 0", .jump 0)] = true := by
  refine ⟨by decide, by decide, by decide, rfl, fun _ => rfl, by decide, by decide, by decide⟩

/-- An error of each pass, in Pass A with a lower line that passes; Pass A before Pass B, and Pass B on
line 2 before Pass C on line 1. -/
theorem witness_ParseErrorsNameTheirLine :
    let c := { Config.standard .minimal with requireTerminator := true }
    parseFails c "FOO;\nNOP" (.missingTerminator 2 "NOP".toList) = true ∧
    parseFails c "NOP 1;\nFOO;" (.unknownOpcode 2 "FOO".toList "FOO".toList (c.optable.map (·.name)))
      = true ∧
    parseFails c "NOP;\nNOP 1;" (.arityMismatch 2 "NOP 1".toList [] 1) = true ∧
    parseFails c "\n;" .emptyProgram = true := by decide

theorem witness_IntegerLiteralGrammar :
    let c := Config.standard .extended
    checkConfig c = none ∧ readInt "-007".toList = some (-7) ∧ readInt "1_000".toList = none ∧
    ("IN1".toList, Reg.in1) ∈ c.regNames ∧
      nameMatches c.registerCaseSensitive "IN1".toList "in1".toList = true ∧
    "007".toList ≠ [] ∧ ("007".toList.all fun x => decide (48 ≤ x.toNat ∧
      x.toNat ≤ 57)) = true := by decide

end Sys2Proof.Tests
end

section
/-! PROOFS of the family 10_state: the checked register write (R23), and a block without a program
(R46). -/

namespace Sys2Proof.Machine

/-! ### The checked register write -/

/-- An operand whose value can be read is read as that value. -/
theorem withOperand_of_operandValue {o : Operand} {s : State} {b : Int}
    (h : operandValue o s = some b) (k : Int → Out) : withOperand o s k = k b := by
  cases o with
  | mem n =>
    simp only [operandValue, Option.ite_none_right_eq_some, Option.some.injEq] at h
    obtain ⟨ha, rfl⟩ := h
    exact if_pos ha
  | imm n => cases h; rfl
  | reg r => cases h; rfl

theorem loadCell_eq_writeReg {a v : Int} {s : State} (h : operandValue (.mem a) s = some v)
    (op : Op) (d : Reg) : loadCell op d a s = writeReg op d v s :=
  withOperand_of_operandValue h fun b => writeReg op d b s

theorem AluFn.divides_iff (f : AluFn) : f.divides = true ↔ f = .div ∨ f = .mod := by
  cases f <;> simp [AluFn.divides]

theorem compute_eq_writeReg {o : Operand} {s : State} {b : Int} {f : AluFn}
    (h : operandValue o s = some b) (hz : ¬ ((f = .div ∨ f = .mod) ∧ b = 0)) (op : Op) (d : Reg) :
    compute op f d o s = writeReg op d (f.eval (s.regs.get d) b) s := by
  rw [← f.divides_iff] at hz
  exact (withOperand_of_operandValue h _).trans (if_neg hz)

/-- The loads, LOADI and MOVE are the checked write of the value they move. -/
theorem exec_eq_writeReg_of_movedValue {i : Instr} {s : State} {d : Reg} {v : Int}
    (hd : i.dest? = some d) (hv : movedValue i s = some v) : exec i s = writeReg i.op d v s := by
  cases i with
  | load | loadin1 | loadin2 | loadin => cases hd; exact loadCell_eq_writeReg hv _ _
  | loadi | move => cases hd; cases hv; rfl
  | _ => cases hv

/-- Every instruction that has a value for its destination register is the checked write of it. -/
theorem exec_eq_writeReg_of_destValue {i : Instr} {s : State} {d : Reg} {v : Int}
    (hd : i.dest? = some d) (hv : destValue i s = some v) : exec i s = writeReg i.op d v s := by
  unfold destValue at hv
  split at hv
  case h_1 => exact exec_eq_writeReg_of_movedValue hd hv
  case h_2 f d' o hp =>
    obtain rfl : d' = d := Option.some.inj ((parts_of_compute hp s).1.symm.trans hd)
    split at hv
    · cases hv
    · next b hb =>
      split at hv
      · cases hv
      · next hz =>
        cases hv
        exact (exec_computeParts hp s).trans (compute_eq_writeReg hb hz i.op _)

/-- What the checked write does on each side of `RANGE_R`. -/
theorem writeReg_checked (op : Op) (r : Reg) (v : Int) (s : State) :
    ((v < s.cfg.regMin ∨ s.cfg.regMax < v) →
      writeReg op r v s = raise (.registerOverflow r op v) s) ∧
    (s.cfg.InReg v → writeReg op r v s = .next { s with
      regs := s.regs.set r v
      signal := if r = .pc then .jumped else .advance }) := by
  rcases writeReg_cases op r v s with ⟨hr, h⟩ | ⟨hr, h⟩
  · exact ⟨fun hout => absurd hr (by omega), fun _ => h⟩
  · exact ⟨fun _ => h, fun hin => absurd hin hr⟩

/-- Settles O21: every instruction with a destination register is one checked write of its value. -/
theorem checkedRegisterWrite : Obligations.CheckedRegisterWrite := by
  refine ⟨fun f r v => ⟨f.get_set_self r v, fun q hq => f.get_set_ne v hq⟩, writeReg_checked, ?_⟩
  intro i s d v hd hv
  rw [exec_eq_writeReg_of_destValue hd hv]
  exact writeReg_checked i.op d v s

/-! ### A block without a program -/

theorem serveStep_of_prog_nil {s : State} (h : s.prog = []) : serveStep s = .refused .noProgram :=
  if_pos h

theorem serveUndo_of_prog_nil {s : State} (h : s.prog = []) : serveUndo s = .refused .noProgram :=
  if_pos h

theorem serveLoad_of_error {inp : LoadInput} {e : LoadError} (h : load inp = .error e) (s : State) :
    serveLoad inp s = .next { State.reset with loadError := some e, requests := s.requests } := by
  simp only [serveLoad, h]

/-- Settles O54: a failed Load leaves the reset state but for its answer and the requests to come. -/
theorem failedLoadLeavesNoProgram : Obligations.FailedLoadLeavesNoProgram := by
  refine ⟨⟨serveStep_of_prog_nil rfl, serveUndo_of_prog_nil rfl⟩, fun inp s e h => ?_⟩
  exact ⟨_, serveLoad_of_error h s, rfl, rfl, serveStep_of_prog_nil rfl, serveUndo_of_prog_nil rfl⟩

end Sys2Proof.Machine
end

section
/-! PROOFS of the family 20_memory: what a read of a cell gives (R53). -/

namespace Sys2Proof.Machine

theorem Memory.read_of_find_some {m : Memory} {a : Nat} {v : Int} (h : m.find a = some v) :
    m.read a = v := by
  simp [Memory.read, h]

theorem inCell_zero (c : Config) : c.InCell 0 := by
  have hpos := signedBound_pos c.cellWidth
  unfold Config.InCell Config.cellMin Config.cellMax
  omega

/-- Every read of a legal memory gives a cell value, at an assigned cell and at any other. -/
theorem inCell_read {c : Config} {m : Memory} (h : memOk c m = true) (a : Nat) :
    c.InCell (m.read a) := by
  obtain ⟨hwf, hcells⟩ := (memOk_iff c m).mp h
  cases hf : m.find a with
  | none => rw [Memory.read_of_find_none hf]; exact inCell_zero c
  | some v =>
    rw [Memory.read_of_find_some hf]
    exact (hcells _ ((Memory.find_eq_some_iff hwf a v).mp hf)).2

/-- A LOAD of a legal cell whose value fits a register is the write of that value. -/
theorem exec_load_of_inReg {s : State} {n : Int} (ha : s.cfg.InAddr n)
    (hr : s.cfg.InReg (s.mem.read n.toNat)) (d : Reg) :
    exec (.load d n) s =
      .next { s with regs := s.regs.set d (s.mem.read n.toNat), signal := writeSignal d } := by
  have hv : movedValue (.load d n) s = some (s.mem.read n.toNat) := if_pos ha
  exact (exec_eq_writeReg_of_movedValue rfl hv).trans (if_pos hr)

/-- Settles O31, by whether the cell is assigned; the LOAD by its equation `exec_load_of_inReg`. -/
theorem memoryReads : Obligations.MemoryReads := by
  intro s d a hm ha
  exact ⟨fun _ => Memory.read_of_find_some, Memory.read_of_find_none, inCell_read hm a,
    fun hr => ⟨_, exec_load_of_inReg ha hr d, RegFile.get_set_self _ _ _, rfl⟩⟩

end Sys2Proof.Machine
end

section
/-! PROOFS of the family 45_controller: the end of the program (R228), the rollback of a failed Step
(R226), and Undo (R231, R233). -/

namespace Sys2Proof.Machine

/-! ### What an instruction that succeeds may change -/

/-- `t` is `s` but for the parts of the state an instruction that succeeds may write. -/
def Affects (s t : State) : Prop :=
  ∃ f m g d, t = { s with regs := f, mem := m, signal := g, dbg := d }

theorem Affects.refl (s : State) : Affects s s := ⟨_, _, _, _, rfl⟩

theorem Affects.autoAdvance {s t : State} (h : Affects s t) : Affects s t.autoAdvance := by
  obtain ⟨f, m, g, d, rfl⟩ := h
  cases g <;> exact ⟨_, _, _, _, rfl⟩

/-- An instruction that answers a next state has raised an error, or only written its effect. -/
theorem exec_next_cases {i : Instr} {s t : State} (h : exec i s = .next t) :
    (t.cstate = .awaitingStep ∧ ∃ e, exec i s = raise e s) ∨ Affects s t := by
  rcases exec_eq_next h with ⟨e, p, rest, he, -, rfl⟩ | ⟨_, _, _, _, _, _, _, rfl⟩ |
    ⟨_, _, _, _, _, _, _, rfl⟩ | ⟨_, _, _, _, _, _, _, rfl⟩ | ⟨_, _, _, _, rfl⟩ | ⟨_, rfl⟩
  · exact .inl ⟨rfl, e, he⟩
  all_goals exact .inr ⟨_, _, _, _, rfl⟩

theorem affects_of_running {i : Instr} {s t : State} (h : exec i s = .next t)
    (hr : t.cstate = .running) : Affects s t := by
  rcases exec_next_cases h with ⟨hw, -⟩ | ha
  · rw [hr] at hw; cases hw
  · exact ha

/-! ### The end of the program -/

/-- Auto-advance sets PC to the value the signal asks for, and changes nothing else. -/
theorem State.autoAdvance_eq {t : State} {pc : Int} (ha : t.signal = .advance → pc = t.regs.pc + 1)
    (hj : t.signal = .jumped → pc = t.regs.pc) :
    t.autoAdvance = { t with regs := t.regs.set .pc pc } := by
  unfold State.autoAdvance
  split
  · next hg => rw [ha hg]
  · next hg =>
    have hset : t.regs.set .pc t.regs.pc = t.regs := RegFile.set_get_self t.regs .pc
    rw [hj hg, hset]

/-- A Step whose instruction succeeds goes on to the tests of PC. -/
theorem serveStep_of_running {s t : State} {rec : Record} (h1 : s.shutdown = false)
    (h2 : s.cstate = .awaitingStep) (h3 : s.fetch = some rec)
    (h4 : exec rec.instr s.beginStep = .next t) (h5 : t.cstate = .running) :
    serveStep s = finishStep rec t := by
  rw [serveStep_of_fetch h1 h2 h3]
  simp only [runRecord, h4, h5, if_true]

theorem isSentinel_eq_false {i : Instr} (h : i ≠ .jump 0) : isSentinel i = false := by
  simpa [isSentinel] using h

theorem State.progLen_nonneg (s : State) : 0 ≤ s.progLen := Int.natCast_nonneg _

/-- Settles O42: of the four ends of a Step in `finishStep_cases`, only that of the end of the program
meets the hypotheses. -/
theorem endOfProgramEnds : Obligations.EndOfProgramEnds := by
  intro s t rec pc _ hlatch hwait hfetch hinstr hexec hrun hadv hjmp hend
  have hauto := State.autoAdvance_eq hadv hjmp
  have hpc : t.autoAdvance.regs.pc = pc := by rw [hauto]; rfl
  have hsent := isSentinel_eq_false hinstr
  obtain ⟨f, m, g, d, ht⟩ := affects_of_running hexec hrun
  have hundo : t.undo = ⟨s.regs, s.mem⟩ :: s.undo := by rw [ht]; rfl
  have hlen : t.progLen = s.progLen := by rw [ht]; rfl
  have hpos := s.progLen_nonneg
  rw [serveStep_of_running hlatch hwait hfetch hexec hrun]
  rcases finishStep_cases rec t with ⟨hneg, -⟩ | ⟨-, hs, -⟩ | ⟨-, -, -, h⟩ | ⟨-, -, hin, -⟩
  · omega
  · rw [hsent] at hs; cases hs
  · rw [h, hauto, ← hundo]
  · omega

/-! ### The outcomes of a Step -/

/-- The state before a Step of `rec` that failed with `e`, after the rollback
(45_controller.md R226). -/
def State.rolledBack (s : State) (e : RunError) (rec : Record) : State :=
  { s with
    msg := .error e rec.line rec.text
    dbg := .none
    cstate := .awaitingStep
    signal := .advance }

/-- The error names the instruction that PC indexes after the rollback. -/
theorem raised_of_fetch {e : RunError} {s : State} {p : Snapshot} {rest : List Snapshot} {rec : Record}
    (h : (s.restore p rest).fetch = some rec) :
    raised e s p rest = (s.restore p rest).rolledBack e rec := by
  simp only [raised, State.faultSite, h, State.rolledBack]

/-- An error raised anywhere inside a Step rolls the whole Step back. -/
theorem raise_of_affects {s u : State} {rec : Record} (hf : s.fetch = some rec)
    (hu : Affects s.beginStep u) (e : RunError) : raise e u = .next (s.rolledBack e rec) := by
  obtain ⟨f, m, g, d, rfl⟩ := hu
  rw [raise_of_undo (p := ⟨s.regs, s.mem⟩) (rest := s.undo) rfl, raised_of_fetch (rec := rec)]
  · rfl
  · exact hf

/-- The Step of `rec` on `s` fails with `e`: the instruction raises it, or leaves a negative PC. -/
def StepFails (s : State) (rec : Record) (e : RunError) : Prop :=
  exec rec.instr s.beginStep = raise e s.beginStep ∨
    ∃ u, exec rec.instr s.beginStep = .next u ∧ u.cstate = .running ∧
      u.autoAdvance.regs.pc < 0 ∧ e = .negativePC u.autoAdvance.regs.pc

/-- What a Step that succeeds leaves of the state before it: the snapshot is on the stack; program,
configuration and latch stay; the controller rests and the message says that the Step succeeded. -/
structure StepSucceeds (s t : State) : Prop where
  undo : t.undo = ⟨s.regs, s.mem⟩ :: s.undo
  prog : t.prog = s.prog
  cfg : t.cfg = s.cfg
  shutdown : t.shutdown = s.shutdown
  rests : t.cstate ≠ .running
  stepped : t.stepped = true

/-- A successful instruction's Step ends in a failure of the PC test or succeeds. -/
theorem finishStep_next {s u t : State} {rec : Record} (hf : s.fetch = some rec)
    (hu : Affects s.beginStep u) (h : finishStep rec u = .next t) :
    (u.autoAdvance.regs.pc < 0 ∧ t = s.rolledBack (.negativePC u.autoAdvance.regs.pc) rec) ∨
      StepSucceeds s t := by
  rcases finishStep_cases rec u with ⟨hneg, h'⟩ | ⟨-, -, h'⟩ | ⟨-, -, -, h'⟩ | ⟨-, -, -, h'⟩
  · rw [h', raise_of_affects hf hu.autoAdvance] at h
    cases h
    exact .inl ⟨hneg, rfl⟩
  all_goals
    obtain ⟨f, m, g, d, ha⟩ := hu.autoAdvance
    rw [h', ha] at h
    cases h
    exact .inr ⟨rfl, rfl, rfl, rfl, nofun, rfl⟩

/-- The Step of a fetched record fails, and is rolled back, or succeeds. -/
theorem runRecord_next {s t : State} {rec : Record} (hf : s.fetch = some rec)
    (h : runRecord rec s.beginStep = .next t) :
    (∃ e, StepFails s rec e ∧ t = s.rolledBack e rec) ∨ StepSucceeds s t := by
  unfold runRecord at h
  cases hx : exec rec.instr s.beginStep with
  | fault f => rw [hx] at h; cases h
  | refused r => rw [hx] at h; cases h
  | next u =>
    simp only [hx] at h
    rcases exec_next_cases hx with ⟨hw, e, he⟩ | hu
    · rw [he, raise_of_affects hf (.refl _)] at hx
      rw [hw, if_neg nofun] at h
      cases hx; cases h
      exact .inl ⟨e, .inl he, rfl⟩
    · have hrun : u.cstate = .running := by obtain ⟨_, _, _, _, rfl⟩ := hu; rfl
      rw [if_pos hrun] at h
      exact (finishStep_next hf hu h).imp_left fun ⟨hneg, ht⟩ =>
        ⟨_, .inr ⟨u, hx, hrun, hneg, rfl⟩, ht⟩

/-- Everything a Step that answers a next state has done: it failed and was rolled back, it succeeded,
or no instruction ran and the machine state and the undo stack stay. -/
theorem serveStep_next {s t : State} (h : serveStep s = .next t) :
    (∃ e rec, s.shutdown = false ∧ s.cstate = .awaitingStep ∧ s.fetch = some rec ∧
      StepFails s rec e ∧ t = s.rolledBack e rec) ∨
    StepSucceeds s t ∨
    t = { s with msg := .alreadyTerminated, dbg := .none } ∨ t = s.internalFault := by
  rcases serveStep_cases s with ⟨-, h'⟩ | ⟨-, -, h'⟩ | ⟨-, -, -, h'⟩ | ⟨-, -, -, h'⟩ |
    ⟨-, -, -, -, h'⟩ | ⟨-, hlatch, hwait, rec, hf, h'⟩
  all_goals rw [h'] at h
  · cases h
  · cases h
  · cases h; exact .inr (.inr (.inl rfl))
  · cases h
  · cases h; exact .inr (.inr (.inr rfl))
  · rcases runRecord_next hf h with ⟨e, hfail, ht⟩ | hs
    · exact .inl ⟨e, rec, hlatch, hwait, hf, hfail, ht⟩
    · exact .inr (.inl hs)

/-! ### The rollback of a failed Step -/

/-- A Step clears the fields a rollback sets, so the rolled-back state is served like the state before. -/
theorem serveStep_rolledBack {s : State} {rec : Record} (hlatch : s.shutdown = false)
    (hwait : s.cstate = .awaitingStep) (hf : s.fetch = some rec) (e : RunError) :
    serveStep (s.rolledBack e rec) = serveStep s :=
  calc serveStep (s.rolledBack e rec)
    _ = runRecord rec (s.rolledBack e rec).beginStep := serveStep_of_fetch hlatch rfl hf
    _ = runRecord rec s.beginStep := rfl
    _ = serveStep s := (serveStep_of_fetch hlatch hwait hf).symm

theorem StepSucceeds.not_failed {s t : State} (h : StepSucceeds s t) : t.failed = false := by
  have hstep := h.stepped
  cases hm : t.msg with
  | error => simp [State.stepped, hm] at hstep
  | _ => simp only [State.failed, hm]

/-- Settles O23: of the outcomes in `serveStep_next` only the rollback has an error as its message. -/
theorem failedStepRollsBack : Obligations.FailedStepRollsBack := by
  intro s t h hfailed
  rcases serveStep_next h with ⟨e, rec, hlatch, hwait, hf, hfail, rfl⟩ | hs | rfl | rfl
  · exact ⟨e, rec, hf, hfail, rfl, rfl, (serveStep_rolledBack hlatch hwait hf e).trans h⟩
  · rw [hs.not_failed] at hfailed; cases hfailed
  · cases hfailed
  · cases hfailed

/-! ### Undo -/

theorem serveUndo_of_undo_nil {s : State} (hp : s.prog ≠ []) (hl : s.shutdown = false)
    (hc : s.cstate ≠ .running) (hu : s.undo = []) :
    serveUndo s = .next { s with msg := .nothingToUndo, dbg := .none } := by
  simp [serveUndo, hp, hl, hc, hu]

theorem serveUndo_of_undo_cons {s : State} {p : Snapshot} {rest : List Snapshot} (hp : s.prog ≠ [])
    (hl : s.shutdown = false) (hc : s.cstate ≠ .running) (hu : s.undo = p :: rest) :
    serveUndo s =
      .next { s.restore p rest with cstate := .awaitingStep, msg := .undone, dbg := .none } := by
  simp [serveUndo, hp, hl, hc, hu]

/-- Settles O46: the branch of Undo that finds no snapshot. -/
theorem undoEmptyStack : Obligations.UndoEmptyStack :=
  fun _ => serveUndo_of_undo_nil

/-! ### Undo after Steps -/

/-- `u` stands where `s` stood, but for the messages and the signal; the controller may wait where it
was terminated. -/
structure BackAt (s u : State) : Prop where
  regs : u.regs = s.regs
  mem : u.mem = s.mem
  undo : u.undo = s.undo
  prog : u.prog = s.prog
  cfg : u.cfg = s.cfg
  shutdown : u.shutdown = s.shutdown
  cstate : u.cstate = s.cstate ∨ u.cstate = .awaitingStep

theorem BackAt.refl (s : State) : BackAt s s := ⟨rfl, rfl, rfl, rfl, rfl, rfl, .inl rfl⟩

theorem BackAt.rests {s u : State} (h : BackAt s u) (hs : s.cstate ≠ .running) :
    u.cstate ≠ .running := by
  rcases h.cstate with hc | hc <;> rw [hc]
  · exact hs
  · nofun

/-- One Undo takes back one successful Step. -/
theorem StepSucceeds.undone {s t u : State} (hst : StepSucceeds s t) (htu : BackAt t u)
    (hp : s.prog ≠ []) (hl : s.shutdown = false) : ∃ v, serveUndo u = .next v ∧ BackAt s v := by
  have hprog : u.prog = s.prog := htu.prog.trans hst.prog
  have hlatch : u.shutdown = s.shutdown := htu.shutdown.trans hst.shutdown
  exact ⟨_, serveUndo_of_undo_cons (hprog ▸ hp) (hlatch.trans hl) (htu.rests hst.rests)
      (htu.undo.trans hst.undo),
    rfl, rfl, rfl, hprog, htu.cfg.trans hst.cfg, hlatch, .inr rfl⟩

/-- A Step pushes at most one snapshot, and pushes it only if it succeeds. -/
theorem serveStep_undo_length {s t : State} (h : serveStep s = .next t) :
    StepSucceeds s t ∧ t.undo.length = s.undo.length + 1 ∨ t.undo.length = s.undo.length := by
  rcases serveStep_next h with ⟨e, rec, _, _, _, _, rfl⟩ | hs | rfl | rfl
  · exact .inr rfl
  · exact .inl ⟨hs, by rw [hs.undo]; rfl⟩
  · exact .inr rfl
  · exact .inr rfl

theorem steps_succ_next {n : Nat} {s t : State} (h : steps (n + 1) s = .next t) :
    ∃ u, serveStep s = .next u ∧ steps n u = .next t := by
  unfold steps at h
  cases hs : serveStep s with
  | next u => rw [hs] at h; exact ⟨u, rfl, h⟩
  | fault f => rw [hs] at h; cases h
  | refused r => rw [hs] at h; cases h

theorem steps_undo_length_le {n : Nat} {s t : State} (h : steps n s = .next t) :
    t.undo.length ≤ s.undo.length + n := by
  induction n generalizing s with
  | zero => cases h; exact Nat.le_refl _
  | succ n ih =>
    obtain ⟨u, hu, hrest⟩ := steps_succ_next h
    have hle := ih hrest
    rcases serveStep_undo_length hu with ⟨-, hlen⟩ | hlen <;> omega

/-- Undo requests are served in order, so the last of them comes after all the others. -/
theorem undos_succ {n : Nat} {s t : State} (h : undos n s = .next t) :
    undos (n + 1) s = serveUndo t := by
  induction n generalizing s with
  | zero => cases h; unfold undos; cases serveUndo t <;> rfl
  | succ n ih =>
    unfold undos at h ⊢
    cases hs : serveUndo s with
    | next u => rw [hs] at h; exact ih h
    | fault f => rw [hs] at h; cases h
    | refused r => rw [hs] at h; cases h

/-- As many Undo requests as there were Steps lead back, if every Step pushed a snapshot. -/
theorem undos_after_steps {n : Nat} {s t : State} (hp : s.prog ≠ []) (hl : s.shutdown = false)
    (h : steps n s = .next t) (hlen : t.undo.length = s.undo.length + n) :
    ∃ u, undos n t = .next u ∧ BackAt s u := by
  induction n generalizing s with
  | zero => cases h; exact ⟨_, rfl, .refl _⟩
  | succ n ih =>
    obtain ⟨s₁, hstep, hrest⟩ := steps_succ_next h
    have hle := steps_undo_length_le hrest
    rcases serveStep_undo_length hstep with ⟨hs, hlen₁⟩ | hlen₁
    · obtain ⟨u, hu, hback⟩ :=
        ih (hs.prog ▸ hp) (hs.shutdown.trans hl) hrest (by omega)
      rw [undos_succ hu]
      exact hs.undone hback hp hl
    · omega

/-- Settles O49: `undos_after_steps` from an empty stack, and Undo of an empty stack. -/
theorem undoReturnsToStart : Obligations.UndoReturnsToStart := by
  intro n s t hp hl hwait hempty hsteps hlen
  have hfull : t.undo.length = s.undo.length + n := by rw [hempty, hlen]; exact (Nat.zero_add n).symm
  obtain ⟨u, hu, hback⟩ := undos_after_steps hp hl hsteps hfull
  have hcu : u.cstate = .awaitingStep := hback.cstate.elim (·.trans hwait) id
  have hundo : u.undo = [] := hback.undo.trans hempty
  exact ⟨u, hu, hback.regs, hback.mem, hundo, hcu, hback.prog, hback.cfg,
    serveUndo_of_undo_nil (hback.prog ▸ hp) (hback.shutdown.trans hl) (by rw [hcu]; nofun) hundo⟩

end Sys2Proof.Machine
end

section
/-! PROOFS of the binary word (30_encoding.md section 4): a word is its four fields, an instruction is its
operation and the fields of its format, and the decoder goes through its tests in order. -/

namespace Sys2Proof

/-! ### A word and its fields -/

/-- The word `opc || ra || rb || imm` (30_encoding.md R84). -/
def Word.join {I : Nat} (o : BitVec 7) (a b : BitVec 3) (n : BitVec I) : Word I := o ++ a ++ b ++ n

theorem encode_eq_join (I : Nat) (i : Instr) :
    encode I i = Word.join i.op.code i.ra.ordinal i.rb.ordinal (BitVec.ofInt I i.imm) := rfl

@[simp] theorem Word.opc_join {I : Nat} (o : BitVec 7) (a b : BitVec 3) (n : BitVec I) :
    (Word.join o a b n).opc = o := by
  have h : Word.opc (Word.join o a b n) = (o ++ a ++ b).extractLsb' (I + 6 - I) 7 :=
    BitVec.extractLsb'_append_eq_of_le (by omega)
  rw [h, Nat.add_sub_cancel_left, BitVec.extractLsb'_append_eq_of_le (by omega)]
  exact BitVec.extractLsb'_append_eq_left

@[simp] theorem Word.ra_join {I : Nat} (o : BitVec 7) (a b : BitVec 3) (n : BitVec I) :
    (Word.join o a b n).ra = a := by
  have h : Word.ra (Word.join o a b n) = (o ++ a ++ b).extractLsb' (I + 3 - I) 3 :=
    BitVec.extractLsb'_append_eq_of_le (by omega)
  rw [h, Nat.add_sub_cancel_left, BitVec.extractLsb'_append_eq_of_le (by omega)]
  exact BitVec.extractLsb'_append_eq_right

@[simp] theorem Word.rb_join {I : Nat} (o : BitVec 7) (a b : BitVec 3) (n : BitVec I) :
    (Word.join o a b n).rb = b := by
  have h : Word.rb (Word.join o a b n) = (o ++ a ++ b).extractLsb' (I - I) 3 :=
    BitVec.extractLsb'_append_eq_of_le (Nat.le_refl I)
  rw [h, Nat.sub_self]
  exact BitVec.extractLsb'_append_eq_right

@[simp] theorem Word.imm_join {I : Nat} (o : BitVec 7) (a b : BitVec 3) (n : BitVec I) :
    (Word.join o a b n).imm = n :=
  BitVec.extractLsb'_append_eq_right

/-- No bit of a word lies outside its four fields. -/
theorem Word.join_fields {I : Nat} (w : Word I) : Word.join w.opc w.ra w.rb w.imm = w := by
  unfold Word.join Word.opc Word.ra Word.rb Word.imm
  rw [BitVec.extractLsb'_append_extractLsb'_eq_extractLsb' (by omega),
    BitVec.extractLsb'_append_extractLsb'_eq_extractLsb' (by omega),
    BitVec.extractLsb'_append_extractLsb'_eq_extractLsb' (by omega)]
  exact BitVec.extractLsb'_eq_self

/-! ### Codes and ordinals -/

@[simp] theorem Op.ofCode_code (o : Op) : Op.ofCode o.code = some o := by cases o <;> rfl

theorem Op.code_of_ofCode {c : BitVec 7} {o : Op} (h : Op.ofCode c = some o) : o.code = c := by
  simpa using List.find?_some h

@[simp] theorem Reg.ofOrdinal_ordinal (r : Reg) : Reg.ofOrdinal r.ordinal = r := by cases r <;> rfl

@[simp] theorem Reg.ordinal_ofOrdinal (n : BitVec 3) : (Reg.ofOrdinal n).ordinal = n := by
  revert n; decide

/-! ### The fields of an instruction -/

/-- The per-instruction statements of Laws/PerInstr.lean, for every instruction. -/
theorem Instr.build_of_fields (i : Instr) : i.op.build i.ra i.rb i.imm = i := by cases i <;> rfl

/-- Fields the format does not have are 0, those it has are the arguments. -/
theorem Op.fields_build (o : Op) (ra rb : Reg) (n : Int) :
    (o.build ra rb n).ra = (if 1 ≤ o.regArgs then ra else .acc) ∧
    (o.build ra rb n).rb = (if 2 ≤ o.regArgs then rb else .acc) ∧
    (o.build ra rb n).imm = (if o.hasImm then n else 0) := by
  cases o <;> exact ⟨rfl, rfl, rfl⟩

/-- An instruction's fields that its format does not have are 0. -/
theorem Instr.unused_fields (i : Instr) :
    (1 ≤ i.op.regArgs ∨ i.ra = .acc) ∧ (2 ≤ i.op.regArgs ∨ i.rb = .acc) ∧
    (i.op.hasImm = true ∨ i.imm = 0) := by
  obtain ⟨ha, hb, hn⟩ := Op.fields_build i.op i.ra i.rb i.imm
  rw [i.build_of_fields] at ha hb hn
  exact ⟨by split at ha <;> simp [*], by split at hb <;> simp [*], by split at hn <;> simp [*]⟩

/-- Which registers an instruction built from fields needs to exist. -/
theorem Op.regsExist_build (o : Op) (ra rb : Reg) (n : Int) (v : Variant) :
    (o.build ra rb n).regsExist v = true ↔
      (1 ≤ o.regArgs → ra.inVariant v = true) ∧ (2 ≤ o.regArgs → rb.inVariant v = true) := by
  have hle : o.regArgs ≤ 2 := by cases o <;> decide
  unfold Instr.regsExist
  rw [(Machine.build_fields o ra rb n).2.2]
  generalize o.regArgs = k at *
  interval_cases k <;> simp

/-! ### Immediates -/

/-- The signed reading of `K` bits lies in the signed range of `K` bits. -/
theorem toInt_mem_signedRange {K : Nat} (n : BitVec K) :
    -signedBound K ≤ n.toInt ∧ n.toInt < signedBound K := by
  unfold signedBound
  push_cast
  exact ⟨BitVec.le_toInt n, BitVec.toInt_lt⟩

theorem toInt_ofInt_of_signedRange {K : Nat} (hK : 1 ≤ K) {n : Int} (hlo : -signedBound K ≤ n)
    (hhi : n < signedBound K) : (BitVec.ofInt K n).toInt = n := by
  unfold signedBound at hlo hhi
  push_cast at hlo hhi
  exact BitVec.toInt_ofInt_eq_self hK hlo hhi

theorem Config.inImm_toInt {c : Config} (n : BitVec c.immWidth) : c.InImm n.toInt :=
  ⟨(toInt_mem_signedRange n).1, Int.le_sub_one_of_lt (toInt_mem_signedRange n).2⟩

theorem Config.toInt_ofInt_of_inImm {c : Config} (h : 1 ≤ c.immWidth) {n : Int} (hn : c.InImm n) :
    (BitVec.ofInt c.immWidth n).toInt = n :=
  toInt_ofInt_of_signedRange h hn.1 (Int.lt_of_le_sub_one hn.2)

theorem Instr.inImm_imm {c : Config} {i : Instr} (h : i.immInRange c = true) : c.InImm i.imm := by
  unfold Instr.immInRange at h
  unfold Instr.imm
  cases hi : i.imm? with
  | none =>
    have hpos := Machine.signedBound_pos c.immWidth
    simp only [Config.InImm, Config.immMin, Config.immMax, Option.getD_none]
    omega
  | some v => simpa [hi] using h

/-! ### The decoder -/

/-- The instruction the fields of a word spell under operation `o`. -/
def Word.read {I : Nat} (w : Word I) (o : Op) : Instr :=
  o.build (Reg.ofOrdinal w.ra) (Reg.ofOrdinal w.rb) w.imm.toInt

/-- The decoder's tests of a word whose code is assigned. -/
theorem decode_of_code {I : Nat} {v : Variant} {w : Word I} {o : Op} (h : Op.ofCode w.opc = some o) :
    decode I v w =
      if o.inVariant v = false then .illegal .notInVariant
      else if w.unusedZero o = false then .illegal .unusedNotZero
      else if (w.read o).regsExist v = false then .illegal .registerAbsent
      else .instr (w.read o) := by
  unfold decode; rw [h]; rfl

/-- Everything the decoder can do. -/
theorem decode_cases (I : Nat) (v : Variant) (w : Word I) :
    (Op.ofCode w.opc = none ∧ decode I v w = .illegal .unassignedCode) ∨
    ∃ o, Op.ofCode w.opc = some o ∧
      ((o.inVariant v = false ∧ decode I v w = .illegal .notInVariant) ∨
       (w.unusedZero o = false ∧ decode I v w = .illegal .unusedNotZero) ∨
       ((w.read o).regsExist v = false ∧ decode I v w = .illegal .registerAbsent) ∨
       (o.inVariant v = true ∧ w.unusedZero o = true ∧ (w.read o).regsExist v = true ∧
         decode I v w = .instr (w.read o))) := by
  cases ho : Op.ofCode w.opc with
  | none => exact .inl ⟨rfl, by unfold decode; rw [ho]⟩
  | some o =>
    refine .inr ⟨o, rfl, ?_⟩
    rw [decode_of_code ho]
    cases hv : o.inVariant v with
    | false => exact .inl ⟨rfl, rfl⟩
    | true =>
      cases hz : w.unusedZero o with
      | false => exact .inr (.inl ⟨rfl, rfl⟩)
      | true =>
        cases hr : (w.read o).regsExist v with
        | false => exact .inr (.inr (.inl ⟨rfl, rfl⟩))
        | true => exact .inr (.inr (.inr ⟨rfl, rfl, rfl, rfl⟩))

/-- The decoder gives an instruction exactly when all its tests pass. -/
theorem decode_eq_instr_iff {I : Nat} {v : Variant} {w : Word I} {i : Instr} :
    decode I v w = .instr i ↔ ∃ o, Op.ofCode w.opc = some o ∧ o.inVariant v = true ∧
      w.unusedZero o = true ∧ (w.read o).regsExist v = true ∧ w.read o = i := by
  rcases decode_cases I v w with ⟨ho, h⟩ | ⟨o, ho, ⟨hv, h⟩ | ⟨hz, h⟩ | ⟨hr, h⟩ | ⟨hv, hz, hr, h⟩⟩ <;>
    simp [*]

/-- The fields the format of `o` does not use are 0 (30_encoding.md R86). -/
theorem Word.unusedZero_iff {I : Nat} (w : Word I) (o : Op) : w.unusedZero o = true ↔
    (1 ≤ o.regArgs ∨ w.ra = 0) ∧ (2 ≤ o.regArgs ∨ w.rb = 0) ∧ (o.hasImm = true ∨ w.imm = 0) := by
  simp [Word.unusedZero, and_assoc]

/-- A word whose unused fields are 0 is the encoding of what it spells. -/
theorem encode_read {I : Nat} {w : Word I} {o : Op} (ho : o.code = w.opc)
    (hz : w.unusedZero o = true) : encode I (w.read o) = w := by
  obtain ⟨ha, hb, hn⟩ := Op.fields_build o (Reg.ofOrdinal w.ra) (Reg.ofOrdinal w.rb) w.imm.toInt
  obtain ⟨za, zb, zn⟩ := (w.unusedZero_iff o).mp hz
  have hop : (w.read o).op = o := (Machine.build_fields ..).1
  have hra : (w.read o).ra.ordinal = w.ra := by
    unfold Word.read; rw [ha]; split
    · simp
    · exact (za.resolve_left ‹_›).symm
  have hrb : (w.read o).rb.ordinal = w.rb := by
    unfold Word.read; rw [hb]; split
    · simp
    · exact (zb.resolve_left ‹_›).symm
  have himm : BitVec.ofInt I (w.read o).imm = w.imm := by
    unfold Word.read; rw [hn]; split
    · simp
    · rw [zn.resolve_left ‹_›]; rfl
  rw [encode_eq_join, hop, ho, hra, hrb, himm, w.join_fields]

/-- The encoding of an instruction spells it. -/
theorem read_encode {c : Config} {i : Instr} (h : 1 ≤ c.immWidth) (hi : c.InImm i.imm) :
    (encode c.immWidth i).read i.op = i := by
  unfold Word.read
  rw [encode_eq_join, Word.ra_join, Word.rb_join, Word.imm_join, Reg.ofOrdinal_ordinal,
    Reg.ofOrdinal_ordinal, Config.toInt_ofInt_of_inImm h hi, i.build_of_fields]

theorem unusedZero_encode (I : Nat) (i : Instr) : (encode I i).unusedZero i.op = true := by
  obtain ⟨ha, hb, hn⟩ := i.unused_fields
  rw [encode_eq_join, Word.unusedZero_iff]
  simp only [Word.ra_join, Word.rb_join, Word.imm_join]
  exact ⟨ha.imp_right fun h => by rw [h]; rfl, hb.imp_right fun h => by rw [h]; rfl,
    hn.imp_right fun h => by rw [h]; rfl⟩

theorem Instr.encodable_iff (c : Config) (i : Instr) : i.encodable c = true ↔
    i.op.inVariant c.variant = true ∧ i.regsExist c.variant = true ∧ i.immInRange c = true := by
  simp [Instr.encodable, Instr.fits]

/-- Settles O1: the fields of the encoding are those of the instruction, and pass each test. -/
theorem decodeOfEncode : Obligations.DecodeOfEncode := by
  intro c i hI henc
  obtain ⟨hv, hr, himm⟩ := (i.encodable_iff c).mp henc
  have hread := read_encode hI (Instr.inImm_imm himm)
  refine decode_eq_instr_iff.mpr ⟨i.op, ?_, hv, unusedZero_encode _ i, hread.symm ▸ hr, hread⟩
  rw [encode_eq_join, Word.opc_join, Op.ofCode_code]

/-- Settles O2: the decoder's zero test leaves no bit that the instruction does not give back. -/
theorem encodeOfDecode : Obligations.EncodeOfDecode := by
  intro I v w i h
  obtain ⟨o, ho, -, hz, -, rfl⟩ := decode_eq_instr_iff.mp h
  exact encode_read (Op.code_of_ofCode ho) hz

theorem immInRange_read {c : Config} (w : Word c.immWidth) (o : Op) :
    (w.read o).immInRange c = true := by
  have h := (Machine.build_fields o (Reg.ofOrdinal w.ra) (Reg.ofOrdinal w.rb) w.imm.toInt).2.1
  unfold Instr.immInRange Word.read
  rw [h]
  split
  · rfl
  · next hn =>
    obtain ⟨-, rfl⟩ : o.hasImm = true ∧ w.imm.toInt = _ := by simpa using hn
    exact decide_eq_true (Config.inImm_toInt w.imm)

/-- The decoder is total: it refuses exactly where a test fails. -/
theorem decode_illegal_iff {I : Nat} {v : Variant} {w : Word I} :
    (∃ why, decode I v w = .illegal why) ↔ Op.ofCode w.opc = none ∨
      ∃ o, Op.ofCode w.opc = some o ∧
        (o.inVariant v = false ∨ w.unusedZero o = false ∨ (w.read o).regsExist v = false) := by
  rcases decode_cases I v w with ⟨ho, h⟩ | ⟨o, ho, ⟨hv, h⟩ | ⟨hz, h⟩ | ⟨hr, h⟩ | ⟨hv, hz, hr, h⟩⟩ <;>
    simp [*]

theorem regsExist_read_eq_false {I : Nat} {w : Word I} {o : Op} {v : Variant} :
    (w.read o).regsExist v = false ↔
      (1 ≤ o.regArgs ∧ (Reg.ofOrdinal w.ra).inVariant v = false) ∨
      (2 ≤ o.regArgs ∧ (Reg.ofOrdinal w.rb).inVariant v = false) := by
  rw [← Bool.not_eq_true, Word.read, Op.regsExist_build]
  simp only [← Bool.not_eq_true]
  tauto

theorem Word.unusedZero_eq_false {I : Nat} {w : Word I} {o : Op} : w.unusedZero o = false ↔
    (o.regArgs = 0 ∧ w.ra ≠ 0) ∨ (o.regArgs ≤ 1 ∧ w.rb ≠ 0) ∨ (o.hasImm = false ∧ w.imm ≠ 0) := by
  rw [← Bool.not_eq_true, Word.unusedZero_iff, ← Bool.not_eq_true,
    show o.regArgs = 0 ↔ ¬ 1 ≤ o.regArgs by omega, show o.regArgs ≤ 1 ↔ ¬ 2 ≤ o.regArgs by omega]
  tauto

/-- Settles O3: each test of the decoder, read as the spec's condition on the word's fields. -/
theorem decodeRefusesExactly : Obligations.DecodeRefusesExactly := by
  intro c w _
  constructor
  · intro i h
    obtain ⟨o, -, hv, -, hr, rfl⟩ := decode_eq_instr_iff.mp h
    have hop : (w.read o).op = o := (Machine.build_fields ..).1
    exact (Instr.encodable_iff c _).mpr ⟨hop.symm ▸ hv, hr, immInRange_read w o⟩
  · rw [decode_illegal_iff]
    refine or_congr_right (exists_congr fun o => and_congr_right fun _ => or_congr_right ?_)
    rw [regsExist_read_eq_false, Word.unusedZero_eq_false]
    tauto

/-- Settles O4: each word's fields, written out. -/
theorem knownWordsDecode : Obligations.KnownWordsDecode := by
  refine ⟨?_, ?_, ?_, ?_, ?_, ?_, ?_, ?_⟩ <;> rfl

end Sys2Proof
end

section
/-! PROOFS of what each instruction does when it runs: completion, the order of the checks and the errors
they raise (41_load.md to 44_jump_nop.md, 20_memory.md R52, 60_exceptions.md). -/

namespace Sys2Proof.Machine

/-! ### The register range -/

theorem inReg_iff (c : Config) (v : Int) :
    c.InReg v ↔ -signedBound c.regWidth ≤ v ∧ v < signedBound c.regWidth := by
  simp only [Config.InReg, Config.regMin, Config.regMax]; omega

theorem inReg_zero (c : Config) : c.InReg 0 := by
  have hpos := signedBound_pos c.regWidth
  rw [inReg_iff]; omega

/-! ### Loads, LOADI and MOVE -/

theorem exec_of_movedValue {i : Instr} {s : State} {d : Reg} {v : Int} (hd : i.dest? = some d)
    (hv : movedValue i s = some v) (hr : s.cfg.InReg v) :
    exec i s = .next { s with regs := s.regs.set d v, signal := writeSignal d } :=
  (exec_eq_writeReg_of_movedValue hd hv).trans (if_pos hr)

/-- Settles O8: each load moves the value of the cell at its effective address. -/
theorem memoryLoadsComplete : Obligations.MemoryLoadsComplete := by
  intro s d n
  exact ⟨fun ha hr => exec_of_movedValue rfl (if_pos ha) hr,
    fun ha hr => exec_of_movedValue rfl (if_pos ha) hr,
    fun ha hr => exec_of_movedValue rfl (if_pos ha) hr,
    fun _ ha hr => exec_of_movedValue rfl (if_pos ha) hr⟩

/-- Settles O9: an immediate fits a register because the widths are legal. -/
theorem loadiAndMoveComplete : Obligations.LoadiAndMoveComplete := by
  intro s d src n hw
  exact ⟨fun hn => exec_of_movedValue rfl rfl (inReg_of_inImm hw hn), exec_of_movedValue rfl rfl⟩

/-- Settles O34: an unassigned cell reads 0, which fits every register. -/
theorem unassignedCellLoadsZero : Obligations.UnassignedCellLoadsZero := by
  intro s d n ha hf
  have hread := Memory.read_of_find_none hf
  have hload := exec_load_of_inReg ha (hread ▸ inReg_zero _) d
  rwa [hread] at hload

/-! ### Stores -/

theorem storeCell_of_inAddr {s : State} {a : Int} (ha : s.cfg.InAddr a) (v : Int) :
    storeCell a v s = .next { s with mem := s.mem.write a.toNat v, signal := .advance } :=
  if_pos ha

/-- Settles O10: each store is the checked store of its register at its effective address. -/
theorem storesComplete : Obligations.StoresComplete := by
  intro s src b n
  exact ⟨(storeCell_of_inAddr · _), (storeCell_of_inAddr · _), (storeCell_of_inAddr · _),
    (storeCell_of_inAddr · _), (storeCell_of_inAddr · _)⟩

/-- Settles O33: the cell is assigned whatever the value, and the value came from a register. -/
theorem storeThenLoad : Obligations.StoreThenLoad := by
  intro s t src d n ha hr h
  cases h.symm.trans (storeCell_of_inAddr ha (s.regs.get src))
  have hread := Memory.read_write_self s.mem n.toNat (s.regs.get src)
  refine ⟨Memory.find_write_self .., ?_⟩
  have hload := exec_load_of_inReg
    (s := { s with mem := s.mem.write n.toNat (s.regs.get src), signal := .advance })
    ha (hread.symm ▸ hr) d
  rwa [hread] at hload

/-! ### Addresses -/

theorem loadCell_eq_withAddr (op : Op) (d : Reg) (a : Int) (s : State) :
    ∃ k, loadCell op d a s = withAddr a s k := ⟨_, rfl⟩

theorem storeCell_eq_withAddr (a v : Int) (s : State) : ∃ k, storeCell a v s = withAddr a s k :=
  ⟨_, rfl⟩

theorem compute_mem_eq_withAddr (op : Op) (f : AluFn) (d : Reg) (n : Int) (s : State) :
    ∃ k, compute op f d (.mem n) s = withAddr n s k := by
  unfold compute withOperand; exact ⟨_, rfl⟩

/-- Every instruction with an effective address checks it before anything else. -/
theorem exec_eq_withAddr {i : Instr} {s : State} {ea : Int} (h : memAddr i s = some ea) :
    ∃ k, exec i s = withAddr ea s k := by
  cases i with
  | load | loadin1 | loadin2 | loadin => cases h; exact loadCell_eq_withAddr ..
  | storea | storein1a | storein2a | store | storein => cases h; exact storeCell_eq_withAddr ..
  | add | sub | mult | div | mod | oplus | and | or => cases h; exact compute_mem_eq_withAddr ..
  | _ => cases h

/-- Settles O18: the address check of `exec_eq_withAddr` fails. -/
theorem addressErrorsRaise : Obligations.AddressErrorsRaise := by
  intro i s ea h hout
  obtain ⟨k, hk⟩ := exec_eq_withAddr h
  exact hk.trans (if_neg fun hin => by omega)

/-! ### Compute -/

theorem exec_of_divisor_zero {i : Instr} {s : State} {f : AluFn} {d : Reg} {o : Operand}
    (hp : computeParts i = some (f, d, o)) (hb : operandValue o s = some 0)
    (hf : f = .div ∨ f = .mod) : exec i s = raise (.divisionByZero d i.op) s := by
  have h := (exec_computeParts hp s).trans (withOperand_of_operandValue hb _)
  exact h.trans (if_pos ⟨f.divides_iff.mpr hf, rfl⟩)

theorem exec_eq_writeReg_of_computeParts {i : Instr} {s : State} {f : AluFn} {d : Reg} {o : Operand}
    {b : Int} (hp : computeParts i = some (f, d, o)) (hb : operandValue o s = some b)
    (hz : ¬ ((f = .div ∨ f = .mod) ∧ b = 0)) :
    exec i s = writeReg i.op d (f.eval (s.regs.get d) b) s :=
  (exec_computeParts hp s).trans (compute_eq_writeReg hb hz i.op d)

/-- A compute instruction whose right operand is `b`, with a defined result in `RANGE_R`, writes it. -/
theorem exec_of_computeParts {i : Instr} {s : State} {f : AluFn} {d : Reg} {o : Operand} {b : Int}
    (hp : computeParts i = some (f, d, o)) (hb : operandValue o s = some b)
    (hz : f.divides = true → b ≠ 0) (hr : s.cfg.InReg (f.eval (s.regs.get d) b)) :
    exec i s =
      .next { s with regs := s.regs.set d (f.eval (s.regs.get d) b), signal := writeSignal d } := by
  rw [exec_eq_writeReg_of_computeParts hp hb fun ⟨hf, h0⟩ => hz (f.divides_iff.mpr hf) h0]
  exact if_pos hr

/-- Settles O11: the right operand is the cell at a legal address. -/
theorem memoryFormsComplete : Obligations.MemoryFormsComplete := by
  rintro s d n a b rfl rfl ha
  have hb : operandValue (.mem n) s = some (s.mem.read n.toNat) := if_pos ha
  have run {i : Instr} {f : AluFn} (hp : computeParts i = some (f, d, .mem n)) :=
    exec_of_computeParts hp hb
  exact ⟨run (i := .add d n) rfl nofun, run (i := .sub d n) rfl nofun,
    run (i := .mult d n) rfl nofun, fun h0 => run (i := .div d n) rfl fun _ => h0,
    fun h0 => run (i := .mod d n) rfl fun _ => h0, run (i := .oplus d n) rfl nofun,
    run (i := .and d n) rfl nofun, run (i := .or d n) rfl nofun⟩

/-- Settles O12: the right operand is the immediate. -/
theorem immediateFormsComplete : Obligations.ImmediateFormsComplete := by
  rintro s d n a rfl
  have hb : operandValue (.imm n) s = some n := rfl
  have run {i : Instr} {f : AluFn} (hp : computeParts i = some (f, d, .imm n)) :=
    exec_of_computeParts hp hb
  exact ⟨run (i := .addi d n) rfl nofun, run (i := .subi d n) rfl nofun,
    run (i := .multi d n) rfl nofun, fun h0 => run (i := .divi d n) rfl fun _ => h0,
    fun h0 => run (i := .modi d n) rfl fun _ => h0, run (i := .oplusi d n) rfl nofun,
    run (i := .andi d n) rfl nofun, run (i := .ori d n) rfl nofun⟩

/-- Settles O13: the right operand is the source register's value before the write. -/
theorem registerFormsComplete : Obligations.RegisterFormsComplete := by
  rintro s d src a b rfl rfl
  have hb : operandValue (.reg src) s = some (s.regs.get src) := rfl
  have run {i : Instr} {f : AluFn} (hp : computeParts i = some (f, d, .reg src)) :=
    exec_of_computeParts hp hb
  exact ⟨run (i := .addr d src) rfl nofun, run (i := .subr d src) rfl nofun,
    run (i := .multr d src) rfl nofun, fun h0 => run (i := .divr d src) rfl fun _ => h0,
    fun h0 => run (i := .modr d src) rfl fun _ => h0, run (i := .oplusr d src) rfl nofun,
    run (i := .andr d src) rfl nofun, run (i := .orr d src) rfl nofun⟩

/-- The three ways to read a right operand, as its value. -/
theorem operandValue_eq_some_iff {o : Operand} {s : State} {b : Int} : operandValue o s = some b ↔
    (∃ n, o = .mem n ∧ s.cfg.InAddr n ∧ b = s.mem.read n.toNat) ∨ o = .imm b ∨
      ∃ r, o = .reg r ∧ b = s.regs.get r := by
  cases o <;> simp [operandValue, eq_comm]

/-- Settles O19: address, zero divisor and range are checked in that order, then the result written. -/
theorem computeTemplate : Obligations.ComputeTemplate := by
  intro i s f d o hp
  constructor
  · rintro n rfl ha
    exact (exec_computeParts hp s).trans (if_neg ha)
  · intro b hb
    have hb := operandValue_eq_some_iff.mpr hb
    refine ⟨fun hf h0 => exec_of_divisor_zero hp (h0 ▸ hb) hf, fun hz hr => ?_, fun hz hr => ?_⟩
    · exact (exec_eq_writeReg_of_computeParts hp hb hz).trans (if_neg hr)
    · exact (exec_eq_writeReg_of_computeParts hp hb hz).trans (if_pos hr)

/-! ### Jumps -/

theorem exec_eq_condJump {i : Instr} {c : Cond} {n : Int} (hc : condOf i = some c)
    (hn : i.imm? = some n) (s : State) : exec i s = condJump i.op c n s := by
  cases i <;> cases hc <;> cases hn <;> rfl

/-- A conditional jump whose relation holds jumps. -/
theorem exec_of_cond_holds {i : Instr} {s : State} {c : Cond} {n : Int} (hc : condOf i = some c)
    (hn : i.imm? = some n) (h : c.holds s.regs.acc = true) : exec i s = doJump n s :=
  (exec_eq_condJump hc hn s).trans (if_pos h)

/-- A conditional jump whose relation does not hold only reports it. -/
theorem exec_of_cond_denied {i : Instr} {s : State} {c : Cond} {n : Int} (hc : condOf i = some c)
    (hn : i.imm? = some n) (h : c.holds s.regs.acc = false) :
    exec i s = .next { s with signal := .advance, dbg := .jumpDenied i.op s.regs.acc } :=
  (exec_eq_condJump hc hn s).trans (if_neg (by simp [h]))

theorem doJump_of_inRange {s : State} {n : Int} (h0 : 0 ≤ s.regs.pc + n)
    (h1 : s.regs.pc + n ≤ s.progLen) :
    doJump n s = .next { s with
      regs := s.regs.set .pc (s.regs.pc + n)
      signal := .jumped
      dbg := .jumpTaken s.regs.pc (s.regs.pc + n) } := by
  rcases doJump_cases n s with ⟨h, -⟩ | ⟨-, h, -⟩ | ⟨-, -, h⟩
  · omega
  · omega
  · exact h

/-- Settles O15: a taken jump with its target in range. -/
theorem takenJumpsComplete : Obligations.TakenJumpsComplete := by
  intro s n h0 h1
  have taken {i : Instr} {c : Cond} (hc : condOf i = some c) (hn : i.imm? = some n)
      (h : c.holds s.regs.acc = true) := (exec_of_cond_holds hc hn h).trans (doJump_of_inRange h0 h1)
  exact ⟨doJump_of_inRange h0 h1, fun h => taken rfl rfl (decide_eq_true h),
    fun h => taken rfl rfl (decide_eq_true h), fun h => taken rfl rfl (decide_eq_true h),
    fun h => taken rfl rfl (decide_eq_true h), fun h => taken rfl rfl (decide_eq_true h),
    fun h => taken rfl rfl (decide_eq_true h)⟩

/-- Settles O16: each hypothesis is the negation of the jump's relation. -/
theorem deniedJumpsComplete : Obligations.DeniedJumpsComplete := by
  intro s n
  refine ⟨fun h => exec_of_cond_denied rfl rfl ?_, fun h => exec_of_cond_denied rfl rfl ?_,
    fun h => exec_of_cond_denied rfl rfl ?_, fun h => exec_of_cond_denied rfl rfl ?_,
    fun h => exec_of_cond_denied rfl rfl ?_, fun h => exec_of_cond_denied rfl rfl ?_⟩
  all_goals simpa [Cond.holds] using h

/-- Settles O17: NOP is its own rule. -/
theorem nopCompletes : Obligations.NopCompletes := fun _ => rfl

/-- Settles O20: the target's two bounds, from `doJump_cases`, and the denied jump. -/
theorem jumpRules : Obligations.JumpRules := by
  rintro i s n t hn rfl
  refine ⟨fun htaken => ?_, fun c hc h => exec_of_cond_denied hc hn h⟩
  have hjump : exec i s = doJump n s := by
    rcases htaken with rfl | ⟨c, hc, h⟩
    · rfl
    · exact exec_of_cond_holds hc hn h
  rw [hjump]
  refine ⟨fun h => if_pos h, fun h => ?_, doJump_of_inRange⟩
  have hlen := s.progLen_nonneg
  rcases doJump_cases n s with ⟨h0, -⟩ | ⟨-, -, hd⟩ | ⟨-, h1, -⟩
  · omega
  · exact hd
  · omega

/-! ### Taking an error -/

/-- Settles O22: the equation of `raise`, with the record PC indexes after the rollback. -/
theorem raiseRestoresSnapshot : Obligations.RaiseRestoresSnapshot := by
  intro e s snap rest rec hu hf
  rw [raise_of_undo hu, raised_of_fetch (rec := rec) hf]
  rfl

end Sys2Proof.Machine
end

section
/-! PROOFS of the arithmetic of the compute operations (43_compute.md R162, R163): division, and the
bitwise functions as two's complement of any sufficient width. -/

namespace Sys2Proof.Machine

/-! ### Division -/

theorem tdiv_eq_int_tdiv (a b : Int) : tdiv a b = Int.tdiv a b := by
  rw [← Int.sign_mul_natAbs (a.tdiv b), Int.sign_tdiv, Int.natAbs_tdiv]
  split
  · next h => simp [tdiv, Nat.div_eq_of_lt h]
  · rfl

theorem natAbs_tdiv (a b : Int) : (tdiv a b).natAbs = a.natAbs / b.natAbs := by
  rw [tdiv_eq_int_tdiv, Int.natAbs_tdiv]; rfl

theorem fmod_eq_int_fmod (a b : Int) : fmod a b = Int.fmod a b := (Int.fmod_def a b).symm

/-- The remainder lies between 0 and the divisor, on the divisor's side. -/
theorem fmod_bounds (a : Int) {b : Int} (hb : b ≠ 0) :
    (0 < b ∧ 0 ≤ fmod a b ∧ fmod a b < b) ∨ (b < 0 ∧ fmod a b ≤ 0 ∧ b < fmod a b) := by
  rw [fmod_eq_int_fmod]
  rcases lt_or_gt_of_ne hb with hneg | hpos
  · have hpos : 0 < -b := by omega
    have h0 := Int.fmod_nonneg_of_pos (-a) hpos
    have h1 := Int.fmod_lt_of_pos (-a) hpos
    rw [Int.neg_fmod_neg] at h0 h1
    exact .inr ⟨hneg, by omega, by omega⟩
  · exact .inl ⟨hpos, Int.fmod_nonneg_of_pos a hpos, Int.fmod_lt_of_pos a hpos⟩

theorem sign_fmod (a : Int) {b : Int} (hb : b ≠ 0) : fmod a b = 0 ∨ (fmod a b).sign = b.sign := by
  rcases fmod_bounds a hb with ⟨hpos, h0, -⟩ | ⟨hneg, h0, -⟩
  · rcases h0.eq_or_lt with h | h
    · exact .inl h.symm
    · exact .inr (by rw [Int.sign_eq_one_of_pos h, Int.sign_eq_one_of_pos hpos])
  · rcases h0.eq_or_lt with h | h
    · exact .inl h
    · exact .inr (by rw [Int.sign_eq_neg_one_of_neg h, Int.sign_eq_neg_one_of_neg hneg])

theorem inReg_fmod {c : Config} {a b : Int} (hb : b ≠ 0) (hr : c.InReg b) : c.InReg (fmod a b) := by
  rw [inReg_iff] at *
  have := fmod_bounds a hb
  have := signedBound_pos c.regWidth
  omega

/-- In `RANGE_R` the quotient leaves the range only as `-RMIN`, and only `RMIN tdiv -1` is that. -/
theorem not_inReg_tdiv_iff {c : Config} {a b : Int} (hb : b ≠ 0) (ha : c.InReg a) :
    ¬ c.InReg (tdiv a b) ↔ a = c.regMin ∧ b = -1 := by
  have hpos := signedBound_pos c.regWidth
  constructor
  · intro hout
    rw [inReg_iff] at ha hout
    have habs := natAbs_tdiv a b
    have hle : a.natAbs / b.natAbs ≤ a.natAbs := Nat.div_le_self _ _
    have hquot : a.natAbs / b.natAbs = a.natAbs := by omega
    have hone : b.natAbs = 1 := by
      by_contra hne
      have := Nat.div_lt_self (n := a.natAbs) (k := b.natAbs) (by omega) (by omega)
      omega
    have hmin : a = -signedBound c.regWidth := by omega
    refine ⟨hmin, ?_⟩
    rcases Int.natAbs_eq_iff.mp hone with rfl | rfl
    · rw [tdiv_eq_int_tdiv] at hout
      simp at hout
      omega
    · rfl
  · rintro ⟨rfl, rfl⟩
    rw [inReg_iff, tdiv_eq_int_tdiv]
    simp [Config.regMin]

/-- Settles O36: the floor quotient gives the congruence, `fmod_bounds` sign and magnitude. -/
theorem divisionLaws : Obligations.DivisionLaws := by
  intro a b hb
  refine ⟨tdiv_eq_int_tdiv a b, ⟨Int.fdiv a b, by unfold fmod; omega⟩, sign_fmod a hb, ?_,
    fun c ha hr => ⟨not_inReg_tdiv_iff hb ha, inReg_fmod hb hr⟩⟩
  have := fmod_bounds a hb
  omega

/-! ### Bitwise functions -/

/-- `v` lies in the signed range of `K` bits. -/
def InSigned (K : Nat) (v : Int) : Prop := -signedBound K ≤ v ∧ v < signedBound K

/-- Encoding a value in more bits than it needs is the sign extension of its encoding in fewer. -/
theorem ofInt_eq_signExtend {K : Nat} (hK : 1 ≤ K) {v : Int} (h : InSigned K v) (K' : Nat) :
    BitVec.ofInt K' v = (BitVec.ofInt K v).signExtend K' := by
  rw [BitVec.signExtend, toInt_ofInt_of_signedRange hK h.1 h.2]

/-- A bitwise operation, at every width, that commutes with sign extension. -/
structure SignExtends (g : ∀ w, BitVec w → BitVec w → BitVec w) : Prop where
  signExtend : ∀ w v (x y : BitVec w), (g w x y).signExtend v = g v (x.signExtend v) (y.signExtend v)

theorem signExtends_xor : SignExtends fun _ x y => x ^^^ y := ⟨fun _ _ _ _ => BitVec.signExtend_xor⟩
theorem signExtends_and : SignExtends fun _ x y => x &&& y := ⟨fun _ _ _ _ => BitVec.signExtend_and⟩
theorem signExtends_or : SignExtends fun _ x y => x ||| y := ⟨fun _ _ _ _ => BitVec.signExtend_or⟩

section
variable {g : ∀ w, BitVec w → BitVec w → BitVec w} {a b : Int}

/-- More bits than both operands need do not change the result. -/
theorem SignExtends.widen (hg : SignExtends g) {K K' : Nat} (hK : 1 ≤ K) (ha : InSigned K a)
    (hb : InSigned K b) (hle : K ≤ K') :
    (g K' (.ofInt K' a) (.ofInt K' b)).toInt = (g K (.ofInt K a) (.ofInt K b)).toInt := by
  rw [ofInt_eq_signExtend hK ha, ofInt_eq_signExtend hK hb, ← hg.signExtend,
    BitVec.toInt_signExtend_of_le hle]

/-- Any two widths that hold both operands give the same result. -/
theorem SignExtends.width_irrelevant (hg : SignExtends g) {K K' : Nat} (hK : 1 ≤ K) (hK' : 1 ≤ K')
    (ha : InSigned K a) (hb : InSigned K b) (ha' : InSigned K' a) (hb' : InSigned K' b) :
    (g K' (.ofInt K' a) (.ofInt K' b)).toInt = (g K (.ofInt K a) (.ofInt K b)).toInt := by
  rcases Nat.le_total K K' with hle | hle
  · exact hg.widen hK ha hb hle
  · exact (hg.widen hK' ha' hb' hle).symm

end

/-- The model's width holds every value up to the larger magnitude. -/
theorem inSigned_jointWidth {a b v : Int} (h : v.natAbs ≤ max a.natAbs b.natAbs) :
    InSigned (jointWidth a b) v := by
  have hlt : max a.natAbs b.natAbs < 2 ^ (jointWidth a b - 1) := Nat.lt_log2_self
  unfold InSigned signedBound
  omega

/-- The model's bitwise functions, at any width that holds both operands. -/
theorem bitwise_eq_of_inSigned {K : Nat} {a b : Int} (hK : 1 ≤ K) (ha : InSigned K a)
    (hb : InSigned K b) :
    bitXor a b = (BitVec.ofInt K a ^^^ BitVec.ofInt K b).toInt ∧
    bitAnd a b = (BitVec.ofInt K a &&& BitVec.ofInt K b).toInt ∧
    bitOr a b = (BitVec.ofInt K a ||| BitVec.ofInt K b).toInt := by
  have hJ : 1 ≤ jointWidth a b := Nat.le_add_left 1 _
  have ha' : InSigned (jointWidth a b) a := inSigned_jointWidth (le_max_left ..)
  have hb' : InSigned (jointWidth a b) b := inSigned_jointWidth (le_max_right ..)
  exact ⟨signExtends_xor.width_irrelevant hK hJ ha hb ha' hb',
    signExtends_and.width_irrelevant hK hJ ha hb ha' hb',
    signExtends_or.width_irrelevant hK hJ ha hb ha' hb'⟩

/-- No bitwise result of register values leaves `RANGE_R`. -/
theorem inReg_bitwise {c : Config} (hw : c.WidthsOk) {a b : Int} (ha : c.InReg a) (hb : c.InReg b) :
    c.InReg (bitXor a b) ∧ c.InReg (bitAnd a b) ∧ c.InReg (bitOr a b) := by
  rw [inReg_iff] at ha hb
  obtain ⟨hx, ha', ho⟩ := bitwise_eq_of_inSigned (by have := hw.2.1; omega) ha hb
  simp only [inReg_iff, hx, ha', ho]
  exact ⟨toInt_mem_signedRange _, toInt_mem_signedRange _, toInt_mem_signedRange _⟩

theorem ofInt_neg_one (K : Nat) : BitVec.ofInt K (-1) = BitVec.allOnes K := by
  rw [BitVec.ofInt_neg]; simp [BitVec.neg_one_eq_allOnes]

/-- -1 is the all-ones mask of `and`. -/
theorem bitAnd_neg_one (a : Int) : bitAnd a (-1) = a := by
  have ha : InSigned (jointWidth a (-1)) a := inSigned_jointWidth (le_max_left ..)
  rw [bitAnd, ofInt_neg_one, BitVec.and_allOnes]
  exact toInt_ofInt_of_signedRange (Nat.le_add_left 1 _) ha.1 ha.2

/-- The complement of a value's encoding encodes `-a - 1`. -/
theorem not_ofInt (K : Nat) (a : Int) : ~~~ BitVec.ofInt K a = BitVec.ofInt K (-a - 1) := by
  rw [Int.sub_eq_add_neg, BitVec.ofInt_add, BitVec.ofInt_neg, ofInt_neg_one, BitVec.neg_eq_not_add]
  simp [← BitVec.neg_one_eq_allOnes]

/-- `xor` with -1 is the complement. -/
theorem bitXor_neg_one (a : Int) : bitXor a (-1) = -a - 1 := by
  have ha : InSigned (jointWidth a (-1)) a := inSigned_jointWidth (le_max_left ..)
  rw [bitXor, ofInt_neg_one, BitVec.xor_allOnes, not_ofInt]
  unfold InSigned at ha
  exact toInt_ofInt_of_signedRange (K := jointWidth a (-1)) (Nat.le_add_left 1 _) (by omega) (by omega)

/-- Settles O37: independence of the width, and the mask -1. -/
theorem bitwiseLaws : Obligations.BitwiseLaws := by
  intro a b
  exact ⟨fun K hK ha ha' hb hb' => bitwise_eq_of_inSigned hK ⟨ha, ha'⟩ ⟨hb, hb'⟩,
    fun c hw ha hb => inReg_bitwise hw ha hb, bitAnd_neg_one a, bitXor_neg_one a⟩

/-- Settles O14: `inReg_bitwise` for the immediate, which fits a register, and for the source. -/
theorem bitwiseFormsNeverFail : Obligations.BitwiseFormsNeverFail := by
  intro s d src n hw hn hd hsrc
  obtain ⟨hx, ha, ho⟩ := inReg_bitwise hw hd (inReg_of_inImm hw hn)
  obtain ⟨hx', ha', ho'⟩ := inReg_bitwise hw hd hsrc
  obtain ⟨-, -, -, -, -, xori, andi, ori⟩ := immediateFormsComplete s d n _ rfl
  obtain ⟨-, -, -, -, -, xorr, andr, orr⟩ := registerFormsComplete s d src _ _ rfl rfl
  exact ⟨xori hx, andi ha, ori ho, xorr hx', andr ha', orr ho'⟩

/-- Settles O38: ANDI and OPLUSI with the mask -1. -/
theorem allOnesMask : Obligations.AllOnesMask := by
  intro s d hd
  obtain ⟨-, -, -, -, -, hxor, hand, -⟩ := immediateFormsComplete s d (-1) _ rfl
  rw [bitAnd_neg_one] at hand
  rw [bitXor_neg_one] at hxor
  refine ⟨by rw [hand hd, RegFile.set_get_self], hxor ?_⟩
  rw [inReg_iff] at *
  omega

end Sys2Proof.Machine
end

section
/-! PROOFS of the laws of the memory (20_memory.md R54, 10_state.md R32) and of what one instruction
leaves unchanged: frames, the signal, and the state no program can see. -/

namespace Sys2Proof.Machine

/-! ### Memory -/

/-- Settles O32: `find_write`, `read_write`, and `memOk_write` for a value that fits a cell. -/
theorem memoryWrites : Obligations.MemoryWrites := by
  intro c m a v hw hm ha hv
  refine ⟨Memory.find_write_self .., Memory.read_write_self .., fun b hb => ?_,
    memOk_write hm ha (inCell_of_inReg hw hv)⟩
  rw [Memory.find_write, Memory.read_write, if_neg hb, if_neg hb]
  exact ⟨rfl, rfl⟩

/-- In canonical form a memory assigns nothing below the address it begins with. -/
theorem Memory.find_eq_none_of_lt {k a : Nat} {v : Int} {m : Memory}
    (h : Memory.wf ((k, v) :: m) = true) (ha : a < k) : Memory.find ((k, v) :: m) a = none := by
  by_contra hne
  obtain ⟨x, hx⟩ := Option.ne_none_iff_exists'.mp hne
  rcases List.mem_cons.mp ((Memory.find_eq_some_iff h a x).mp hx) with he | hm
  · cases he; omega
  · have := ((Memory.wf_cons k v m).mp h).1 _ hm
    dsimp only at this
    omega

theorem Memory.find_cons_self (k : Nat) (v : Int) (m : Memory) : Memory.find ((k, v) :: m) k = some v :=
  if_pos rfl

/-- The first cells of two memories that find the same are the same. -/
theorem Memory.head_address_le {k k' : Nat} {v v' : Int} {m m' : Memory}
    (h' : Memory.wf ((k', v') :: m') = true)
    (hf : ∀ a, Memory.find ((k, v) :: m) a = Memory.find ((k', v') :: m') a) : k' ≤ k := by
  by_contra hlt
  have hnone := Memory.find_eq_none_of_lt h' (a := k) (by omega)
  rw [← hf k, Memory.find_cons_self] at hnone
  cases hnone

/-- Dropping the same first cell of two memories keeps that they find the same. -/
theorem Memory.find_tail_congr {k : Nat} {v : Int} {m m' : Memory}
    (h : Memory.wf ((k, v) :: m) = true) (h' : Memory.wf ((k, v) :: m') = true)
    (hf : ∀ a, Memory.find ((k, v) :: m) a = Memory.find ((k, v) :: m') a) (a : Nat) :
    m.find a = m'.find a := by
  have absent {m : Memory} (h : Memory.wf ((k, v) :: m) = true) : m.find k = none := by
    obtain ⟨hlt, hwf⟩ := (Memory.wf_cons k v m).mp h
    by_contra hne
    obtain ⟨x, hx⟩ := Option.ne_none_iff_exists'.mp hne
    exact lt_irrefl _ (hlt _ ((Memory.find_eq_some_iff hwf k x).mp hx))
  by_cases ha : k = a
  · subst ha; rw [absent h, absent h']
  · have := hf a
    unfold Memory.find at this
    rwa [if_neg ha, if_neg ha] at this

/-- Settles O35, by induction on both lists, whose first cells agree. -/
theorem memoryExtensional : Obligations.MemoryExtensional := by
  intro m
  induction m with
  | nil =>
    rintro (_ | ⟨⟨k, v⟩, m'⟩) _ _ hf
    · rfl
    · exact nomatch (hf k).trans (Memory.find_cons_self k v m')
  | cons p m ih =>
    obtain ⟨k, v⟩ := p
    rintro (_ | ⟨⟨k', v'⟩, m'⟩) h h' hf
    · exact nomatch (hf k).symm.trans (Memory.find_cons_self k v m)
    · obtain rfl : k = k' := Nat.le_antisymm (Memory.head_address_le h fun a => (hf a).symm)
        (Memory.head_address_le h' hf)
      obtain rfl : v = v' := by simpa [Memory.find_cons_self] using hf k
      have htail := Memory.find_tail_congr h h' hf
      rw [ih m' ((Memory.wf_cons k v m).mp h).2 ((Memory.wf_cons k v m').mp h').2 htail]

/-! ### Frames -/

/-- Inside a Step a raised error brings back the registers and the memory it was raised on. -/
theorem raised_of_inStep {s : State} {e : RunError} {p : Snapshot} {rest : List Snapshot}
    (hs : s.inStep = true) (hu : s.undo = p :: rest) :
    (raised e s p rest).regs = s.regs ∧ (raised e s p rest).mem = s.mem := by
  simp only [State.inStep, hu, List.head?_cons, Bool.and_eq_true, beq_iff_eq, Option.some.injEq] at hs
  obtain ⟨-, rfl⟩ := hs
  exact ⟨rfl, rfl⟩

/-- Settles O25, by the cases of `exec_eq_next`: only a destination and PC are ever set. -/
theorem registerFrame : Obligations.RegisterFrame := by
  intro i s t r hs h hdest hpc
  rcases exec_eq_next h with ⟨e, p, rest, -, hu, rfl⟩ | ⟨d, v, hd, -, -, -, -, rfl⟩ |
    ⟨_, _, _, _, _, _, _, rfl⟩ | ⟨n, _, _, _, _, _, _, rfl⟩ | ⟨_, _, _, _, rfl⟩ | ⟨_, rfl⟩
  · rw [(raised_of_inStep hs hu).1]
  · exact RegFile.get_set_ne _ _ fun hr => hdest (hr ▸ hd)
  · rfl
  · exact RegFile.get_set_ne _ _ hpc
  · rfl
  · rfl

/-- An instruction without a store address leaves the memory. -/
theorem mem_of_storeAddr_none {i : Instr} {s t : State} (hs : s.inStep = true)
    (h : exec i s = .next t) (hstore : storeAddr i s = none) : t.mem = s.mem := by
  rcases exec_eq_next h with ⟨e, p, rest, -, hu, rfl⟩ | ⟨_, _, _, _, _, _, _, rfl⟩ |
    ⟨a, _, _, ha, _, _, _, rfl⟩ | ⟨_, _, _, _, _, _, _, rfl⟩ | ⟨_, _, _, _, rfl⟩ | ⟨_, rfl⟩
  · exact (raised_of_inStep hs hu).2
  · rfl
  · rw [ha] at hstore; cases hstore
  · rfl
  · rfl
  · rfl

/-- Settles O26. -/
theorem nonStoringMemoryFrame : Obligations.NonStoringMemoryFrame := by
  intro i s t a hs h hstore
  rw [mem_of_storeAddr_none hs h hstore]
  exact ⟨rfl, rfl⟩

/-- Settles O27: a store fails and is rolled back, or is one write. -/
theorem storeFrame : Obligations.StoreFrame := by
  intro i s t ea hs h hstore
  rcases exec_eq_next h with ⟨e, p, rest, -, hu, rfl⟩ | ⟨_, _, _, hn, _, _, _, rfl⟩ |
    ⟨a, r, _, ha, _, _, hin, rfl⟩ | ⟨_, _, _, hn, _, _, _, rfl⟩ | ⟨_, hn, _, _, rfl⟩ | ⟨rfl, rfl⟩
  · obtain ⟨hregs, hmem⟩ := raised_of_inStep (e := e) hs hu
    exact ⟨hregs, fun a _ => by rw [hmem]; exact ⟨rfl, rfl⟩⟩
  · rw [hn] at hstore; cases hstore
  · obtain rfl : a = ea := Option.some.inj (ha.symm.trans hstore)
    refine ⟨rfl, fun b hb => ?_⟩
    have hne : b ≠ a.toNat := by have := hin.1; omega
    dsimp only
    rw [Memory.find_write, Memory.read_write, if_neg hne, if_neg hne]
    exact ⟨rfl, rfl⟩
  · rw [hn] at hstore; cases hstore
  · rw [hn] at hstore; cases hstore
  · cases hstore

/-- Settles O28: of the cases of `exec_eq_next` only a destination PC and a taken jump set PC. -/
theorem pcFrame : Obligations.PcFrame := by
  intro i s t hs h hdest hjump
  rcases exec_eq_next h with ⟨e, p, rest, -, hu, rfl⟩ | ⟨d, v, hd, -, -, -, -, rfl⟩ |
    ⟨_, _, _, _, _, _, _, rfl⟩ | ⟨_, _, _, _, htaken, _, _, rfl⟩ | ⟨_, _, _, _, rfl⟩ | ⟨_, rfl⟩
  · rw [(raised_of_inStep hs hu).1]
  · exact RegFile.set_pc_of_ne _ _ fun hr => hdest (hr ▸ hd)
  · rfl
  · rw [htaken] at hjump; cases hjump
  · rfl
  · rfl

/-- Settles O29: an error leaves `running`, and every other case writes its effect alone. -/
theorem controlStateFrame : Obligations.ControlStateFrame := by
  intro i s t h
  rcases exec_eq_next h with ⟨e, p, rest, -, hu, rfl⟩ | ⟨_, _, _, _, _, _, _, rfl⟩ |
    ⟨_, _, _, _, _, _, _, rfl⟩ | ⟨_, _, _, _, htaken, _, _, rfl⟩ | ⟨_, _, _, hc, rfl⟩ | ⟨_, rfl⟩
  · exact ⟨⟨rfl, rfl, rfl, rfl, rfl, rfl⟩, fun _ hrun => nomatch hrun⟩
  · exact ⟨⟨rfl, rfl, rfl, rfl, rfl, rfl⟩, fun _ _ => ⟨rfl, rfl, fun _ _ => rfl⟩⟩
  · exact ⟨⟨rfl, rfl, rfl, rfl, rfl, rfl⟩, fun _ _ => ⟨rfl, rfl, fun _ _ => rfl⟩⟩
  · exact ⟨⟨rfl, rfl, rfl, rfl, rfl, rfl⟩, fun _ _ => ⟨rfl, rfl, fun hno => by simp [htaken] at hno⟩⟩
  · exact ⟨⟨rfl, rfl, rfl, rfl, rfl, rfl⟩, fun _ _ => ⟨rfl, rfl, fun _ hno => absurd hno hc⟩⟩
  · exact ⟨⟨rfl, rfl, rfl, rfl, rfl, rfl⟩, fun _ _ => ⟨rfl, rfl, fun _ _ => rfl⟩⟩

/-! ### The signal -/

theorem writeSignal_eq_jumped_iff {r : Reg} : writeSignal r = .jumped ↔ r = .pc := by
  simp [writeSignal]

/-- The signal of an instruction that succeeds. -/
theorem signal_eq_jumped_iff {i : Instr} {s t : State} (h : exec i s = .next t)
    (hrun : t.cstate = .running) :
    t.signal = .jumped ↔ i.dest? = some .pc ∨ takesJump i s = true := by
  rcases exec_eq_next h with ⟨e, p, rest, -, -, rfl⟩ | ⟨d, v, hd, -, hj, -, -, rfl⟩ |
    ⟨_, _, hd, _, hj, _, _, rfl⟩ | ⟨_, _, _, _, hj, _, _, rfl⟩ | ⟨hd, _, hj, _, rfl⟩ | ⟨rfl, rfl⟩
  · cases hrun
  · simp [hd, hj, writeSignal_eq_jumped_iff]
  · simp [hd, hj]
  · simp [hj]
  · simp [hd, hj]
  · simp [Instr.dest?, takesJump, condOf]

/-- Everything the Step of a fetched record can answer: the state rolled back, or the effect of an
instruction that succeeded, with one of the three ends of a Step. -/
theorem runRecord_outcome {s t : State} {rec : Record} (hf : s.fetch = some rec)
    (h : runRecord rec s.beginStep = .next t) :
    (∃ e, t = s.rolledBack e rec) ∨
    StepSucceeds s t ∧ ∃ u, exec rec.instr s.beginStep = .next u ∧ Affects s.beginStep u ∧
      0 ≤ u.autoAdvance.regs.pc ∧
      ((isSentinel rec.instr = true ∧ t = { u.autoAdvance with
          cstate := .terminated, msg := .terminateSentinel rec.line, signal := .advance }) ∨
       (u.progLen ≤ u.autoAdvance.regs.pc ∧ t = { u.autoAdvance with
          cstate := .terminated, msg := .endOfProgram, signal := .advance }) ∨
       (u.autoAdvance.regs.pc < u.progLen ∧ t = { u.autoAdvance with
          cstate := .awaitingStep, msg := .stepOk rec.line rec.text, signal := .advance })) := by
  rcases runRecord_next hf h with ⟨e, -, ht⟩ | hs
  · exact .inl ⟨e, ht⟩
  unfold runRecord at h
  cases hx : exec rec.instr s.beginStep with
  | fault f => rw [hx] at h; cases h
  | refused r => rw [hx] at h; cases h
  | next u =>
    simp only [hx] at h
    rcases exec_next_cases hx with ⟨hw, e, he⟩ | hu
    · rw [he, raise_of_affects hf (.refl _)] at hx
      rw [hw, if_neg nofun] at h
      cases hx; cases h
      exact nomatch hs.not_failed
    · have hrun : u.cstate = .running := by obtain ⟨_, _, _, _, rfl⟩ := hu; rfl
      rw [if_pos hrun] at h
      rcases finishStep_cases rec u with ⟨-, h'⟩ | ⟨h0, h1, h'⟩ | ⟨h0, -, h2, h'⟩ | ⟨h0, -, h2, h'⟩
      · rw [h', raise_of_affects hf hu.autoAdvance] at h
        cases h
        exact nomatch hs.not_failed
      all_goals rw [h'] at h; cases h
      · exact .inr ⟨hs, u, rfl, hu, h0, .inl ⟨h1, rfl⟩⟩
      · exact .inr ⟨hs, u, rfl, hu, h0, .inr (.inl ⟨h2, rfl⟩)⟩
      · exact .inr ⟨hs, u, rfl, hu, h0, .inr (.inr ⟨h2, rfl⟩)⟩

/-- A Step that serves a fetched record leaves the signal spent. -/
theorem signal_of_runRecord {s t : State} {rec : Record} (hf : s.fetch = some rec)
    (h : runRecord rec s.beginStep = .next t) : t.signal = .advance := by
  rcases runRecord_outcome hf h with ⟨e, rfl⟩ | ⟨-, u, -, -, -, ⟨-, rfl⟩ | ⟨-, rfl⟩ | ⟨-, rfl⟩⟩ <;> rfl

/-- Settles O30: `beginStep` overwrites the signal before anything reads it. -/
theorem signalRule : Obligations.SignalRule := by
  refine ⟨fun i s t _ h hrun => signal_eq_jumped_iff h hrun, fun s rec old hl hw hf => ⟨?_, ?_⟩⟩
  · have hold := serveStep_of_fetch (s := { s with signal := old }) hl hw hf
    exact hold.trans (serveStep_of_fetch hl hw hf).symm
  · intro t h
    rw [serveStep_of_fetch hl hw hf] at h
    exact signal_of_runRecord hf h

/-! ### The state a program cannot see -/

/-- The two states hold the same configuration, registers and memory, and programs of one length. -/
structure SameMachine (s s' : State) : Prop where
  cfg : s.cfg = s'.cfg
  regs : s.regs = s'.regs
  mem : s.mem = s'.mem
  progLen : s.progLen = s'.progLen

/-- The two outcomes raise the same error, or write the same effect, each on its own state. -/
def SameEffect (s s' : State) (o o' : Out) : Prop :=
  (∃ e, o = raise e s ∧ o' = raise e s') ∨
  ∃ f m g d d', o = .next { s with regs := f, mem := m, signal := g, dbg := d } ∧
    o' = .next { s' with regs := f, mem := m, signal := g, dbg := d' }

section
variable {s s' : State}

theorem sameEffect_raise (e : RunError) : SameEffect s s' (raise e s) (raise e s') :=
  .inl ⟨e, rfl, rfl⟩

theorem SameMachine.writeReg (h : SameMachine s s') (op : Op) (r : Reg) {v v' : Int} (hv : v = v') :
    SameEffect s s' (writeReg op r v s) (writeReg op r v' s') := by
  subst hv
  rcases writeReg_cases op r v s with ⟨hr, he⟩ | ⟨hr, he⟩
  · exact .inr ⟨_, _, _, _, s'.dbg, he, by rw [h.mem, h.regs]; exact if_pos (h.cfg ▸ hr)⟩
  · exact .inl ⟨_, he, if_neg (h.cfg ▸ hr)⟩

theorem SameMachine.withAddr (h : SameMachine s s') {a a' : Int} (ha : a = a') {k k' : Nat → Out}
    (hk : ∀ n, SameEffect s s' (k n) (k' n)) :
    SameEffect s s' (withAddr a s k) (withAddr a' s' k') := by
  subst ha
  rcases withAddr_cases a s k with ⟨ha, he⟩ | ⟨ha, he⟩
  · have he' : Machine.withAddr a s' k' = k' a.toNat := if_pos (h.cfg ▸ ha)
    rw [he, he']
    exact hk _
  · exact .inl ⟨_, he, if_neg (h.cfg ▸ ha)⟩

theorem SameMachine.loadCell (h : SameMachine s s') (op : Op) (d : Reg) {a a' : Int} (ha : a = a') :
    SameEffect s s' (loadCell op d a s) (loadCell op d a' s') :=
  h.withAddr ha fun n => h.writeReg op d (by rw [h.mem])

theorem SameMachine.storeCell (h : SameMachine s s') {a a' v v' : Int} (ha : a = a') (hv : v = v') :
    SameEffect s s' (storeCell a v s) (storeCell a' v' s') :=
  h.withAddr ha fun n => .inr ⟨_, _, _, _, s'.dbg, rfl, by rw [h.mem, h.regs, hv]⟩

theorem SameMachine.withOperand (h : SameMachine s s') (o : Operand) {k k' : Int → Out}
    (hk : ∀ b, SameEffect s s' (k b) (k' b)) :
    SameEffect s s' (withOperand o s k) (withOperand o s' k') := by
  unfold Machine.withOperand
  cases o with
  | mem n => exact h.withAddr rfl fun a => by rw [h.mem]; exact hk _
  | imm n => exact hk n
  | reg r => rw [h.regs]; exact hk _

theorem SameMachine.compute (h : SameMachine s s') (op : Op) (f : AluFn) (d : Reg) (o : Operand) :
    SameEffect s s' (compute op f d o s) (compute op f d o s') := by
  refine h.withOperand o fun b => ?_
  split
  · exact sameEffect_raise _
  · exact h.writeReg op d (by rw [h.regs])

theorem SameMachine.exec_compute (h : SameMachine s s') {i : Instr} {f : AluFn} {d : Reg}
    {o : Operand} (hp : computeParts i = some (f, d, o)) :
    SameEffect s s' (exec i s) (exec i s') := by
  rw [exec_computeParts hp, exec_computeParts hp]
  exact h.compute i.op f d o

theorem SameMachine.doJump (h : SameMachine s s') (n : Int) :
    SameEffect s s' (doJump n s) (doJump n s') := by
  unfold Machine.doJump
  rw [← h.regs, ← h.progLen]
  dsimp only
  split
  · exact sameEffect_raise _
  · split
    · exact sameEffect_raise _
    · exact .inr ⟨_, _, _, _, _, rfl, by rw [h.mem]⟩

theorem SameMachine.condJump (h : SameMachine s s') (op : Op) (c : Cond) (n : Int) :
    SameEffect s s' (condJump op c n s) (condJump op c n s') := by
  unfold Machine.condJump
  rw [← h.regs]
  split
  · exact h.doJump n
  · exact .inr ⟨_, _, _, _, _, rfl, by rw [h.mem, h.regs]⟩

/-- An instruction has the same effect on states that hold the same machine. -/
theorem SameMachine.exec (h : SameMachine s s') (i : Instr) :
    SameEffect s s' (exec i s) (exec i s') := by
  have reg (r : Reg) : s.regs.get r = s'.regs.get r := by rw [h.regs]
  have addr (b : Reg) (n : Int) : offsetAddr s b n = offsetAddr s' b n := by
    unfold offsetAddr; rw [reg]
  cases i with
  | load => exact h.loadCell _ _ rfl
  | loadin1 | loadin2 | loadin => exact h.loadCell _ _ (addr _ _)
  | loadi => exact h.writeReg _ _ rfl
  | move => exact h.writeReg _ _ (reg _)
  | storea | store => exact h.storeCell rfl (reg _)
  | storein1a | storein2a | storein => exact h.storeCell (addr _ _) (reg _)
  | add | addi | addr | sub | subi | subr | mult | multi | multr | div | divi | divr | mod | modi
  | modr | oplus | oplusi | oplusr | and | andi | andr | or | ori | orr => exact h.exec_compute rfl
  | jump => exact h.doJump _
  | jumpeq | jumpne | jumple | jumpge | jumplt | jumpgt => exact h.condJump ..
  | nop => exact .inr ⟨_, _, _, _, s'.dbg, rfl, by rw [h.mem, h.regs]; rfl⟩

end

/-- Settles O39: the same effect, of which an error would have left `running`. -/
theorem controllerInvisible : Obligations.ControllerInvisible := by
  intro i s s' t hc hr hm hl hrun hrun' h htrun
  have hsame : SameMachine s s' := ⟨hc, hr, hm, hl⟩
  rcases hsame.exec i with ⟨e, he, -⟩ | ⟨f, m, g, d, d', he, he'⟩
  · obtain ⟨p, rest, -, rfl⟩ := raise_eq_next (he.symm.trans h)
    cases htrun
  · cases he.symm.trans h
    exact ⟨_, he', hrun', rfl, rfl, rfl⟩

end Sys2Proof.Machine
end

section
/-! PROOFS of the table of 60_exceptions.md R254: which errors an operation raises when `M = R`. -/

namespace Sys2Proof.Machine

/-! ### Telling outcomes apart -/

theorem raise_injective {s : State} (hu : s.undo ≠ []) {e e' : RunError}
    (h : raise e s = raise e' s) : e = e' := by
  obtain ⟨p, rest, hu⟩ := List.exists_cons_of_ne_nil hu
  rw [raise_of_undo hu, raise_of_undo hu] at h
  have hmsg : (raised e s p rest).msg = (raised e' s p rest).msg := by rw [Host.Outcome.next.inj h]
  exact (StepMsg.error.inj hmsg).1

/-- The outcome, if it is an error raised on `s`, is one the table lists for `op`. -/
def RaisesListed (op : Op) (s : State) (o : Out) : Prop :=
  ∀ e, o = raise e s → mayRaise op e = true

section
variable {op : Op} {s : State}

theorem raisesListed_raise (hu : s.undo ≠ []) {e : RunError} (h : mayRaise op e = true) :
    RaisesListed op s (raise e s) :=
  fun _ he => raise_injective hu he ▸ h

theorem raisesListed_next {t : State} (ht : t.cstate = .running) : RaisesListed op s (.next t) := by
  intro e he
  obtain ⟨p, rest, -, rfl⟩ := raise_eq_next he.symm
  cases ht

theorem raisesListed_writeReg (hrun : s.cstate = .running) (hu : s.undo ≠ []) {r : Reg} {v : Int}
    (h : ¬ s.cfg.InReg v → mayRaise op (.registerOverflow r op v) = true) :
    RaisesListed op s (writeReg op r v s) := by
  rcases writeReg_cases op r v s with ⟨-, he⟩ | ⟨hr, he⟩ <;> rw [he]
  · exact raisesListed_next hrun
  · exact raisesListed_raise hu (h hr)

theorem raisesListed_withAddr (hu : s.undo ≠ []) {a : Int} {k : Nat → Out}
    (ha : mayRaise op (.memoryAddressOutOfRange a) = true) (hk : RaisesListed op s (k a.toNat)) :
    RaisesListed op s (withAddr a s k) := by
  rcases withAddr_cases a s k with ⟨-, he⟩ | ⟨-, he⟩ <;> rw [he]
  · exact hk
  · exact raisesListed_raise hu ha

theorem raisesListed_doJump (hrun : s.cstate = .running) (hu : s.undo ≠ []) {n : Int}
    (hneg : mayRaise op (.negativePC (s.regs.pc + n)) = true)
    (hover : mayRaise op (.pcOverflow (s.regs.pc + n)) = true) :
    RaisesListed op s (doJump n s) := by
  rcases doJump_cases n s with ⟨-, he⟩ | ⟨-, -, he⟩ | ⟨-, -, he⟩ <;> rw [he]
  · exact raisesListed_raise hu hneg
  · exact raisesListed_raise hu hover
  · exact raisesListed_next hrun

end

/-! ### The table's rows for the compute operations -/

theorem mayRaise_address {i : Instr} {f : AluFn} {d : Reg} {n : Int}
    (h : computeParts i = some (f, d, .mem n)) :
    mayRaise i.op (.memoryAddressOutOfRange n) = true := by
  cases i <;> cases h <;> rfl

theorem mayRaise_zeroDivisor {i : Instr} {f : AluFn} {d : Reg} {o : Operand}
    (h : computeParts i = some (f, d, o)) (hf : f.divides = true) :
    mayRaise i.op (.divisionByZero d i.op) = true := by
  cases i <;> cases h <;> first | rfl | cases hf

/-- The functions whose result never leaves `RANGE_R` (60_exceptions.md R254). -/
def AluFn.bounded : AluFn → Bool
  | .mod | .oplus | .and | .or => true
  | .add | .sub | .mult | .div => false

theorem mayRaise_overflow {i : Instr} {f : AluFn} {d : Reg} {o : Operand}
    (h : computeParts i = some (f, d, o)) (hf : f.bounded = false) (v : Int) :
    mayRaise i.op (.registerOverflow d i.op v) = true := by
  cases i <;> cases h <;> first | rfl | cases hf

theorem inReg_eval_of_bounded {c : Config} (hw : c.WidthsOk) {f : AluFn} (hf : f.bounded = true)
    {a b : Int} (ha : c.InReg a) (hb : c.InReg b) (hz : ¬ (f.divides = true ∧ b = 0)) :
    c.InReg (f.eval a b) := by
  obtain ⟨hx, hand, hor⟩ := inReg_bitwise hw ha hb
  cases f with
  | mod => exact inReg_fmod (fun h0 => hz ⟨rfl, h0⟩) hb
  | oplus => exact hx
  | and => exact hand
  | or => exact hor
  | _ => cases hf

/-! ### Operands are register values -/

/-- What a Step meets of a legal machine with `M = R` and an instruction that fits it. -/
structure LegalWithEqualWidths (i : Instr) (s : State) : Prop where
  widths : s.cfg.WidthsOk
  equal : s.cfg.cellWidth = s.cfg.regWidth
  regs : regsOk s.cfg s.regs = true
  mem : memOk s.cfg s.mem = true
  fits : i.fits s.cfg = true

section
variable {i : Instr} {s : State}

theorem LegalWithEqualWidths.reg (h : LegalWithEqualWidths i s) (r : Reg) :
    s.cfg.InReg (s.regs.get r) :=
  ((regsOk_iff _ _).mp h.regs r).1

theorem LegalWithEqualWidths.cell (h : LegalWithEqualWidths i s) (a : Nat) :
    s.cfg.InReg (s.mem.read a) := by
  have hcell := inCell_read h.mem a
  rw [Config.InCell, Config.cellMin, Config.cellMax, h.equal] at hcell
  exact hcell

theorem LegalWithEqualWidths.imm (h : LegalWithEqualWidths i s) {n : Int} (hn : i.imm? = some n) :
    s.cfg.InReg n := by
  have hfits := h.fits
  simp only [Instr.fits, Instr.immInRange, hn, Bool.and_eq_true, decide_eq_true_eq] at hfits
  exact inReg_of_inImm h.widths hfits.2

theorem imm_of_computeParts {f : AluFn} {d : Reg} {n : Int}
    (h : computeParts i = some (f, d, .imm n)) : i.imm? = some n := by
  cases i <;> cases h <;> rfl

theorem LegalWithEqualWidths.operand (h : LegalWithEqualWidths i s) {f : AluFn} {d : Reg}
    {o : Operand} {b : Int} (hp : computeParts i = some (f, d, o)) (hb : operandValue o s = some b) :
    s.cfg.InReg b := by
  rcases operandValue_eq_some_iff.mp hb with ⟨n, rfl, -, rfl⟩ | rfl | ⟨r, rfl, rfl⟩
  · exact h.cell _
  · exact h.imm (imm_of_computeParts hp)
  · exact h.reg r

/-! ### Every instruction -/

theorem raisesListed_compute (h : LegalWithEqualWidths i s) (hrun : s.cstate = .running)
    (hu : s.undo ≠ []) {f : AluFn} {d : Reg} {o : Operand} (hp : computeParts i = some (f, d, o)) :
    RaisesListed i.op s (exec i s) := by
  rw [exec_computeParts hp]
  rcases compute_cases i.op f d o s with ⟨n, rfl, -, -, he⟩ | ⟨b, -, hf, -, he⟩ |
    ⟨b, hb, hz, hr, he⟩ | ⟨b, -, -, -, he⟩ <;> rw [he]
  · exact raisesListed_raise hu (mayRaise_address hp)
  · exact raisesListed_raise hu (mayRaise_zeroDivisor hp hf)
  · refine raisesListed_raise hu (mayRaise_overflow hp ?_ _)
    by_contra hf
    exact hr (inReg_eval_of_bounded h.widths (by simpa using hf) (h.reg d) (h.operand hp hb) hz)
  · exact raisesListed_next hrun

theorem raisesListed_loadCell (h : LegalWithEqualWidths i s) (hrun : s.cstate = .running)
    (hu : s.undo ≠ []) {op : Op} {d : Reg} {a : Int}
    (ha : mayRaise op (.memoryAddressOutOfRange a) = true) :
    RaisesListed op s (loadCell op d a s) :=
  raisesListed_withAddr hu ha (raisesListed_writeReg hrun hu fun hr => absurd (h.cell _) hr)

theorem raisesListed_storeCell (hrun : s.cstate = .running) (hu : s.undo ≠ []) {op : Op} {a v : Int}
    (ha : mayRaise op (.memoryAddressOutOfRange a) = true) :
    RaisesListed op s (storeCell a v s) :=
  raisesListed_withAddr hu ha (raisesListed_next hrun)

theorem raisesListed_condJump (hrun : s.cstate = .running) (hu : s.undo ≠ []) {op : Op} {c : Cond}
    {n : Int} (hneg : mayRaise op (.negativePC (s.regs.pc + n)) = true)
    (hover : mayRaise op (.pcOverflow (s.regs.pc + n)) = true) :
    RaisesListed op s (condJump op c n s) := by
  rcases condJump_cases op c n s with ⟨-, he⟩ | ⟨-, he⟩ <;> rw [he]
  · exact raisesListed_doJump hrun hu hneg hover
  · exact raisesListed_next hrun

/-- Every instruction raises only what the table lists for its operation. -/
theorem raisesListed_exec (h : LegalWithEqualWidths i s) (hrun : s.cstate = .running)
    (hu : s.undo ≠ []) : RaisesListed i.op s (exec i s) := by
  cases i with
  | load | loadin1 | loadin2 | loadin => exact raisesListed_loadCell h hrun hu rfl
  | loadi => exact raisesListed_writeReg hrun hu fun hr => absurd (h.imm rfl) hr
  | move => exact raisesListed_writeReg hrun hu fun hr => absurd (h.reg _) hr
  | storea | storein1a | storein2a | store | storein => exact raisesListed_storeCell hrun hu rfl
  | add | addi | addr | sub | subi | subr | mult | multi | multr | div | divi | divr | mod | modi
  | modr | oplus | oplusi | oplusr | and | andi | andr | or | ori | orr =>
    exact raisesListed_compute h hrun hu rfl
  | jump => exact raisesListed_doJump hrun hu rfl rfl
  | jumpeq | jumpne | jumple | jumpge | jumplt | jumpgt => exact raisesListed_condJump hrun hu rfl rfl
  | nop => exact raisesListed_next hrun

end

/-- Settles O24: an error message can only come from a raised error, which is a listed one. -/
theorem onlyListedErrors : Obligations.OnlyListedErrors := by
  intro i s t hs hw heq hregs hmem hfits hmsg h e line text ht
  have hlegal : LegalWithEqualWidths i s := ⟨hw, heq, hregs, hmem, hfits⟩
  rcases exec_eq_next h with ⟨e', p, rest, he, hu, rfl⟩ | ⟨_, _, _, _, _, _, _, rfl⟩ |
    ⟨_, _, _, _, _, _, _, rfl⟩ | ⟨_, _, _, _, _, _, _, rfl⟩ | ⟨_, _, _, _, rfl⟩ | ⟨_, rfl⟩
  · obtain rfl : e' = e := (StepMsg.error.inj ht).1
    simp only [State.inStep, Bool.and_eq_true, beq_iff_eq] at hs
    obtain ⟨hrun, -⟩ := hs
    exact raisesListed_exec hlegal hrun (by rw [hu]; nofun) e' he
  all_goals exact nomatch hmsg.symm.trans ht

end Sys2Proof.Machine
end

section
/-! PROOFS of the controller: the requests it serves and the outcomes of Step and Undo
(45_controller.md). -/

namespace Sys2Proof.Machine

/-! ### Serving a request -/

theorem step_of_requests_nil {s : State} (h : s.requests = []) : step s = serveStep s := by
  simp only [step, serveNext, h]

theorem step_of_next {s t : State} {r : Request} {rest : List Request} (h : s.requests = r :: rest)
    (ht : serve r { s with requests := rest } = .next t) : step s = .next t := by
  simp only [step, serveNext, h, ht]

theorem step_of_refused {s : State} {r : Request} {rest : List Request} {why : Refusal}
    (h : s.requests = r :: rest) (ht : serve r { s with requests := rest } = .refused why) :
    step s = .next { s with requests := rest, refusal := some why } := by
  simp only [step, serveNext, h, ht]

/-- Without a program Step and Undo are refused. -/
theorem serve_of_prog_nil {s : State} {r : Request} (hr : r = .step ∨ r = .undo) (h : s.prog = []) :
    serve r s = .refused .noProgram := by
  rcases hr with rfl | rfl
  · exact serveStep_of_prog_nil h
  · exact serveUndo_of_prog_nil h

/-- A step that serves a listed Load answers what the Load answers. -/
theorem step_of_load {s : State} {inp : LoadInput} {rest : List Request}
    (h : s.requests = .load inp :: rest) : step s = serveLoad inp { s with requests := rest } := by
  obtain ⟨t, ht, -⟩ := serveLoad_next inp { s with requests := rest }
  rw [ht]
  exact step_of_next h ht

/-- Settles O5: the equations of `step`, one per outcome of the request served. -/
theorem stepServesOneRequest : Obligations.StepServesOneRequest := by
  refine ⟨fun u => ⟨rfl, rfl, fun _ => rfl⟩, fun s => ⟨step_of_requests_nil, fun r rest h =>
    ⟨fun t => step_of_next h, fun why => step_of_refused h⟩, fun r inp rest hr hp h => ?_⟩⟩
  exact ⟨_, step_of_refused h (serve_of_prog_nil hr hp), step_of_load rfl⟩

/-- Inside a Step an instruction always answers a next state. -/
theorem exec_beginStep_next (i : Instr) (s : State) : ∃ t, exec i s.beginStep = .next t := by
  rcases exec_cases i s.beginStep with ⟨e, h⟩ | ⟨_, _, _, _, _, _, _, h⟩ | ⟨_, _, _, _, _, _, _, h⟩ |
    ⟨_, _, _, _, _, _, _, h⟩ | ⟨_, _, _, _, h⟩ | ⟨_, h⟩
  · exact ⟨_, h.trans (raise_of_undo rfl)⟩
  all_goals exact ⟨_, h⟩

theorem runRecord_of_running {rec : Record} {s t : State} (h : exec rec.instr s = .next t)
    (hrun : t.cstate = .running) : runRecord rec s = finishStep rec t := by
  simp only [runRecord, h, hrun, if_true]

theorem runRecord_of_not_running {rec : Record} {s t : State} (h : exec rec.instr s = .next t)
    (hrun : t.cstate ≠ .running) : runRecord rec s = .next t := by
  simp only [runRecord, h, hrun, if_false]

/-- Settles O6: a step without listed requests runs the fetched record. -/
theorem stepRunsFetchedInstruction : Obligations.StepRunsFetchedInstruction := by
  intro s rec hreq hl hw hf
  obtain ⟨t, ht⟩ := exec_beginStep_next rec.instr s
  rw [step_of_requests_nil hreq, serveStep_of_fetch hl hw hf]
  exact ⟨t, ht, runRecord_of_running ht, runRecord_of_not_running ht⟩

/-! ### A word placed for the next step -/

/-- The state a decoded word is placed in. -/
theorem placeWord_of_some {s : State} {nbits w : Nat} {v : Variant} {i : Instr}
    (h : decodeSomewhere s.cfg.immWidth s.cfg.variant (w % 2 ^ nbits) = some (v, i)) :
    s.placeWord nbits w = { s with
      cfg := Config.withVariant s.cfg v
      prog := s.storeWith { line := 1, text := [], instr := i }
      regs := if s.fetch.isSome then s.regs else s.regs.set .pc 0
      cstate := .awaitingStep
      shutdown := false
      requests := [] } := by
  unfold State.placeWord; rw [h]

theorem State.fetch_of_getElem? {s : State} {n : Nat} {rec : Record} (hpc : s.regs.pc = n)
    (h : s.prog[n]? = some rec) : s.fetch = some rec := by
  simp [State.fetch, hpc, h]

/-- PC of the state a word is placed in indexes the word's record. -/
theorem storeWith_getElem? (s : State) (rec : Record) : ∃ n : Nat,
    (if s.fetch.isSome then s.regs else s.regs.set .pc 0).pc = n ∧
      (s.storeWith rec)[n]? = some rec := by
  unfold State.storeWith
  cases hf : s.fetch with
  | none => exact ⟨0, rfl, rfl⟩
  | some old =>
    obtain ⟨h0, hlt, -, -⟩ := State.fetch_eq_some hf
    unfold State.progLen at hlt
    refine ⟨s.regs.pc.toNat, (Int.toNat_of_nonneg h0).symm, ?_⟩
    exact List.getElem?_set_self (by omega)

/-- Settles O7: the placed record is the one PC indexes, and the controller waits for a Step. -/
theorem placedWordRuns : Obligations.PlacedWordRuns := by
  intro s nbits w v i h
  obtain ⟨n, hpc, hrec⟩ := storeWith_getElem? s { line := 1, text := [], instr := i }
  rw [State.withFetchWord, placeWord_of_some h, step_of_requests_nil rfl]
  exact serveStep_of_fetch rfl rfl (State.fetch_of_getElem? hpc hrec)

/-! ### The ends of a Step -/

theorem State.autoAdvance_pc (t : State) :
    t.autoAdvance.regs.pc = if t.signal = .advance then t.regs.pc + 1 else t.regs.pc := by
  cases hg : t.signal with
  | advance => rw [State.autoAdvance_regs_advance hg]; rfl
  | jumped => rw [State.autoAdvance_regs_jumped hg]; rfl

/-- A negative PC after the auto-advance comes from a destination PC. -/
theorem dest_of_autoAdvance_neg {i : Instr} {s t : State} (h : exec i s = .next t)
    (hrun : t.cstate = .running) (hpc : 0 ≤ s.regs.pc) (hneg : t.autoAdvance.regs.pc < 0) :
    i.dest? = some .pc := by
  rw [State.autoAdvance_pc] at hneg
  rcases exec_eq_next h with ⟨e, p, rest, -, -, rfl⟩ | ⟨d, v, hd, -, -, -, -, rfl⟩ |
    ⟨_, _, _, _, _, _, _, rfl⟩ | ⟨n, _, _, _, _, h0, _, rfl⟩ | ⟨_, _, _, _, rfl⟩ | ⟨_, rfl⟩
  · cases hrun
  · by_cases hdpc : d = .pc
    · exact hdpc ▸ hd
    · simp only [writeSignal_ne hdpc, RegFile.set_pc_of_ne _ _ hdpc, if_true] at hneg
      omega
  all_goals
    simp at hneg
    omega

/-- Settles O40: the controller's test of PC raises, and the whole Step is rolled back. -/
theorem negativePcFailsStep : Obligations.NegativePcFailsStep := by
  intro s t rec _ hl hw hf hexec hrun hneg
  obtain ⟨h0, -, -, -⟩ := State.fetch_eq_some hf
  refine ⟨dest_of_autoAdvance_neg hexec hrun h0 hneg, ?_⟩
  have hraise := raise_of_affects hf (affects_of_running hexec hrun).autoAdvance
    (.negativePC t.autoAdvance.regs.pc)
  rw [serveStep_of_running hl hw hf hexec hrun]
  exact (if_pos hneg).trans hraise

/-- JUMP 0 writes PC to PC. -/
theorem exec_jump_zero {s : State} (h0 : 0 ≤ s.regs.pc) (h1 : s.regs.pc ≤ s.progLen) :
    exec (.jump 0) s =
      .next { s with signal := .jumped, dbg := .jumpTaken s.regs.pc s.regs.pc } := by
  have hset : s.regs.set .pc s.regs.pc = s.regs := RegFile.set_get_self s.regs .pc
  have hjump := doJump_of_inRange (s := s) (n := 0) (by omega) (by omega)
  rwa [Int.add_zero, hset] at hjump

/-- Settles O41: JUMP 0 writes PC to PC, and the sentinel test comes before that of the end. -/
theorem sentinelTerminates : Obligations.SentinelTerminates := by
  intro s rec hl hw hf hi
  obtain ⟨h0, hlt, -, -⟩ := State.fetch_eq_some hf
  have hexec := exec_jump_zero (s := s.beginStep) h0 hlt.le
  have hsent : isSentinel rec.instr = true := by rw [hi]; rfl
  rw [← hi] at hexec
  rw [serveStep_of_running hl hw hf hexec rfl]
  rcases finishStep_cases rec { s.beginStep with
      signal := .jumped, dbg := .jumpTaken s.regs.pc s.regs.pc } with
    ⟨hneg, -⟩ | ⟨-, -, h⟩ | ⟨-, hs, -⟩ | ⟨-, hs, -⟩
  · exact absurd hneg (not_lt.mpr h0)
  · exact h
  · rw [hsent] at hs; cases hs
  · rw [hsent] at hs; cases hs

/-- Settles O43: of the four ends of a Step in `finishStep_cases`, only the last meets the
hypotheses. -/
theorem stepContinues : Obligations.StepContinues := by
  intro s t rec pc _ hl hw hf hinstr hexec hrun hadv hjmp h0 hlt
  have hauto := State.autoAdvance_eq hadv hjmp
  have hpc : t.autoAdvance.regs.pc = pc := by rw [hauto]; rfl
  have hsent := isSentinel_eq_false hinstr
  obtain ⟨f, m, g, d, ht⟩ := affects_of_running hexec hrun
  have hundo : t.undo = ⟨s.regs, s.mem⟩ :: s.undo := by rw [ht]; rfl
  have hlen : t.progLen = s.progLen := by rw [ht]; rfl
  rw [serveStep_of_running hl hw hf hexec hrun]
  rcases finishStep_cases rec t with ⟨hneg, -⟩ | ⟨-, hs, -⟩ | ⟨-, -, hend, -⟩ | ⟨-, -, -, h⟩
  · omega
  · rw [hsent] at hs; cases hs
  · omega
  · rw [h, hauto, ← hundo]

/-! ### What every request keeps -/

/-- Settles O44: the tests of Step and Undo in their order. -/
theorem requestPreconditions : Obligations.RequestPreconditions := by
  intro s
  refine ⟨fun hp => ⟨serveStep_of_prog_nil hp, serveUndo_of_prog_nil hp⟩, fun hp hl => ?_,
    fun hp hl hc => ?_, fun hp hl hc => ?_⟩
  · simp [serveStep, serveUndo, hp, hl]
  · simp [serveStep, hp, hl, hc]
  · simp [serveStep, serveUndo, hp, hl, hc]

/-- Settles O47: the branch of Undo that finds a snapshot. -/
theorem undoRestoresSnapshot : Obligations.UndoRestoresSnapshot :=
  fun _ _ _ => serveUndo_of_undo_cons

/-- Settles O48, by the outcomes of `serveStep_next`. -/
theorem undoDepth : Obligations.UndoDepth := by
  intro s t h
  rcases serveStep_next h with ⟨e, rec, _, _, _, _, rfl⟩ | hs | rfl | rfl
  · exact ⟨nofun, fun _ => ⟨rfl, rfl, rfl⟩⟩
  · exact ⟨fun _ => hs.undo, fun hno => nomatch hs.stepped.symm.trans hno⟩
  · exact ⟨nofun, fun _ => ⟨rfl, rfl, rfl⟩⟩
  · exact ⟨nofun, fun _ => ⟨rfl, rfl, rfl⟩⟩

/-- Settles O51. -/
theorem resetMeetsInvariant : Obligations.ResetMeetsInvariant := rfl

theorem serveStep_keeps {s t : State} (h : serveStep s = .next t) :
    t.prog = s.prog ∧ t.cfg = s.cfg ∧ (s.cstate ≠ .running → t.cstate ≠ .running) := by
  rcases serveStep_next h with ⟨e, rec, _, _, _, _, rfl⟩ | hs | rfl | rfl
  · exact ⟨rfl, rfl, fun _ => nofun⟩
  · exact ⟨hs.prog, hs.cfg, fun _ => hs.rests⟩
  · exact ⟨rfl, rfl, id⟩
  · exact ⟨rfl, rfl, id⟩

theorem serveUndo_keeps {s t : State} (h : serveUndo s = .next t) :
    t.prog = s.prog ∧ t.cfg = s.cfg ∧ (s.cstate ≠ .running → t.cstate ≠ .running) := by
  rcases serveUndo_cases s with ⟨r, h'⟩ | ⟨-, -, -, -, h'⟩ | ⟨-, -, -, _, _, -, h'⟩ <;>
    cases h'.symm.trans h
  · exact ⟨rfl, rfl, id⟩
  · exact ⟨rfl, rfl, fun _ => nofun⟩

/-- Settles O52. -/
theorem programAndModeKept : Obligations.ProgramAndModeKept :=
  fun _ _ h => h.elim serveStep_keeps serveUndo_keeps

/-! ### No fault -/

theorem finishStep_ne_fault {s u : State} {rec : Record} (hf : s.fetch = some rec)
    (hu : Affects s.beginStep u) (f : Fault) : finishStep rec u ≠ .fault f := by
  rcases finishStep_cases rec u with ⟨-, h⟩ | ⟨-, -, h⟩ | ⟨-, -, -, h⟩ | ⟨-, -, -, h⟩ <;> rw [h]
  · rw [raise_of_affects hf hu.autoAdvance]; nofun
  all_goals nofun

theorem finishStep_ne_refused (rec : Record) (s : State) (r : Refusal) :
    finishStep rec s ≠ .refused r := by
  rcases finishStep_cases rec s with ⟨-, h⟩ | ⟨-, -, h⟩ | ⟨-, -, -, h⟩ | ⟨-, -, -, h⟩ <;> rw [h]
  · exact raise_ne_refused _ _ r
  all_goals nofun

/-- The Step of a fetched record always answers a next state. -/
theorem runRecord_beginStep_next {s : State} {rec : Record} (hf : s.fetch = some rec) :
    ∃ t, runRecord rec s.beginStep = .next t := by
  obtain ⟨u, hu⟩ := exec_beginStep_next rec.instr s
  by_cases hrun : u.cstate = .running
  · rw [runRecord_of_running hu hrun]
    cases h : finishStep rec u with
    | next t => exact ⟨t, rfl⟩
    | fault f => exact absurd h (finishStep_ne_fault hf (affects_of_running hu hrun) f)
    | refused r => exact absurd h (finishStep_ne_refused rec u r)
  · exact ⟨u, runRecord_of_not_running hu hrun⟩

theorem serveStep_ne_fault (s : State) (f : Fault) : serveStep s ≠ .fault f := by
  rcases serveStep_cases s with ⟨-, h⟩ | ⟨-, -, h⟩ | ⟨-, -, -, h⟩ | ⟨-, -, -, h⟩ | ⟨-, -, -, -, h⟩ |
    ⟨-, -, -, rec, hf, h⟩ <;> rw [h]
  case inr.inr.inr.inr.inr =>
    obtain ⟨t, ht⟩ := runRecord_beginStep_next hf
    rw [ht]; nofun
  all_goals nofun

theorem serve_ne_fault (r : Request) (s : State) (f : Fault) : serve r s ≠ .fault f := by
  cases r with
  | load inp =>
    obtain ⟨t, ht, -⟩ := serveLoad_next inp s
    exact fun h => nomatch ht.symm.trans h
  | step => exact serveStep_ne_fault s f
  | undo =>
    rcases serveUndo_cases s with ⟨r, h⟩ | ⟨-, -, -, -, h⟩ | ⟨-, -, -, _, _, -, h⟩ <;>
      exact fun h' => nomatch h.symm.trans h'

/-- No step faults, from any state. -/
theorem step_ne_fault (s : State) (f : Fault) : step s ≠ .fault f := by
  rcases serveNext_cases s with ⟨-, h⟩ | ⟨r, rest, -, ⟨-, h⟩ | ⟨why, -, h⟩⟩ <;> rw [step, h]
  · exact serveStep_ne_fault s f
  · exact serve_ne_fault r _ f
  · nofun

/-- From the invariant the fetch of an awaiting controller is in range. -/
theorem fetch_of_inv {s : State} (hinv : s.inv = true) (hp : s.prog ≠ [])
    (hw : s.cstate = .awaitingStep) : ∃ rec, s.fetch = some rec := by
  obtain ⟨-, ⟨hnil, -⟩ | ⟨-, hok⟩⟩ := (State.inv_iff s).mp hinv
  · exact absurd hnil hp
  · obtain ⟨-, -, -, -, -, -, hpc⟩ := (State.loadedOk_iff s).mp hok
    simp only [hw, pcInside, Bool.and_eq_true, decide_eq_true_eq] at hpc
    exact State.fetch_isSome hpc.1 hpc.2

/-- A Step of a fetched record leaves the shutdown latch. -/
theorem shutdown_of_runRecord {s t : State} {rec : Record} (hf : s.fetch = some rec)
    (h : runRecord rec s.beginStep = .next t) : t.shutdown = s.shutdown := by
  rcases runRecord_next hf h with ⟨e, -, rfl⟩ | hs
  · rfl
  · exact hs.shutdown

/-- Settles O45. -/
theorem noInternalFault : Obligations.NoInternalFault := by
  refine fun s => ⟨step_ne_fault s, fun hinv hp hl hw => ?_⟩
  obtain ⟨rec, hf⟩ := fetch_of_inv hinv hp hw
  obtain ⟨t, ht⟩ := runRecord_beginStep_next hf
  exact ⟨⟨rec, hf⟩, t, (serveStep_of_fetch hl hw hf).trans ht, (shutdown_of_runRecord hf ht).trans hl⟩

end Sys2Proof.Machine
end

section
/-! PROOFS about the passes of the parser (40_parser.md R101): each is a traversal of a list that stops
at the first error, so what a traversal gives and where it fails is said once, of `collect`. -/

namespace Sys2Proof.Machine

/-! ### A traversal that stops at the first error -/

section
variable {α β ε : Type}

/-- The results of `f` on a list, or its first error. -/
def collect (f : α → Except ε β) : List α → Except ε (List β)
  | [] => .ok []
  | a :: as =>
    match f a with
    | .error e => .error e
    | .ok b =>
      match collect f as with
      | .error e => .error e
      | .ok bs => .ok (b :: bs)

variable {f : α → Except ε β}

theorem collect_cons_of_ok {a : α} {b : β} {as : List α} {bs : List β} (ha : f a = .ok b)
    (has : collect f as = .ok bs) : collect f (a :: as) = .ok (b :: bs) := by
  simp only [collect, ha, has]

theorem collect_cons_eq_ok {a : α} {as : List α} {out : List β} (h : collect f (a :: as) = .ok out) :
    ∃ b bs, f a = .ok b ∧ collect f as = .ok bs ∧ out = b :: bs := by
  unfold collect at h
  split at h
  · cases h
  · next b hb =>
    split at h
    · cases h
    · next bs hbs => cases h; exact ⟨b, bs, hb, hbs, rfl⟩

/-- A traversal succeeds exactly with the result of each element. -/
theorem collect_eq_ok_iff {as : List α} {bs : List β} :
    collect f as = .ok bs ↔ List.Forall₂ (fun a b => f a = .ok b) as bs := by
  constructor
  · intro h
    induction as generalizing bs with
    | nil => cases h; exact .nil
    | cons a as ih =>
      obtain ⟨b, bs, hb, hbs, rfl⟩ := collect_cons_eq_ok h
      exact .cons hb (ih hbs)
  · intro h
    induction h with
    | nil => rfl
    | cons ha _ ih => exact collect_cons_of_ok ha ih

/-- A traversal that fails does so at its first failing element. -/
theorem collect_eq_error {as : List α} {e : ε} (h : collect f as = .error e) :
    ∃ pre a post, as = pre ++ a :: post ∧ f a = .error e ∧ ∀ x ∈ pre, ∃ b, f x = .ok b := by
  induction as with
  | nil => cases h
  | cons a as ih =>
    unfold collect at h
    split at h
    · next e' he => cases h; exact ⟨[], a, as, rfl, he, nofun⟩
    · next b hb =>
      split at h
      · next e' he =>
        cases h
        obtain ⟨pre, x, post, rfl, hx, hpre⟩ := ih he
        refine ⟨a :: pre, x, post, rfl, hx, ?_⟩
        simp only [List.mem_cons, forall_eq_or_imp]
        exact ⟨⟨b, hb⟩, hpre⟩
      · cases h

theorem collect_length {as : List α} {bs : List β} (h : collect f as = .ok bs) :
    bs.length = as.length :=
  (collect_eq_ok_iff.mp h).length_eq.symm

/-- Every result of a traversal is the result of an element. -/
theorem collect_mem {as : List α} {bs : List β} (h : collect f as = .ok bs) {b : β} (hb : b ∈ bs) :
    ∃ a ∈ as, f a = .ok b := by
  induction as generalizing bs with
  | nil => cases h; cases hb
  | cons a as ih =>
    obtain ⟨b', bs, hb', hbs, rfl⟩ := collect_cons_eq_ok h
    rcases List.mem_cons.mp hb with rfl | hb
    · exact ⟨a, List.mem_cons_self, hb'⟩
    · obtain ⟨x, hx, hfx⟩ := ih hbs hb
      exact ⟨x, List.mem_cons_of_mem a hx, hfx⟩

theorem exists_of_collect {as : List α} {bs : List β} (h : collect f as = .ok bs) {a : α}
    (ha : a ∈ as) : ∃ b ∈ bs, f a = .ok b := by
  induction as generalizing bs with
  | nil => cases ha
  | cons a' as ih =>
    obtain ⟨b, bs, hb, hbs, rfl⟩ := collect_cons_eq_ok h
    rcases List.mem_cons.mp ha with rfl | ha
    · exact ⟨b, List.mem_cons_self, hb⟩
    · obtain ⟨x, hx, hfx⟩ := ih hbs ha
      exact ⟨x, List.mem_cons_of_mem b hx, hfx⟩

/-- Elements and results renamed alike are still elements and results. -/
theorem collect_map {g : α → α} {g' : β → β} (hg : ∀ a b, f a = .ok b → f (g a) = .ok (g' b))
    {as : List α} {bs : List β} (h : collect f as = .ok bs) :
    collect f (as.map g) = .ok (bs.map g') := by
  rw [collect_eq_ok_iff] at *
  induction h with
  | nil => exact .nil
  | cons ha _ ih => exact .cons (hg _ _ ha) ih

/-- A traversal of elements whose results are known. -/
theorem collect_map_of_forall {δ : Type} {g : δ → α} {h : δ → β} {xs : List δ}
    (hx : ∀ x ∈ xs, f (g x) = .ok (h x)) : collect f (xs.map g) = .ok (xs.map h) := by
  induction xs with
  | nil => rfl
  | cons x xs ih =>
    obtain ⟨hx, hxs⟩ := List.forall_mem_cons.mp hx
    exact collect_cons_of_ok hx (ih hxs)

end

/-! ### The three passes as traversals -/

/-- Pass A keeps what its lines give. -/
theorem passALines_eq_collect (c : Config) (ls : List (Nat × Text)) :
    passALines c ls =
      (collect (fun p => passALine c p.1 p.2) ls).map fun kept => kept.flatMap Option.toList := by
  induction ls with
  | nil => rfl
  | cons p ls ih =>
    obtain ⟨n, raw⟩ := p
    unfold passALines collect
    dsimp only
    cases passALine c n raw with
    | error e => rfl
    | ok kept =>
      dsimp only
      rw [ih]
      cases collect (fun p => passALine c p.1 p.2) ls <;> rfl

theorem passB_eq_collect (c : Config) (ls : List (Nat × Text)) :
    passB c ls = collect (fun p => passBLine c p.1 p.2) ls := by
  induction ls with
  | nil => rfl
  | cons p ls ih =>
    obtain ⟨n, s⟩ := p
    unfold passB collect
    dsimp only
    rw [ih]
    cases passBLine c n s with
    | error e => rfl
    | ok r => dsimp only; cases collect (fun p => passBLine c p.1 p.2) ls <;> rfl

theorem passC_eq_collect (c : Config) (rs : List Resolved) : passC c rs = collect (passCLine c) rs := by
  induction rs with
  | nil => rfl
  | cons r rs ih =>
    unfold passC collect
    rw [ih]
    cases passCLine c r with
    | error e => rfl
    | ok rec => dsimp only; cases collect (passCLine c) rs <;> rfl

/-- The arguments are read kind by kind. -/
theorem resolveArgs_eq_collect (c : Config) (line : Nat) (s : Text) (ks : List ArgKind)
    (ts : List Text) :
    resolveArgs c line s ks ts = collect (fun p => resolveArg c line s p.1 p.2) (ks.zip ts) := by
  induction ks generalizing ts with
  | nil => cases ts <;> rfl
  | cons k ks ih =>
    cases ts with
    | nil => rfl
    | cons t ts =>
      unfold resolveArgs
      rw [List.zip_cons_cons]
      unfold collect
      dsimp only
      rw [ih]
      cases resolveArg c line s k t with
      | error e => rfl
      | ok a =>
        dsimp only
        cases collect (fun p => resolveArg c line s p.1 p.2) (ks.zip ts) <;> rfl

/-- What Pass A gives of a text whose lines pass. -/
theorem passALines_eq_ok {c : Config} {ls out : List (Nat × Text)} (h : passALines c ls = .ok out) :
    ∃ kept, collect (fun p => passALine c p.1 p.2) ls = .ok kept ∧ out = kept.flatMap Option.toList := by
  rw [passALines_eq_collect] at h
  cases hc : collect (fun p => passALine c p.1 p.2) ls with
  | error e => rw [hc] at h; cases h
  | ok kept => rw [hc] at h; cases h; exact ⟨kept, rfl, rfl⟩

theorem passALines_eq_error {c : Config} {ls : List (Nat × Text)} {e : ParseError}
    (h : passALines c ls = .error e) : collect (fun p => passALine c p.1 p.2) ls = .error e := by
  rw [passALines_eq_collect] at h
  cases hc : collect (fun p => passALine c p.1 p.2) ls with
  | error e' => rw [hc] at h; cases h; rfl
  | ok kept => rw [hc] at h; cases h

theorem passA_eq_ok_iff {c : Config} {t : Text} {ls : List (Nat × Text)} : passA c t = .ok ls ↔
    passALines c (numberLines 1 (splitLines t)) = .ok ls ∧ ls ≠ [] := by
  unfold passA
  cases passALines c (numberLines 1 (splitLines t)) with
  | error e => simp
  | ok out => cases out <;> simp +contextual [eq_comm]

/-- A parse succeeds exactly when the three passes do. -/
theorem parse_eq_ok_iff {c : Config} {t : Text} {p : List Record} : parse c t = .ok p ↔
    ∃ ls rs, passA c t = .ok ls ∧ passB c ls = .ok rs ∧ passC c rs = .ok p := by
  unfold parse
  cases passA c t with
  | error e => simp
  | ok ls =>
    cases hb : passB c ls with
    | error e => simp [hb]
    | ok rs => simp [hb]

end Sys2Proof.Machine
end

section
/-! PROOFS of what a failing parse reports (40_parser.md R126, R101). -/

namespace Sys2Proof.Machine

/-! ### Numbered lines -/

theorem numberLines_getElem? (n k : Nat) (ls : List Text) :
    (numberLines n ls)[k]? = ls[k]?.map fun l => (n + k, l) := by
  induction ls generalizing n k with
  | nil => rfl
  | cons l ls ih =>
    cases k with
    | zero => rfl
    | succ k =>
      rw [numberLines, List.getElem?_cons_succ, List.getElem?_cons_succ, ih]
      congr 1; funext l; congr 1; omega

theorem mem_numberLines {n m : Nat} {l : Text} {ls : List Text} :
    (m, l) ∈ numberLines n ls ↔ ∃ k, m = n + k ∧ ls[k]? = some l := by
  rw [List.mem_iff_getElem?]
  simp only [numberLines_getElem?, Option.map_eq_some_iff, Prod.mk.injEq, exists_eq_right_right]
  exact exists_congr fun k => by tauto

/-- Line numbers rise. -/
theorem numberLines_pairwise (n : Nat) (ls : List Text) :
    (numberLines n ls).Pairwise fun p q => p.1 < q.1 := by
  induction ls generalizing n with
  | nil => exact .nil
  | cons l ls ih =>
    refine .cons (fun p hp => ?_) (ih (n + 1))
    obtain ⟨m, l'⟩ := p
    obtain ⟨k, rfl, -⟩ := mem_numberLines.mp hp
    dsimp only; omega

/-- In a list whose numbers rise, what comes before an element are the elements with a smaller one. -/
theorem mem_of_lt_of_pairwise {α : Type} {num : α → Nat} {pre post : List α} {a x : α}
    (h : (pre ++ a :: post).Pairwise fun p q => num p < num q) (hx : x ∈ pre ++ a :: post)
    (hlt : num x < num a) : x ∈ pre := by
  obtain ⟨-, h, -⟩ := List.pairwise_append.mp h
  rcases List.mem_append.mp hx with hx | hx
  · exact hx
  · rcases List.mem_cons.mp hx with rfl | hx
    · omega
    · have := List.rel_of_pairwise_cons h hx; omega

/-! ### Pass A -/

/-- Everything Pass A can make of one line. -/
theorem passALine_cases (c : Config) (n : Nat) (raw : Text) :
    passALine c n raw = .ok none ∨ (∃ s, passALine c n raw = .ok (some (n, s))) ∨
      ∃ s, passALine c n raw = .error (.missingTerminator n s) := by
  unfold passALine
  dsimp only
  split
  · exact .inl rfl
  · split
    · split
      · exact .inl rfl
      · exact .inr (.inl ⟨_, rfl⟩)
    · split
      · exact .inr (.inr ⟨_, rfl⟩)
      · exact .inr (.inl ⟨_, rfl⟩)

theorem passALine_eq_error {c : Config} {n : Nat} {raw : Text} {e : ParseError}
    (h : passALine c n raw = .error e) : ∃ s, e = .missingTerminator n s := by
  rcases passALine_cases c n raw with h' | ⟨s, h'⟩ | ⟨s, h'⟩ <;> cases h'.symm.trans h
  exact ⟨s, rfl⟩

/-- The lines Pass A keeps are physical lines with their number. -/
theorem mem_of_passALines {c : Config} {lines : List Text} {out : List (Nat × Text)}
    (h : passALines c (numberLines 1 lines) = .ok out) {n : Nat} {s : Text} (hm : (n, s) ∈ out) :
    ∃ k raw, n = k + 1 ∧ lines[k]? = some raw ∧ passALine c n raw = .ok (some (n, s)) := by
  obtain ⟨kept, hkept, rfl⟩ := passALines_eq_ok h
  obtain ⟨o, ho, hs⟩ := List.mem_flatMap.mp hm
  obtain ⟨⟨m, raw⟩, hp, hf⟩ := collect_mem hkept ho
  obtain ⟨k, rfl, hk⟩ := mem_numberLines.mp hp
  obtain rfl : o = some (n, s) := by simpa [eq_comm] using hs
  rcases passALine_cases c (1 + k) raw with h' | ⟨s', h'⟩ | ⟨s', h'⟩ <;> cases h'.symm.trans hf
  exact ⟨k, raw, Nat.add_comm 1 k, hk, hf⟩

/-- The numbers of the lines Pass A keeps rise. -/
theorem passALines_pairwise {c : Config} {ls out : List (Nat × Text)}
    (hls : ls.Pairwise fun p q => p.1 < q.1) (h : passALines c ls = .ok out) :
    out.Pairwise fun p q => p.1 < q.1 := by
  obtain ⟨kept, hkept, rfl⟩ := passALines_eq_ok h
  clear h
  induction ls generalizing kept with
  | nil => cases hkept; exact .nil
  | cons p ls ih =>
    obtain ⟨o, os, ho, hos, rfl⟩ := collect_cons_eq_ok hkept
    obtain ⟨hlt, hls⟩ := List.pairwise_cons.mp hls
    have hrest := ih hls os hos
    rcases passALine_cases c p.1 p.2 with h' | ⟨s, h'⟩ | ⟨s, h'⟩ <;> cases h'.symm.trans ho
    · exact hrest
    · refine .cons (fun q hq => ?_) hrest
      obtain ⟨o, ho, hq⟩ := List.mem_flatMap.mp hq
      obtain ⟨p', hp', hf⟩ := collect_mem hos ho
      obtain rfl : o = some q := by simpa [eq_comm] using hq
      rcases passALine_cases c p'.1 p'.2 with h' | ⟨s', h'⟩ | ⟨s', h'⟩ <;> cases h'.symm.trans hf
      exact hlt p' hp'

/-- How Pass A fails: on the lowest line without its terminator, or with nothing kept. -/
theorem passA_eq_error {c : Config} {t : Text} {e : ParseError} (h : passA c t = .error e) :
    (e = .emptyProgram ∧
      ∀ k raw, (splitLines t)[k]? = some raw → passALine c (k + 1) raw = .ok none) ∨
    ∃ k raw s, (splitLines t)[k]? = some raw ∧ e = .missingTerminator (k + 1) s ∧
      passALine c (k + 1) raw = .error e ∧
      ∀ j raw', j < k → (splitLines t)[j]? = some raw' → ∃ kept, passALine c (j + 1) raw' = .ok kept := by
  unfold passA at h
  cases hp : passALines c (numberLines 1 (splitLines t)) with
  | error e' =>
    rw [hp] at h
    cases h
    refine .inr ?_
    obtain ⟨pre, ⟨n, raw⟩, post, hls, he, hpre⟩ := collect_eq_error (passALines_eq_error hp)
    have hmem : (n, raw) ∈ numberLines 1 (splitLines t) := by rw [hls]; simp
    obtain ⟨k, rfl, hk⟩ := mem_numberLines.mp hmem
    obtain ⟨s, rfl⟩ := passALine_eq_error he
    rw [Nat.add_comm 1 k] at *
    refine ⟨k, raw, s, hk, rfl, he, fun j raw' hj hraw' => ?_⟩
    refine hpre (j + 1, raw') (mem_of_lt_of_pairwise (num := Prod.fst) (a := (k + 1, raw))
      (post := post) ?_ ?_ (Nat.succ_lt_succ hj))
    · rw [← hls]; exact numberLines_pairwise 1 _
    · rw [← hls]; exact mem_numberLines.mpr ⟨j, Nat.add_comm j 1, hraw'⟩
  | ok out =>
    rw [hp] at h
    cases out with
    | cons l ls => cases h
    | nil =>
      cases h
      refine .inl ⟨rfl, fun k raw hk => ?_⟩
      obtain ⟨kept, hkept, hnil⟩ := passALines_eq_ok hp
      have hmem : (k + 1, raw) ∈ numberLines 1 (splitLines t) :=
        mem_numberLines.mpr ⟨k, Nat.add_comm k 1, hk⟩
      obtain ⟨o, ho, hf⟩ := exists_of_collect hkept hmem
      have hnone := List.flatMap_eq_nil_iff.mp hnil.symm o ho
      rw [Option.toList_eq_nil_iff] at hnone
      exact hnone ▸ hf

/-! ### Passes B and C -/

/-- A line after Pass B is the pair it came from, with a row of `OPTABLE`. -/
theorem passBLine_eq_ok {c : Config} {n : Nat} {s : Text} {r : Resolved}
    (h : passBLine c n s = .ok r) :
    ∃ row, lookupOp c ((tokens s).headD []) = some row ∧
      r = { line := n, text := s, row := row, args := (tokens s).tail } := by
  unfold passBLine at h
  dsimp only at h
  split at h
  · next row hrow => cases h; exact ⟨row, hrow, rfl⟩
  · cases h

theorem passBLine_error_site {c : Config} {n : Nat} {s : Text} {e : ParseError}
    (h : passBLine c n s = .error e) : e.site = some (n, s) := by
  unfold passBLine at h
  dsimp only at h
  split at h
  · cases h
  · cases h; rfl

theorem passB_sites {c : Config} {ls : List (Nat × Text)} {rs : List Resolved}
    (h : passB c ls = .ok rs) : rs.map (fun r => (r.line, r.text)) = ls := by
  rw [passB_eq_collect, collect_eq_ok_iff] at h
  induction h with
  | nil => rfl
  | cons hr _ ih =>
    obtain ⟨row, -, rfl⟩ := passBLine_eq_ok hr
    rw [List.map_cons, ih]

theorem resolveArg_error_site {c : Config} {n : Nat} {s : Text} {k : ArgKind} {t : Text}
    {e : ParseError} (h : resolveArg c n s k t = .error e) : e.site = some (n, s) := by
  cases k with
  | reg =>
    simp only [resolveArg] at h
    split at h <;> cases h
    rfl
  | int =>
    simp only [resolveArg] at h
    split at h
    · cases h; rfl
    · split at h <;> cases h
      rfl

theorem passCLine_error_site {c : Config} {r : Resolved} {e : ParseError}
    (h : passCLine c r = .error e) : e.site = some (r.line, r.text) := by
  unfold passCLine at h
  split at h
  · cases h; rfl
  · split at h
    · next e' he =>
      cases h
      rw [resolveArgs_eq_collect] at he
      obtain ⟨_, _, _, _, hp, _⟩ := collect_eq_error he
      exact resolveArg_error_site hp
    · cases h

/-- How Pass B fails: on the lowest of its lines that fails. -/
theorem passB_eq_error {c : Config} {ls : List (Nat × Text)} {e : ParseError}
    (hls : ls.Pairwise fun p q => p.1 < q.1) (h : passB c ls = .error e) :
    ∃ n s, (n, s) ∈ ls ∧ e.site = some (n, s) ∧ passBLine c n s = .error e ∧
      ∀ m s', (m, s') ∈ ls → m < n → ∃ r, passBLine c m s' = .ok r := by
  rw [passB_eq_collect] at h
  obtain ⟨pre, ⟨n, s⟩, post, rfl, he, hpre⟩ := collect_eq_error h
  exact ⟨n, s, by simp, passBLine_error_site he, he,
    fun m s' hm hlt => hpre (m, s') (mem_of_lt_of_pairwise hls hm hlt)⟩

/-- How Pass C fails: on the lowest of its lines that fails. -/
theorem passC_eq_error {c : Config} {rs : List Resolved} {e : ParseError}
    (hrs : rs.Pairwise fun p q => p.line < q.line) (h : passC c rs = .error e) :
    ∃ r ∈ rs, e.site = some (r.line, r.text) ∧ passCLine c r = .error e ∧
      ∀ r' ∈ rs, r'.line < r.line → ∃ rec, passCLine c r' = .ok rec := by
  rw [passC_eq_collect] at h
  obtain ⟨pre, r, post, rfl, he, hpre⟩ := collect_eq_error h
  exact ⟨r, by simp, passCLine_error_site he, he,
    fun r' hr' hlt => hpre r' (mem_of_lt_of_pairwise hrs hr' hlt)⟩

/-- How a parse fails after Pass A. -/
theorem parse_eq_error_of_passA_ok {c : Config} {t : Text} {e : ParseError} {ls : List (Nat × Text)}
    (hA : passA c t = .ok ls) (h : parse c t = .error e) :
    passB c ls = .error e ∨ ∃ rs, passB c ls = .ok rs ∧ passC c rs = .error e := by
  unfold parse at h
  rw [hA] at h
  dsimp only at h
  split at h
  · next e' he => cases h; exact .inl he
  · next rs hrs => exact .inr ⟨rs, hrs, h⟩

theorem parse_eq_error_of_passA_error {c : Config} {t : Text} {e : ParseError}
    (hA : passA c t = .error e) : parse c t = .error e := by
  unfold parse; rw [hA]

/-- How a parse fails after Pass A: on the lowest failing line of the earliest failing pass. -/
theorem parse_error_after_passA {c : Config} {t : Text} {e : ParseError} {ls : List (Nat × Text)}
    (hA : passA c t = .ok ls) (h : parse c t = .error e) :
    (passB c ls = .error e ∧ ∃ n s, (n, s) ∈ ls ∧ e.site = some (n, s) ∧
      passBLine c n s = .error e ∧
      ∀ m s', (m, s') ∈ ls → m < n → ∃ r, passBLine c m s' = .ok r) ∨
    ∃ rs, passB c ls = .ok rs ∧ passC c rs = .error e ∧
      ∃ r ∈ rs, (r.line, r.text) ∈ ls ∧ e.site = some (r.line, r.text) ∧
        passCLine c r = .error e ∧
        ∀ r' ∈ rs, r'.line < r.line → ∃ rec, passCLine c r' = .ok rec := by
  have hls := passALines_pairwise (numberLines_pairwise 1 _) (passA_eq_ok_iff.mp hA).1
  rcases parse_eq_error_of_passA_ok hA h with hB | ⟨rs, hB, hC⟩
  · exact .inl ⟨hB, passB_eq_error hls hB⟩
  · rw [← passB_sites hB, List.pairwise_map] at hls
    obtain ⟨r, hr, hsite, he, hlow⟩ := passC_eq_error hls hC
    refine .inr ⟨rs, hB, hC, r, hr, ?_, hsite, he, hlow⟩
    rw [← passB_sites hB]
    exact List.mem_map_of_mem hr

/-- The only parse error that names no line. -/
theorem eq_emptyProgram_of_site {c : Config} {t : Text} {e : ParseError} (h : parse c t = .error e)
    (hsite : e.site = none) : e = .emptyProgram := by
  cases hA : passA c t with
  | error e' =>
    cases (parse_eq_error_of_passA_error hA).symm.trans h
    rcases passA_eq_error hA with ⟨he, -⟩ | ⟨k, raw, s, -, rfl, -⟩
    · exact he
    · cases hsite
  | ok ls =>
    rcases parse_error_after_passA hA h with ⟨-, _, _, -, hs, -⟩ | ⟨_, -, -, _, -, -, hs, -⟩ <;>
      cases hs.symm.trans hsite

/-- Settles O57: each pass goes through its lines by rising number and stops at the first error. -/
theorem parseErrorsNameTheirLine : Obligations.ParseErrorsNameTheirLine := by
  intro c t e h
  refine ⟨eq_emptyProgram_of_site h, fun e' hA => ?_,
    fun ls hA => ⟨fun n s hm => ?_, parse_error_after_passA hA h⟩⟩
  · cases (parse_eq_error_of_passA_error hA).symm.trans h
    exact ⟨rfl, passA_eq_error hA⟩
  · exact mem_of_passALines (passA_eq_ok_iff.mp hA).1 hm

end Sys2Proof.Machine
end

section
/-! PROOFS about the configuration (00_scope.md R9, R10, 40_parser.md R112, R121) and the tokens of
arguments (R121 to R123). -/

namespace Sys2Proof.Machine

/-! ### What Load accepts -/

theorem ite_some_eq_none {α : Type} {p : Prop} [Decidable p] {e : α} {x : Option α} :
    (if p then some e else x) = none ↔ ¬ p ∧ x = none := by
  split <;> simp [*]

theorem checkConfig_eq_none_iff (c : Config) : checkConfig c = none ↔
    c.WidthsOk ∧ markerOk c.commentMarker = true ∧
    foldsDistinct (c.optable.map (·.name)) = true ∧ kindsOk c.optable = true ∧
    regNamesOk c.variant c.regNames = true := by
  simp only [checkConfig, ite_some_eq_none, not_not, Bool.not_eq_false, and_true]

theorem markerOk_iff (m : Text) : markerOk m = true ↔
    m ≠ [] ∧ ∀ ch ∈ m, isSpace ch = false ∧ ch ≠ ';' := by
  simp [markerOk]

theorem foldsDistinct_iff (names : List Text) :
    foldsDistinct names = true ↔ (names.map fold).Nodup := by
  induction names with
  | nil => simp [foldsDistinct]
  | cons n ns ih =>
    simp only [foldsDistinct, Bool.and_eq_true, ih, List.map_cons, List.nodup_cons, List.mem_map,
      List.all_eq_true, bne_iff_ne, not_exists, not_and]

theorem kindsOk_iff (rows : List OpRow) :
    kindsOk rows = true ↔ ∀ row ∈ rows, row.kinds.Perm row.op.kinds := by
  simp [kindsOk, List.isPerm_iff]

theorem regNamesOk_iff (v : Variant) (names : List (Text × Reg)) :
    regNamesOk v names = true ↔ names.Perm (defaultRegNames v) :=
  List.isPerm_iff

/-- The parts of an accepted configuration. -/
structure Accepted (c : Config) : Prop where
  widths : c.WidthsOk
  marker_ne_nil : c.commentMarker ≠ []
  marker_chars : ∀ ch ∈ c.commentMarker, isSpace ch = false ∧ ch ≠ ';'
  folds : (c.optable.map fun row => fold row.name).Nodup
  kinds : ∀ row ∈ c.optable, row.kinds.Perm row.op.kinds
  regNames : c.regNames.Perm (defaultRegNames c.variant)

theorem accepted_iff (c : Config) : checkConfig c = none ↔ Accepted c := by
  rw [checkConfig_eq_none_iff, markerOk_iff, foldsDistinct_iff, kindsOk_iff, regNamesOk_iff,
    List.map_map]
  exact ⟨fun ⟨hw, ⟨hne, hch⟩, hf, hk, hr⟩ => ⟨hw, hne, hch, hf, hk, hr⟩,
    fun h => ⟨h.widths, ⟨h.marker_ne_nil, h.marker_chars⟩, h.folds, h.kinds, h.regNames⟩⟩

/-- Settles O59: each check of `checkConfig` as a proposition. -/
theorem configurationAccepted : Obligations.ConfigurationAccepted := by
  intro c
  rw [accepted_iff]
  exact ⟨fun h => ⟨h.widths, ⟨h.marker_ne_nil, h.marker_chars⟩, h.folds, h.kinds, h.regNames⟩,
    fun ⟨hw, ⟨hne, hch⟩, hf, hk, hr⟩ => ⟨hw, hne, hch, hf, hk, hr⟩⟩

/-! ### Names -/

/-- Equal names have equal folds, whether or not case counts. -/
theorem fold_eq_of_nameMatches {cs : Bool} {name token : Text} (h : nameMatches cs name token = true) :
    fold name = fold token := by
  cases cs with
  | true => rw [show name = token by simpa [nameMatches] using h]
  | false => simpa [nameMatches] using h

/-- The names of `REGNAMES` are the registers' own. -/
theorem Accepted.mem_regNames {c : Config} (h : Accepted c) {p : Text × Reg} :
    p ∈ c.regNames ↔ p.2.inVariant c.variant = true ∧ p.1 = p.2.name := by
  obtain ⟨name, r⟩ := p
  rw [h.regNames.mem_iff]
  have hall : r ∈ Reg.all := by cases r <;> decide
  simp only [defaultRegNames, Reg.ofVariant, List.mem_map, List.mem_filter, Prod.mk.injEq]
  constructor
  · rintro ⟨r', ⟨-, hv⟩, rfl, rfl⟩; exact ⟨hv, rfl⟩
  · rintro ⟨hv, rfl⟩; exact ⟨r, ⟨hall, hv⟩, rfl, rfl⟩

theorem fold_name_injective {r q : Reg} (h : fold r.name = fold q.name) : r = q := by
  revert h; cases r <;> cases q <;> decide

/-! ### Integer literals -/

/-- One of the characters `0` to `9`. -/
def IsDigit (ch : Char) : Prop := 48 ≤ ch.toNat ∧ ch.toNat ≤ 57

/-- The base-10 value of digits read onto `acc`. -/
theorem readDigits_of_digits {digits : Text} (h : ∀ ch ∈ digits, IsDigit ch) (acc : Nat) :
    readDigits acc digits =
      some (10 ^ digits.length * acc + Nat.ofDigits 10 (digits.reverse.map fun ch => ch.toNat - 48)) := by
  induction digits generalizing acc with
  | nil => simp [readDigits]
  | cons ch digits ih =>
    obtain ⟨hch, hdigits⟩ := List.forall_mem_cons.mp h
    have hval : digitVal ch = some (ch.toNat - 48) := if_pos hch
    simp only [readDigits, hval, ih hdigits, List.reverse_cons, List.map_append, List.map_cons,
      List.map_nil, Nat.ofDigits_append, Nat.ofDigits_singleton, List.length_map,
      List.length_reverse, List.length_cons, Option.some.injEq]
    ring

theorem digits_of_readDigits {digits : Text} {acc n : Nat} (h : readDigits acc digits = some n) :
    ∀ ch ∈ digits, IsDigit ch := by
  induction digits generalizing acc with
  | nil => nofun
  | cons ch digits ih =>
    unfold readDigits digitVal at h
    split at h
    · cases h
    · next d hd =>
      refine List.forall_mem_cons.mpr ⟨?_, ih h⟩
      by_contra hno
      exact nomatch (if_neg hno).symm.trans hd

/-- The digits of a numeral, one or more. -/
def IsNumeral (digits : Text) : Prop := digits ≠ [] ∧ ∀ ch ∈ digits, IsDigit ch

/-- The base-10 value of a numeral. -/
def numeralValue (digits : Text) : Nat := Nat.ofDigits 10 (digits.reverse.map fun ch => ch.toNat - 48)

theorem numeralValue_cast (digits : Text) : (numeralValue digits : Int) =
    Nat.ofDigits 10 (digits.reverse.map fun ch => ch.toNat - 48) :=
  Nat.coe_ofDigits ℤ 10 _

theorem readNat_of_isNumeral {digits : Text} (h : IsNumeral digits) :
    readNat digits = some (numeralValue digits) := by
  obtain ⟨hne, hdigits⟩ := h
  simp [readNat, hne, readDigits_of_digits hdigits, numeralValue]

theorem readNat_isSome_iff {digits : Text} : (∃ n, readNat digits = some n) ↔ IsNumeral digits := by
  refine ⟨fun ⟨n, h⟩ => ?_, fun h => ⟨_, readNat_of_isNumeral h⟩⟩
  unfold readNat at h
  split at h
  · cases h
  · next hne => exact ⟨hne, digits_of_readDigits h⟩

theorem not_isDigit_minus : ¬ IsDigit '-' := by unfold IsDigit; decide
theorem not_isDigit_plus : ¬ IsDigit '+' := by unfold IsDigit; decide

theorem readInt_minus (digits : Text) :
    readInt ('-' :: digits) = (readNat digits).map fun n : Nat => -(n : Int) := rfl

theorem readInt_plus (digits : Text) :
    readInt ('+' :: digits) = (readNat digits).map fun n : Nat => (n : Int) := rfl

theorem readInt_of_isNumeral {digits : Text} (h : IsNumeral digits) :
    readInt digits = some (numeralValue digits : Int) := by
  have hread := readNat_of_isNumeral h
  obtain ⟨hne, hdigits⟩ := h
  obtain ⟨ch, rest, rfl⟩ := List.exists_cons_of_ne_nil hne
  have hch := hdigits ch List.mem_cons_self
  have hminus : ch ≠ '-' := fun h => not_isDigit_minus (h ▸ hch)
  have hplus : ch ≠ '+' := fun h => not_isDigit_plus (h ▸ hch)
  simp [readInt, hminus, hplus, hread]

/-- A literal is a numeral, alone or behind one sign. -/
theorem readInt_isSome_iff {t : Text} : (∃ v, readInt t = some v) ↔
    ∃ sign digits : Text, t = sign ++ digits ∧ (sign = [] ∨ sign = ['+'] ∨ sign = ['-']) ∧
      IsNumeral digits := by
  constructor
  · rintro ⟨v, h⟩
    unfold readInt at h
    split at h
    · cases h
    · next ch cs =>
      split at h
      · next hch =>
        obtain ⟨n, hn, -⟩ := Option.map_eq_some_iff.mp h
        exact ⟨['-'], cs, by rw [hch]; rfl, by simp, readNat_isSome_iff.mp ⟨n, hn⟩⟩
      · split at h
        · next hch =>
          obtain ⟨n, hn, -⟩ := Option.map_eq_some_iff.mp h
          exact ⟨['+'], cs, by rw [hch]; rfl, by simp, readNat_isSome_iff.mp ⟨n, hn⟩⟩
        · obtain ⟨n, hn, -⟩ := Option.map_eq_some_iff.mp h
          exact ⟨[], ch :: cs, rfl, by simp, readNat_isSome_iff.mp ⟨n, hn⟩⟩
  · rintro ⟨sign, digits, rfl, rfl | rfl | rfl, hd⟩
    · exact ⟨_, readInt_of_isNumeral hd⟩
    · exact ⟨_, (readInt_plus digits).trans (by rw [readNat_of_isNumeral hd]; rfl)⟩
    · exact ⟨_, (readInt_minus digits).trans (by rw [readNat_of_isNumeral hd]; rfl)⟩

/-! ### Registers and integers -/

/-- The head of a literal is no letter, and folds to itself. -/
theorem head_of_readInt {ch : Char} {cs : Text} {v : Int} (h : readInt (ch :: cs) = some v) :
    foldChar ch = ch ∧ ch.toNat < 65 := by
  have hch : ch = '+' ∨ ch = '-' ∨ IsDigit ch := by
    obtain ⟨sign, digits, ht, hsign, hne, hd⟩ := readInt_isSome_iff.mp ⟨v, h⟩
    obtain ⟨d, ds, rfl⟩ := List.exists_cons_of_ne_nil hne
    rcases hsign with rfl | rfl | rfl <;> obtain ⟨rfl, -⟩ := List.cons.inj ht
    · exact .inr (.inr (hd _ List.mem_cons_self))
    · exact .inl rfl
    · exact .inr (.inl rfl)
  have hlt : ch.toNat < 65 := by
    rcases hch with rfl | rfl | hd
    · decide
    · decide
    · exact lt_of_le_of_lt hd.2 (by decide)
  exact ⟨if_neg fun hl => by omega, hlt⟩

/-- The fold of a register's name begins with a letter. -/
theorem fold_name_head (r : Reg) : ∃ ch cs, fold r.name = ch :: cs ∧ 65 ≤ ch.toNat := by
  cases r <;> exact ⟨_, _, rfl, by decide⟩

/-- No register's name reads as an integer. -/
theorem readInt_of_nameMatches {cs : Bool} {r : Reg} {t : Text}
    (h : nameMatches cs r.name t = true) : readInt t = none := by
  by_contra hne
  obtain ⟨v, hv⟩ := Option.ne_none_iff_exists'.mp hne
  obtain ⟨ch, rest, hfold, hletter⟩ := fold_name_head r
  rw [fold_eq_of_nameMatches h] at hfold
  cases t with
  | nil => cases hv
  | cons ch' rest' =>
    obtain ⟨hself, hlt⟩ := head_of_readInt hv
    obtain ⟨rfl, -⟩ := List.cons.inj hfold
    rw [hself] at hletter
    omega

/-- Settles O58: the grammar by `readInt_isSome_iff`, and no register's name reads as an integer. -/
theorem integerLiteralGrammar : Obligations.IntegerLiteralGrammar := by
  refine fun t => ⟨readInt_isSome_iff, fun digits hne hd => ?_, fun c line text hc => ?_⟩
  · have hread := readNat_of_isNumeral ⟨hne, hd⟩
    rw [← numeralValue_cast]
    refine ⟨fun ht => by rw [ht, readInt_of_isNumeral ⟨hne, hd⟩], fun ht => ?_, fun ht => ?_⟩
    · rw [ht, readInt_plus, hread]; rfl
    · rw [ht, readInt_minus, hread]; rfl
  · have hacc := (accepted_iff c).mp hc
    have hnames : ∀ p ∈ c.regNames, nameMatches c.registerCaseSensitive p.1 t = true →
        readInt t = none := by
      intro p hp hm
      rw [(hacc.mem_regNames.mp hp).2] at hm
      exact readInt_of_nameMatches hm
    refine ⟨fun h => by simp only [resolveArg, h], hnames, fun ⟨v, hv⟩ => ?_⟩
    have hfind : c.regNames.find? (fun p => nameMatches c.registerCaseSensitive p.1 t) = none :=
      List.find?_eq_none.mpr fun p hp hm => nomatch (hnames p hp hm).symm.trans hv
    simp only [resolveArg, hfind]

end Sys2Proof.Machine
end

section
/-! PROOFS about lines: what Pass A makes of blanks and comments, and of a text put together from lines
(40_parser.md R102 to R107). -/

namespace Sys2Proof.Machine

/-! ### Comments -/

theorem cutComment_of_not_infix {marker x : Text} (h : ¬ marker <:+: x) :
    cutComment marker x = x := by
  induction x with
  | nil => rfl
  | cons ch x ih =>
    have hno : ¬ marker.isPrefixOf (ch :: x) = true := fun hp =>
      h (List.isPrefixOf_iff_prefix.mp hp).isInfix
    rw [cutComment, if_neg hno, ih fun hx => h (hx.trans (List.suffix_cons ch x).isInfix)]

/-- A comment is cut where it starts if the marker does not occur before. -/
theorem cutComment_append {marker : Text} (hm : marker ≠ []) {x : Text} (y : Text)
    (h : ¬ marker <:+: x ++ marker.dropLast) : cutComment marker (x ++ marker ++ y) = x := by
  induction x with
  | nil =>
    obtain ⟨ch, rest, rfl⟩ := List.exists_cons_of_ne_nil hm
    exact if_pos (List.isPrefixOf_iff_prefix.mpr (List.prefix_append _ y))
  | cons ch x ih =>
    have hlen : marker.length ≤ (ch :: x ++ marker.dropLast).length := by
      simp only [List.length_append, List.length_cons, List.length_dropLast]; omega
    have hstart : ch :: x ++ marker.dropLast <+: ch :: x ++ marker ++ y := by
      rw [List.append_assoc, List.prefix_append_right_inj]
      exact (List.dropLast_prefix marker).trans (List.prefix_append marker y)
    have hno : ¬ marker.isPrefixOf (ch :: x ++ marker ++ y) = true := fun hp =>
      h (List.prefix_of_prefix_length_le (List.isPrefixOf_iff_prefix.mp hp) hstart hlen).isInfix
    rw [List.cons_append, List.cons_append] at hno
    rw [List.cons_append, List.cons_append, cutComment, if_neg hno,
      ih fun hx => h (hx.trans (List.suffix_cons ch _).isInfix)]

/-- A text that is not empty and occurs in `x ++ z` but not in `z` has a character of `x` first. -/
theorem not_infix_append {m x z : Text} (hm : m ≠ []) (hx : ∀ ch ∈ x, ch ∉ m) (hz : ¬ m <:+: z) :
    ¬ m <:+: x ++ z := by
  induction x with
  | nil => exact hz
  | cons ch x ih =>
    obtain ⟨hch, hx⟩ := List.forall_mem_cons.mp hx
    rw [List.cons_append, List.infix_cons_iff, not_or]
    refine ⟨fun hp => ?_, ih hx⟩
    obtain ⟨d, m, rfl⟩ := List.exists_cons_of_ne_nil hm
    obtain ⟨rfl, -⟩ := List.cons_prefix_cons.mp hp
    exact hch List.mem_cons_self

/-- The marker does not occur in blanks and terminators, nor across their end. -/
theorem not_infix_of_not_mem {m x : Text} (hm : m ≠ []) (hx : ∀ ch ∈ x, ch ∉ m) :
    ¬ m <:+: x ++ m.dropLast := by
  refine not_infix_append hm hx fun h => ?_
  have hle := h.length_le
  have hpos := List.length_pos_iff.mpr hm
  rw [List.length_dropLast] at hle
  omega

theorem passALine_append_comment {c : Config} (hc : Accepted c) {x : Text} (n : Nat) (y : Text)
    (h : ¬ c.commentMarker <:+: x ++ c.commentMarker.dropLast) :
    passALine c n (x ++ c.commentMarker ++ y) = passALine c n x := by
  have hx : ¬ c.commentMarker <:+: x := fun hx =>
    h (hx.trans (List.prefix_append x _).isInfix)
  unfold passALine
  rw [cutComment_append hc.marker_ne_nil y h, cutComment_of_not_infix hx]

/-! ### Blanks -/

theorem isBlank_iff {b : Text} : isBlank b = true ↔ ∀ ch ∈ b, isSpace ch = true := List.all_eq_true

theorem dropWhile_blank_append {b : Text} (h : isBlank b = true) (x : Text) :
    (b ++ x).dropWhile isSpace = x.dropWhile isSpace :=
  List.dropWhile_append_of_pos (isBlank_iff.mp h)

theorem isBlank_reverse {b : Text} (h : isBlank b = true) : isBlank b.reverse = true := by
  rw [isBlank_iff] at *
  simpa using h

theorem dropWhile_of_head {x : Text} (h : ∀ ch ∈ x.head?, isSpace ch = false) :
    x.dropWhile isSpace = x := by
  cases x with
  | nil => rfl
  | cons ch x => rw [List.dropWhile_cons, h ch rfl]; rfl

/-- Blanks around a text without whitespace at its ends are removed. -/
theorem trim_blank_append {b b' x : Text} (hb : isBlank b = true) (hb' : isBlank b' = true)
    (hhead : ∀ ch ∈ x.head?, isSpace ch = false) (hlast : ∀ ch ∈ x.getLast?, isSpace ch = false) :
    trim (b ++ (x ++ b')) = x := by
  cases x with
  | nil =>
    have hnil : b'.dropWhile isSpace = [] := List.dropWhile_eq_nil_iff.mpr (isBlank_iff.mp hb')
    rw [trim, dropWhile_blank_append hb, List.nil_append, hnil]
    rfl
  | cons ch x =>
    have hfront : (ch :: x ++ b').dropWhile isSpace = ch :: x ++ b' :=
      dropWhile_of_head (x := ch :: x ++ b') hhead
    have hback : (ch :: x).reverse.dropWhile isSpace = (ch :: x).reverse :=
      dropWhile_of_head (by rwa [List.head?_reverse])
    rw [trim, dropWhile_blank_append hb, hfront, List.reverse_append,
      dropWhile_blank_append (isBlank_reverse hb'), hback, List.reverse_reverse]

theorem trim_blank {b : Text} (h : isBlank b = true) : trim b = [] := by
  have := trim_blank_append (b := b) (b' := []) (x := []) h rfl nofun nofun
  rwa [List.append_nil, List.append_nil] at this

section
variable {c : Config} (hc : Accepted c)
include hc

theorem Accepted.space_not_mem {ch : Char} (h : isSpace ch = true) : ch ∉ c.commentMarker :=
  fun hm => nomatch h.symm.trans (hc.marker_chars ch hm).1

theorem Accepted.terminator_not_mem : ';' ∉ c.commentMarker :=
  fun hm => (hc.marker_chars _ hm).2 rfl

theorem Accepted.terminator_line_not_mem {b b' : Text} (hb : isBlank b = true)
    (hb' : isBlank b' = true) : ∀ ch ∈ b ++ ';' :: b', ch ∉ c.commentMarker := by
  intro ch hch
  rcases List.mem_append.mp hch with h | h
  · exact hc.space_not_mem (isBlank_iff.mp hb ch h)
  · rcases List.mem_cons.mp h with rfl | h
    · exact hc.terminator_not_mem
    · exact hc.space_not_mem (isBlank_iff.mp hb' ch h)

/-- Pass A skips a blank line. -/
theorem passALine_blank (n : Nat) {b : Text} (hb : isBlank b = true) : passALine c n b = .ok none := by
  have hno : ¬ c.commentMarker <:+: b := fun hin =>
    not_infix_of_not_mem hc.marker_ne_nil (fun ch hch => hc.space_not_mem (isBlank_iff.mp hb ch hch))
      (hin.trans (List.prefix_append b _).isInfix)
  unfold passALine
  rw [cutComment_of_not_infix hno, trim_blank hb]
  exact if_pos rfl

/-- Pass A skips a line with the terminator alone. -/
theorem passALine_terminator (n : Nat) {b b' : Text} (hb : isBlank b = true) (hb' : isBlank b' = true) :
    passALine c n (b ++ ';' :: b') = .ok none := by
  have hno : ¬ c.commentMarker <:+: b ++ ';' :: b' := fun hin =>
    not_infix_of_not_mem hc.marker_ne_nil (hc.terminator_line_not_mem hb hb')
      (hin.trans (List.prefix_append _ _).isInfix)
  have htrim : trim (b ++ ';' :: b') = [';'] :=
    trim_blank_append (x := [';']) hb hb' (by simp [isSpace]) (by simp [isSpace])
  unfold passALine
  rw [cutComment_of_not_infix hno, htrim]
  rfl

end

/-! ### Texts put together from lines -/

theorem toNat_eq_newline_iff {ch : Char} : ch.toNat = 0x0A ↔ ch = '\n' :=
  ⟨fun h => Char.toNat_inj.mp h, fun h => h ▸ rfl⟩

theorem splitLines_line {l : Text} (h : '\n' ∉ l) : splitLines l = [l] := by
  induction l with
  | nil => rfl
  | cons ch l ih =>
    rw [List.mem_cons, not_or] at h
    obtain ⟨hch, hl⟩ := h
    rw [splitLines, if_neg fun he => hch (toNat_eq_newline_iff.mp he).symm, ih hl]

theorem splitLines_append {l : Text} (h : '\n' ∉ l) (rest : Text) :
    splitLines (l ++ '\n' :: rest) = l :: splitLines rest := by
  induction l with
  | nil => exact if_pos rfl
  | cons ch l ih =>
    rw [List.mem_cons, not_or] at h
    obtain ⟨hch, hl⟩ := h
    rw [List.cons_append, splitLines, if_neg fun he => hch (toNat_eq_newline_iff.mp he).symm, ih hl]

/-- A text put together from lines has these lines. -/
theorem splitLines_intercalate {ls : List Text} (hne : ls ≠ []) (h : ∀ l ∈ ls, '\n' ∉ l) :
    splitLines (List.intercalate ['\n'] ls) = ls := by
  induction ls with
  | nil => exact absurd rfl hne
  | cons l ls ih =>
    obtain ⟨hl, hls⟩ := List.forall_mem_cons.mp h
    cases ls with
    | nil => simpa [List.intercalate] using splitLines_line hl
    | cons l' ls =>
      have hcons : List.intercalate ['\n'] (l :: l' :: ls) =
          l ++ '\n' :: List.intercalate ['\n'] (l' :: ls) := by
        simp [List.intercalate]
      rw [hcons, splitLines_append hl, ih (List.cons_ne_nil _ _) hls]

/-! ### Pass A on an exchanged and on an inserted line -/

theorem collect_eq_collect_map {α β ε : Type} (f : α → Except ε β) (as : List α) :
    collect f as = collect id (as.map f) := by
  induction as with
  | nil => rfl
  | cons a as ih =>
    rw [List.map_cons]
    unfold collect
    rw [ih]
    rfl

/-- Only what Pass A makes of a line counts. -/
theorem passALines_congr (c : Config) {pre post : List (Nat × Text)} {p p' : Nat × Text}
    (h : passALine c p.1 p.2 = passALine c p'.1 p'.2) :
    passALines c (pre ++ p :: post) = passALines c (pre ++ p' :: post) := by
  rw [passALines_eq_collect, passALines_eq_collect, collect_eq_collect_map,
    collect_eq_collect_map _ (pre ++ p' :: post)]
  simp only [List.map_append, List.map_cons, h]

/-- A skipped line adds nothing. -/
theorem passALines_skip {c : Config} {p : Nat × Text} (h : passALine c p.1 p.2 = .ok none)
    (pre post : List (Nat × Text)) : passALines c (pre ++ p :: post) = passALines c (pre ++ post) := by
  induction pre with
  | nil =>
    rw [List.nil_append, List.nil_append, passALines, h]
    dsimp only
    cases passALines c post <;> rfl
  | cons q pre ih => rw [List.cons_append, List.cons_append, passALines, passALines, ih]

theorem numberLines_append (n : Nat) (ls ls' : List Text) :
    numberLines n (ls ++ ls') = numberLines n ls ++ numberLines (n + ls.length) ls' := by
  induction ls generalizing n with
  | nil => rfl
  | cons l ls ih =>
    rw [List.cons_append, numberLines, numberLines, ih, List.cons_append, List.length_cons,
      Nat.add_right_comm, Nat.add_assoc]

/-! ### Renumbering -/

/-- A numbered line with its number renamed. -/
def renumber (g : Nat → Nat) (p : Nat × Text) : Nat × Text := (g p.1, p.2)

theorem numberLines_renumber {g : Nat → Nat} {n m : Nat} {ls : List Text}
    (h : ∀ k, k < ls.length → g (n + k) = m + k) :
    (numberLines n ls).map (renumber g) = numberLines m ls := by
  refine List.ext_getElem? fun k => ?_
  rw [List.getElem?_map, numberLines_getElem?, numberLines_getElem?]
  cases hk : ls[k]? with
  | none => rfl
  | some l =>
    have hlt := (List.getElem?_eq_some_iff.mp hk).1
    simp only [Option.map_some, renumber, h k hlt]

theorem passALine_renumber {c : Config} {n : Nat} {raw : Text} {o : Option (Nat × Text)}
    (h : passALine c n raw = .ok o) (g : Nat → Nat) :
    passALine c (g n) raw = .ok (o.map (renumber g)) := by
  unfold passALine at *
  dsimp only at *
  split_ifs at h ⊢ <;> cases h <;> rfl

theorem passALines_renumber {c : Config} {ls out : List (Nat × Text)} (h : passALines c ls = .ok out)
    (g : Nat → Nat) : passALines c (ls.map (renumber g)) = .ok (out.map (renumber g)) := by
  obtain ⟨kept, hkept, rfl⟩ := passALines_eq_ok h
  have hmap := collect_map (f := fun p => passALine c p.1 p.2) (g := renumber g)
    (g' := Option.map (renumber g)) (fun p o hp => passALine_renumber hp g) hkept
  rw [passALines_eq_collect, hmap]
  simp only [Except.map, List.flatMap_map, List.map_flatMap, Option.toList_map]

theorem passB_renumber {c : Config} {ls : List (Nat × Text)} {rs : List Resolved}
    (h : passB c ls = .ok rs) (g : Nat → Nat) :
    passB c (ls.map (renumber g)) = .ok (rs.map fun r => { r with line := g r.line }) := by
  rw [passB_eq_collect] at *
  refine collect_map (fun p r hr => ?_) h
  obtain ⟨row, hrow, rfl⟩ := passBLine_eq_ok hr
  simp only [passBLine, renumber, hrow]

/-- A line Pass C accepts, taken apart. -/
theorem passCLine_eq_ok_iff {c : Config} {r : Resolved} {rec : Record} : passCLine c r = .ok rec ↔
    r.args.length = r.row.kinds.length ∧ ∃ as,
      resolveArgs c r.line r.text r.row.kinds r.args = .ok as ∧
      rec = { line := r.line, text := r.text, instr := buildInstr r.row as } := by
  unfold passCLine
  by_cases hlen : r.args.length = r.row.kinds.length
  · simp only [hlen, ne_eq, not_true_eq_false, if_false, true_and]
    cases resolveArgs c r.line r.text r.row.kinds r.args <;> simp [eq_comm]
  · simp [hlen]

theorem resolveArg_reg_eq_ok_iff {c : Config} {n : Nat} {s t : Text} {a : ArgVal} :
    resolveArg c n s .reg t = .ok a ↔
      ∃ p, c.regNames.find? (fun p => nameMatches c.registerCaseSensitive p.1 t) = some p ∧
        a = .reg p.2 := by
  simp only [resolveArg]
  cases c.regNames.find? (fun p => nameMatches c.registerCaseSensitive p.1 t) <;> simp [eq_comm]

theorem resolveArg_int_eq_ok_iff {c : Config} {n : Nat} {s t : Text} {a : ArgVal} :
    resolveArg c n s .int t = .ok a ↔ ∃ v, readInt t = some v ∧ c.InImm v ∧ a = .int v := by
  simp only [resolveArg]
  cases readInt t with
  | none => simp
  | some v =>
    dsimp only
    split
    · next hv =>
      exact ⟨fun h => ⟨v, rfl, hv, (Except.ok.inj h).symm⟩, fun ⟨_, hr, _, ha⟩ => by cases hr; rw [ha]⟩
    · next hv =>
      exact ⟨nofun, fun ⟨_, hr, hv', _⟩ => absurd (Option.some.inj hr ▸ hv') hv⟩

/-- The argument a token is read as does not depend on the line. -/
theorem resolveArg_line {c : Config} {n : Nat} {s : Text} {k : ArgKind} {t : Text} {a : ArgVal}
    (h : resolveArg c n s k t = .ok a) (m : Nat) : resolveArg c m s k t = .ok a := by
  cases k with
  | reg => exact resolveArg_reg_eq_ok_iff.mpr (resolveArg_reg_eq_ok_iff.mp h)
  | int => exact resolveArg_int_eq_ok_iff.mpr (resolveArg_int_eq_ok_iff.mp h)

theorem resolveArgs_line {c : Config} {n : Nat} {s : Text} {ks : List ArgKind} {ts : List Text}
    {as : List ArgVal} (h : resolveArgs c n s ks ts = .ok as) (m : Nat) :
    resolveArgs c m s ks ts = .ok as := by
  rw [resolveArgs_eq_collect, collect_eq_ok_iff] at *
  exact h.imp fun _ _ ha => resolveArg_line ha m

theorem passC_renumber {c : Config} {rs : List Resolved} {p : List Record} (h : passC c rs = .ok p)
    (g : Nat → Nat) : passC c (rs.map fun r => { r with line := g r.line }) =
      .ok (p.map fun rec => { rec with line := g rec.line }) := by
  rw [passC_eq_collect] at *
  refine collect_map (fun r rec hr => ?_) h
  obtain ⟨hlen, as, has, rfl⟩ := passCLine_eq_ok_iff.mp hr
  exact passCLine_eq_ok_iff.mpr ⟨hlen, as, resolveArgs_line has _, rfl⟩

/-- Lines renumbered alike give the same records renumbered. -/
theorem parse_renumber {c : Config} {t t' : Text} {p : List Record} (h : parse c t = .ok p)
    (g : Nat → Nat)
    (hA : ∀ out, passALines c (numberLines 1 (splitLines t)) = .ok out →
      passALines c (numberLines 1 (splitLines t')) = .ok (out.map (renumber g))) :
    parse c t' = .ok (p.map fun rec => { rec with line := g rec.line }) := by
  obtain ⟨ls, rs, hls, hB, hC⟩ := parse_eq_ok_iff.mp h
  obtain ⟨hlines, hne⟩ := passA_eq_ok_iff.mp hls
  refine parse_eq_ok_iff.mpr ⟨_, _, passA_eq_ok_iff.mpr ⟨hA ls hlines, ?_⟩, passB_renumber hB g,
    passC_renumber hC g⟩
  exact fun hnil => hne (List.map_eq_nil_iff.mp hnil)

/-! ### Exchanging and inserting lines -/

/-- The number of a line after one is put in behind the first `b`. -/
def shiftAfter (b n : Nat) : Nat := if n ≤ b then n else n + 1

/-- The numbers of lines before and after a line that is put in. -/
theorem numberLines_shiftAfter (before after : List Text) :
    (numberLines 1 (before ++ after)).map (renumber (shiftAfter before.length)) =
      numberLines 1 before ++ numberLines (before.length + 2) after := by
  rw [numberLines_append, List.map_append, numberLines_renumber (m := 1),
    numberLines_renumber (m := before.length + 2)]
  · intro k _
    rw [shiftAfter, if_neg (by omega)]
    omega
  · intro k hk
    exact if_pos (by omega)

theorem numberLines_insert (before after : List Text) (x : Text) :
    numberLines 1 (before ++ x :: after) =
      numberLines 1 before ++ (before.length + 1, x) :: numberLines (before.length + 2) after := by
  rw [numberLines_append, numberLines, Nat.add_comm 1]

theorem parse_nil_ne_ok {c : Config} (hc : Accepted c) (p : List Record) : parse c [] ≠ .ok p := by
  intro h
  obtain ⟨ls, rs, hls, -, -⟩ := parse_eq_ok_iff.mp h
  obtain ⟨hlines, hne⟩ := passA_eq_ok_iff.mp hls
  have hskip := passALines_skip (p := (1, [])) (passALine_blank hc 1 rfl) [] []
  cases hskip.symm.trans hlines
  exact hne rfl

/-- A skipped line put into a text changes the numbers of the lines after it. -/
theorem parse_insert_skipped {c : Config} (hc : Accepted c) {before after : List Text} {x : Text}
    (hnl : ∀ l ∈ before ++ x :: after, '\n' ∉ l) (hskip : ∀ n, passALine c n x = .ok none)
    {p : List Record} (h : parse c (List.intercalate ['\n'] (before ++ after)) = .ok p) :
    parse c (List.intercalate ['\n'] (before ++ x :: after)) =
      .ok (p.map fun rec => { rec with line := shiftAfter before.length rec.line }) := by
  have hne : before ++ after ≠ [] := fun hnil => parse_nil_ne_ok hc p (by rwa [hnil] at h)
  have hnl' : ∀ l ∈ before ++ after, '\n' ∉ l := fun l hl => hnl l (by
    rcases List.mem_append.mp hl with hl | hl <;> simp [hl])
  refine parse_renumber h _ fun out hout => ?_
  rw [splitLines_intercalate hne hnl'] at hout
  rw [splitLines_intercalate (by simp) hnl, numberLines_insert, passALines_skip (hskip _),
    ← numberLines_shiftAfter]
  exact passALines_renumber hout _

/-- A line may be exchanged for one of which Pass A makes the same. -/
theorem parse_exchange {c : Config} {before after : List Text} {x x' : Text}
    (hnl : ∀ l ∈ before ++ x :: after, '\n' ∉ l) (hnl' : ∀ l ∈ before ++ x' :: after, '\n' ∉ l)
    (h : ∀ n, passALine c n x = passALine c n x') :
    parse c (List.intercalate ['\n'] (before ++ x :: after)) =
      parse c (List.intercalate ['\n'] (before ++ x' :: after)) := by
  have hA : passA c (List.intercalate ['\n'] (before ++ x :: after)) =
      passA c (List.intercalate ['\n'] (before ++ x' :: after)) := by
    unfold passA
    rw [splitLines_intercalate (by simp) hnl, splitLines_intercalate (by simp) hnl',
      numberLines_insert, numberLines_insert,
      passALines_congr c (p := (_, x)) (p' := (_, x')) (h _)]
  unfold parse
  rw [hA]

/-- Settles O60: what Pass A makes of blanks and comments, and the lines around them renumbered. -/
theorem commentsAndBlankLinesSkipped : Obligations.CommentsAndBlankLinesSkipped := by
  intro c hcheck
  have hc := (accepted_iff c).mp hcheck
  refine ⟨fun n b b' y hb hb' => ?_, fun n x y => passALine_append_comment hc n y,
    fun before after x x' hnl => ?_⟩
  · have hblank := passALine_append_comment hc n y (not_infix_of_not_mem hc.marker_ne_nil
      fun ch hch => hc.space_not_mem (isBlank_iff.mp hb ch hch))
    have hterm := passALine_append_comment hc n y (not_infix_of_not_mem hc.marker_ne_nil
      (hc.terminator_line_not_mem hb hb'))
    exact ⟨passALine_blank hc n hb, hblank.trans (passALine_blank hc n hb),
      passALine_terminator hc n hb hb', hterm.trans (passALine_terminator hc n hb hb')⟩
  · have hlines {z : Text} (hz : z = x ∨ z = x') : ∀ l ∈ before ++ z :: after, '\n' ∉ l := by
      intro l hl
      refine hnl l ?_
      simp only [List.cons_append, List.mem_cons, List.mem_append] at hl ⊢
      rcases hz with rfl | rfl <;> tauto
    refine ⟨parse_exchange (hlines (.inl rfl)) (hlines (.inr rfl)), fun hskip p h => ?_⟩
    rw [parse_insert_skipped hc (hlines (.inl rfl)) hskip h]
    congr 2
    funext rec
    unfold shiftAfter
    split <;> rfl

end Sys2Proof.Machine
end

section
/-! PROOFS that parsed records are well formed and that a text which spells instructions parses to them
(30_encoding.md R76, 40_parser.md R110 to R125). -/

namespace Sys2Proof.Machine

/-! ### The instruction of a row and its arguments -/

/-- The argument is of the kind, names a register of the variant or an immediate in range. -/
def ArgFits (c : Config) : ArgKind → ArgVal → Prop
  | .reg, .reg r => r.inVariant c.variant = true
  | .int, .int v => c.InImm v
  | .reg, .int _ | .int, .reg _ => False

section
variable {c : Config} {ks : List ArgKind} {as : List ArgVal}

theorem argRegs_of_fits (h : List.Forall₂ (ArgFits c) ks as) :
    (argRegs as).length = ks.count .reg ∧ ∀ r ∈ argRegs as, r.inVariant c.variant = true := by
  induction h with
  | nil => exact ⟨rfl, nofun⟩
  | @cons k a ks as hka _ ih =>
    obtain ⟨hlen, hall⟩ := ih
    match k, a, hka with
    | .reg, .reg r, hka => exact ⟨by simp [argRegs, hlen], List.forall_mem_cons.mpr ⟨hka, hall⟩⟩
    | .int, .int v, _ => exact ⟨by simp [argRegs, hlen], hall⟩

theorem argInts_of_fits (h : List.Forall₂ (ArgFits c) ks as) :
    (argInts as).length = ks.count .int ∧ ∀ v ∈ argInts as, c.InImm v := by
  induction h with
  | nil => exact ⟨rfl, nofun⟩
  | @cons k a ks as hka _ ih =>
    obtain ⟨hlen, hall⟩ := ih
    match k, a, hka with
    | .reg, .reg r, _ => exact ⟨by simp [argInts, hlen], hall⟩
    | .int, .int v, hka => exact ⟨by simp [argInts, hlen], List.forall_mem_cons.mpr ⟨hka, hall⟩⟩

end

theorem count_int_kinds (o : Op) : o.kinds.count .int = if o.hasImm then 1 else 0 := by cases o <;> rfl

theorem regArgs_le_two (o : Op) : o.regArgs ≤ 2 := by cases o <;> decide

/-- Filling two slots from a list of at most two elements gives the list back. -/
theorem take_slots {α : Type} {l : List α} {n : Nat} (hl : l.length = n) (hn : n ≤ 2) (d : α) :
    [l.getD 0 d, l.getD 1 d].take n = l := by
  subst hl
  match l, hn with
  | [], _ => rfl
  | [_], _ => rfl
  | [_, _], _ => rfl

/-- The instruction of a row whose arguments fit has the row's operation and the arguments. -/
theorem buildInstr_fields {c : Config} {row : OpRow} {as : List ArgVal}
    (hk : row.kinds.Perm row.op.kinds) (h : List.Forall₂ (ArgFits c) row.kinds as) :
    (buildInstr row as).op = row.op ∧ (buildInstr row as).regs = rowRegs row as ∧
    (buildInstr row as).imm? = (argInts as).head? := by
  obtain ⟨hop, himm, hregs⟩ := build_fields row.op ((rowRegs row as).getD 0 .acc)
    ((rowRegs row as).getD 1 .acc) ((argInts as).getD 0 0)
  have hlen : (rowRegs row as).length = row.op.regArgs := by
    rw [rowRegs_length, (argRegs_of_fits h).1, hk.count_eq]; rfl
  have hints := (argInts_of_fits h).1
  rw [hk.count_eq, count_int_kinds] at hints
  refine ⟨hop, hregs.trans (take_slots hlen (regArgs_le_two row.op) _), himm.trans ?_⟩
  split at hints
  · next hi =>
    obtain ⟨v, hv⟩ := List.length_eq_one_iff.mp hints
    rw [hv, if_pos hi]; rfl
  · next hi => rw [List.length_eq_zero_iff.mp hints, if_neg hi]; rfl

theorem wellFormed_buildInstr {c : Config} {row : OpRow} {as : List ArgVal} (hrow : row ∈ c.optable)
    (hk : row.kinds.Perm row.op.kinds) (h : List.Forall₂ (ArgFits c) row.kinds as) :
    (buildInstr row as).wellFormed c = true := by
  obtain ⟨hop, hregs, himm⟩ := buildInstr_fields hk h
  have htable : (buildInstr row as).inTable c = true :=
    List.any_eq_true.mpr ⟨row, hrow, by rw [hop]; exact beq_self_eq_true _⟩
  have hexist : (buildInstr row as).regsExist c.variant = true := by
    refine List.all_eq_true.mpr fun r hr => (argRegs_of_fits h).2 r ?_
    rw [hregs] at hr
    exact mem_rowRegs.mp hr
  have hrange : (buildInstr row as).immInRange c = true := by
    unfold Instr.immInRange
    rw [himm]
    cases hhead : (argInts as).head? with
    | none => rfl
    | some v => exact decide_eq_true ((argInts_of_fits h).2 v (List.mem_of_head? hhead))
  simp only [Instr.wellFormed, Instr.fits, htable, hexist, hrange, Bool.and_self]

/-! ### What parses is well formed -/

theorem argFits_of_resolveArg {c : Config} (hc : Accepted c) {n : Nat} {s t : Text} {k : ArgKind}
    {a : ArgVal} (h : resolveArg c n s k t = .ok a) : ArgFits c k a := by
  cases k with
  | reg =>
    obtain ⟨p, hp, rfl⟩ := resolveArg_reg_eq_ok_iff.mp h
    exact (hc.mem_regNames.mp (List.mem_of_find?_eq_some hp)).1
  | int =>
    obtain ⟨v, -, hv, rfl⟩ := resolveArg_int_eq_ok_iff.mp h
    exact hv

theorem argFits_of_resolveArgs {c : Config} (hc : Accepted c) {n : Nat} {s : Text}
    {ks : List ArgKind} {ts : List Text} (hlen : ts.length = ks.length) {as : List ArgVal}
    (h : resolveArgs c n s ks ts = .ok as) : List.Forall₂ (ArgFits c) ks as := by
  rw [resolveArgs_eq_collect, collect_eq_ok_iff] at h
  have hfits := h.imp fun _ _ ha => argFits_of_resolveArg hc ha
  rw [← List.forall₂_map_left_iff, List.map_fst_zip hlen.ge] at hfits
  exact hfits

/-- A text that parses gives at least one record, and well-formed ones. -/
theorem parse_wellFormed {c : Config} (hc : Accepted c) {t : Text} {p : List Record}
    (h : parse c t = .ok p) : p ≠ [] ∧ ∀ rec ∈ p, rec.instr.wellFormed c = true := by
  obtain ⟨ls, rs, hA, hB, hC⟩ := parse_eq_ok_iff.mp h
  rw [passB_eq_collect] at hB
  rw [passC_eq_collect] at hC
  constructor
  · rintro rfl
    have hlen := (collect_length hB).symm.trans (collect_length hC).symm
    exact (passA_eq_ok_iff.mp hA).2 (List.length_eq_zero_iff.mp hlen)
  · intro rec hrec
    obtain ⟨r, hr, hline⟩ := collect_mem hC hrec
    obtain ⟨q, -, hq⟩ := collect_mem hB hr
    obtain ⟨row, hrow, rfl⟩ := passBLine_eq_ok hq
    obtain ⟨hlen, as, has, rfl⟩ := passCLine_eq_ok_iff.mp hline
    have hmem : row ∈ c.optable := List.mem_of_find?_eq_some hrow
    exact wellFormed_buildInstr hmem (hc.kinds row hmem) (argFits_of_resolveArgs hc hlen has)

/-! ### Tokens of a spelled line -/

theorem isToken_iff {t : Text} : isToken t = true ↔
    t ≠ [] ∧ ∀ ch ∈ t, isSpace ch = false ∧ ch ≠ '\n' := by
  simp [isToken, ← toNat_eq_newline_iff]

/-- A name and arguments one after the other, each argument behind its gap: the body of a spelled line
(`SpelledLine.body`). -/
def spellOut (name : Text) (args : List SpelledArg) : Text :=
  name ++ args.flatMap fun a => a.gap ++ a.token

theorem spellOut_cons (name : Text) (a : SpelledArg) (args : List SpelledArg) :
    spellOut name (a :: args) = name ++ (a.gap ++ spellOut a.token args) := by
  simp [spellOut]

/-- The gap separates, and the token is one. -/
def SpelledArg.Ok (a : SpelledArg) : Prop := a.gap ≠ [] ∧ isBlank a.gap = true ∧ isToken a.token = true

theorem tokensFrom_token {t : Text} (h : ∀ ch ∈ t, isSpace ch = false) (cur rest : Text) :
    tokensFrom cur (t ++ rest) = tokensFrom (t.reverse ++ cur) rest := by
  induction t generalizing cur with
  | nil => rfl
  | cons ch t ih =>
    obtain ⟨hch, ht⟩ := List.forall_mem_cons.mp h
    rw [List.cons_append, tokensFrom, hch, if_neg nofun, ih ht, List.reverse_cons,
      List.append_assoc, List.singleton_append]

theorem tokensFrom_nil_blank {b : Text} (h : isBlank b = true) (rest : Text) :
    tokensFrom [] (b ++ rest) = tokensFrom [] rest := by
  induction b with
  | nil => rfl
  | cons ch b ih =>
    obtain ⟨hch, hb⟩ := List.forall_mem_cons.mp (isBlank_iff.mp h)
    rw [List.cons_append, tokensFrom, hch, if_pos rfl, if_pos rfl, ih (isBlank_iff.mpr hb)]

theorem tokensFrom_blank {cur b : Text} (hcur : cur ≠ []) (hne : b ≠ []) (h : isBlank b = true)
    (rest : Text) : tokensFrom cur (b ++ rest) = cur.reverse :: tokensFrom [] rest := by
  obtain ⟨ch, b, rfl⟩ := List.exists_cons_of_ne_nil hne
  obtain ⟨hch, hb⟩ := List.forall_mem_cons.mp (isBlank_iff.mp h)
  rw [List.cons_append, tokensFrom, hch, if_pos rfl, if_neg hcur,
    tokensFrom_nil_blank (isBlank_iff.mpr hb)]

section
variable {name : Text} {args : List SpelledArg}

/-- The tokens of a line are its name and its arguments' tokens. -/
theorem tokens_spellOut (hname : isToken name = true) (hargs : ∀ a ∈ args, a.Ok) :
    tokens (spellOut name args) = name :: args.map (·.token) := by
  unfold tokens
  induction args generalizing name with
  | nil =>
    obtain ⟨hne, hch⟩ := isToken_iff.mp hname
    have h := tokensFrom_token (fun ch hm => (hch ch hm).1) [] []
    rw [List.append_nil, List.append_nil] at h
    rw [spellOut, List.flatMap_nil, List.append_nil, h, tokensFrom, if_neg (by simpa using hne),
      List.reverse_reverse]
    rfl
  | cons a args ih =>
    obtain ⟨hne, hch⟩ := isToken_iff.mp hname
    obtain ⟨⟨hgap, hblank, htok⟩, hargs⟩ := List.forall_mem_cons.mp hargs
    rw [spellOut_cons, tokensFrom_token fun ch hm => (hch ch hm).1, List.append_nil,
      tokensFrom_blank (by simpa using hne) hgap hblank, List.reverse_reverse, ih htok hargs,
      List.map_cons]

theorem spellOut_ne_nil (hname : isToken name = true) : spellOut name args ≠ [] := by
  have := (isToken_iff.mp hname).1
  simp [spellOut, this]

/-- A line's body begins and ends with a character of a token. -/
theorem spellOut_head (hname : isToken name = true) :
    ∀ ch ∈ (spellOut name args).head?, isSpace ch = false := by
  obtain ⟨hne, hch⟩ := isToken_iff.mp hname
  obtain ⟨d, rest, rfl⟩ := List.exists_cons_of_ne_nil hne
  intro ch hm
  cases hm
  exact (hch d List.mem_cons_self).1

theorem spellOut_last (hname : isToken name = true) (hargs : ∀ a ∈ args, a.Ok) :
    ∀ ch ∈ (spellOut name args).getLast?, isSpace ch = false := by
  induction args generalizing name with
  | nil =>
    intro ch hm
    rw [spellOut, List.flatMap_nil, List.append_nil] at hm
    exact ((isToken_iff.mp hname).2 ch (List.mem_of_getLast? hm)).1
  | cons a args ih =>
    obtain ⟨⟨-, -, htok⟩, hargs⟩ := List.forall_mem_cons.mp hargs
    rw [spellOut_cons, List.getLast?_append_of_ne_nil _ (by simp [spellOut_ne_nil htok]),
      List.getLast?_append_of_ne_nil _ (spellOut_ne_nil htok)]
    exact ih htok hargs

theorem newline_not_mem_of_isBlank {b : Text} (h : isBlank b = true) : '\n' ∉ b :=
  fun hm => nomatch isBlank_iff.mp h _ hm

theorem newline_not_mem_of_isToken {t : Text} (h : isToken t = true) : '\n' ∉ t :=
  fun hm => ((isToken_iff.mp h).2 _ hm).2 rfl

theorem newline_not_mem_spellOut (hname : isToken name = true) (hargs : ∀ a ∈ args, a.Ok) :
    '\n' ∉ spellOut name args := by
  simp only [spellOut, List.mem_append, List.mem_flatMap, not_or, not_exists, not_and]
  refine ⟨newline_not_mem_of_isToken hname, fun a ha => ?_⟩
  obtain ⟨-, hblank, htok⟩ := hargs a ha
  exact ⟨newline_not_mem_of_isBlank hblank, newline_not_mem_of_isToken htok⟩

end

end Sys2Proof.Machine
end

section
/-! PROOFS that a text which spells instructions parses to them (30_encoding.md R71, 40_parser.md R104 to
R125). -/

namespace Sys2Proof.Machine

/-! ### Names and arguments select what they spell -/

/-- A name selects its own row, since no two rows have names of one fold. -/
theorem lookupOp_of_nameMatches {c : Config} (hc : Accepted c) {row : OpRow} {name : Text}
    (hrow : row ∈ c.optable) (hm : nameMatches c.opcodeCaseSensitive row.name name = true) :
    lookupOp c name = some row := by
  unfold lookupOp
  cases hf : c.optable.find? fun row => nameMatches c.opcodeCaseSensitive row.name name with
  | none => exact absurd hm (List.find?_eq_none.mp hf row hrow)
  | some row' =>
    have hm' := List.find?_some hf
    have hfold := (fold_eq_of_nameMatches hm').trans (fold_eq_of_nameMatches hm).symm
    rw [List.inj_on_of_nodup_map hc.folds (List.mem_of_find?_eq_some hf) hrow hfold]

/-- A token that spells an argument is read as it. -/
theorem resolveArg_of_spellsArg {c : Config} (hc : Accepted c) {k : ArgKind} {token : Text}
    {a : ArgVal} (h : spellsArg c k token a = true) (n : Nat) (s : Text) :
    resolveArg c n s k token = .ok a := by
  match k, a, h with
  | .reg, .reg r, h =>
    obtain ⟨p, hp, h⟩ := List.any_eq_true.mp h
    obtain ⟨hr, hm⟩ := Bool.and_eq_true_iff.mp h
    obtain rfl : p.2 = r := eq_of_beq hr
    refine resolveArg_reg_eq_ok_iff.mpr ?_
    cases hf : c.regNames.find? fun p => nameMatches c.registerCaseSensitive p.1 token with
    | none => exact absurd hm (List.find?_eq_none.mp hf p hp)
    | some q =>
      have hm' := List.find?_some hf
      have hfold := (fold_eq_of_nameMatches hm').trans (fold_eq_of_nameMatches hm).symm
      rw [(hc.mem_regNames.mp hp).2,
        (hc.mem_regNames.mp (List.mem_of_find?_eq_some hf)).2] at hfold
      exact ⟨q, rfl, by rw [fold_name_injective hfold]⟩
  | .int, .int v, h =>
    obtain ⟨hread, hv⟩ := Bool.and_eq_true_iff.mp h
    exact resolveArg_int_eq_ok_iff.mpr ⟨v, eq_of_beq hread, of_decide_eq_true hv, rfl⟩

/-! ### A spelled line through the three passes -/

/-- A text does not occur with characters behind that it does not have. -/
theorem not_infix_append_right {m x z : Text} (hm : m ≠ []) (hx : ∀ ch ∈ x, ch ∉ m)
    (hz : ¬ m <:+: z) : ¬ m <:+: z ++ x := by
  rw [← List.reverse_infix, List.reverse_append]
  refine not_infix_append (by simpa using hm) (by simpa using hx) ?_
  rwa [List.reverse_infix]

/-- What a spelled line is after Pass B. -/
def SpelledLine.resolved (l : SpelledLine) (n : Nat) : Resolved :=
  { line := n, text := l.body, row := l.row, args := l.args.map (·.token) }

/-- What a spelled line is after Pass C. -/
def SpelledLine.record (l : SpelledLine) (n : Nat) : Record :=
  { line := n, text := l.body, instr := buildInstr l.row (l.args.map (·.val)) }

section
variable {c : Config} (hc : Accepted c) {l : SpelledLine} (hl : l.Ok c)

include hl in
theorem SpelledLine.Ok.argsOk : ∀ a ∈ l.args, a.Ok := hl.gaps

include hl in
theorem SpelledLine.Ok.newline_not_mem : '\n' ∉ l.raw := by
  obtain ⟨hlead, htrail⟩ := hl.blank
  have hbody := newline_not_mem_spellOut hl.name.1 hl.argsOk
  have hclose : '\n' ∉ if l.closed then [';'] else [] := by split <;> decide
  simp only [SpelledLine.raw, List.mem_append, not_or]
  exact ⟨newline_not_mem_of_isBlank hlead, hbody, newline_not_mem_of_isBlank htrail, hclose⟩

include hc hl

/-- The marker occurs nowhere in the line: not in its body, and the rest has no character of it. -/
theorem SpelledLine.Ok.marker_not_infix : ¬ c.commentMarker <:+: l.raw := by
  obtain ⟨hlead, htrail⟩ := hl.blank
  unfold SpelledLine.raw
  refine not_infix_append hc.marker_ne_nil
    (fun ch hch => hc.space_not_mem (isBlank_iff.mp hlead ch hch))
    (not_infix_append_right hc.marker_ne_nil (fun ch hch => ?_) hl.noComment)
  rcases List.mem_append.mp hch with h | h
  · exact hc.space_not_mem (isBlank_iff.mp htrail ch h)
  · split at h
    · rw [List.mem_singleton.mp h]; exact hc.terminator_not_mem
    · cases h

/-- Pass A takes the body out of a spelled line. -/
theorem passALine_raw (n : Nat) : passALine c n l.raw = .ok (some (n, l.body)) := by
  obtain ⟨hlead, htrail⟩ := hl.blank
  obtain ⟨hname, -⟩ := hl.name
  have hne : l.body ≠ [] := spellOut_ne_nil hname
  have hhead : ∀ ch ∈ l.body.head?, isSpace ch = false := spellOut_head hname
  have hlast : ∀ ch ∈ l.body.getLast?, isSpace ch = false := spellOut_last hname hl.argsOk
  unfold passALine
  rw [cutComment_of_not_infix (hl.marker_not_infix hc)]
  cases hclosed : l.closed with
  | true =>
    have htrim : trim l.raw = l.body ++ l.trail ++ [';'] := by
      have h := trim_blank_append (x := l.body ++ l.trail ++ [';']) (b' := []) hlead rfl
        (by rw [List.append_assoc, List.head?_append_of_ne_nil _ hne]; exact hhead)
        (by simp [isSpace])
      simpa [SpelledLine.raw, hclosed] using h
    have hbody : trim (l.body ++ l.trail) = l.body :=
      trim_blank_append (b := []) rfl htrail hhead hlast
    simp [htrim, hbody, hne]
  | false =>
    have htrim : trim l.raw = l.body := by
      have h := trim_blank_append hlead htrail hhead hlast
      simpa [SpelledLine.raw, hclosed] using h
    obtain ⟨hreq, hsemi⟩ := hl.terminator.resolve_left fun h => nomatch hclosed.symm.trans h
    simp [htrim, hne, hreq, hsemi]

theorem passBLine_body (n : Nat) : passBLine c n l.body = .ok (l.resolved n) := by
  obtain ⟨hname, hm⟩ := hl.name
  have htok : tokens l.body = l.name :: l.args.map (·.token) := tokens_spellOut hname hl.argsOk
  simp only [passBLine, htok, List.headD_cons, lookupOp_of_nameMatches hc hl.row hm, List.tail_cons,
    SpelledLine.resolved]

/-- The tokens are read as the arguments they spell. -/
theorem resolveArgs_tokens (n : Nat) : resolveArgs c n l.body l.row.kinds (l.args.map (·.token)) =
    .ok (l.args.map (·.val)) := by
  have hvals : l.args.map (·.val) = (l.row.kinds.zip l.args).map (·.2.val) := by
    conv_lhs => rw [← List.map_snd_zip hl.arity.le]
    exact List.map_map
  rw [resolveArgs_eq_collect, List.zip_map_right, hvals]
  exact collect_map_of_forall fun p hp => resolveArg_of_spellsArg hc (hl.args p hp) n l.body

theorem passCLine_resolved (n : Nat) : passCLine c (l.resolved n) = .ok (l.record n) :=
  passCLine_eq_ok_iff.mpr ⟨(List.length_map _).trans hl.arity, _, resolveArgs_tokens hc hl n, rfl⟩

end

/-! ### The whole text -/

theorem numberLines_map {α : Type} (n : Nat) (f : α → Text) (xs : List α) :
    numberLines n (xs.map f) = (xs.zipIdx n).map fun q => (q.2, f q.1) := by
  induction xs generalizing n with
  | nil => rfl
  | cons x xs ih => rw [List.map_cons, numberLines, ih, List.zipIdx_cons, List.map_cons]

/-- Lines that spell instructions parse to a record each. -/
theorem parse_programText {c : Config} (hc : Accepted c) {ls : List SpelledLine} (hne : ls ≠ [])
    (hok : ∀ l ∈ ls, l.Ok c) :
    parse c (programText ls) = .ok ((ls.zipIdx 1).map fun q => q.1.record q.2) := by
  have hmem {q : SpelledLine × Nat} (hq : q ∈ ls.zipIdx 1) : q.1.Ok c :=
    hok _ (List.fst_mem_of_mem_zipIdx hq)
  have hsplit : splitLines (programText ls) = ls.map SpelledLine.raw := by
    refine splitLines_intercalate (by simpa using hne) fun t ht => ?_
    obtain ⟨l, hl, rfl⟩ := List.mem_map.mp ht
    exact (hok l hl).newline_not_mem
  have hA : passA c (programText ls) = .ok ((ls.zipIdx 1).map fun q => (q.2, q.1.body)) := by
    have hlines := collect_map_of_forall (f := fun p => passALine c p.1 p.2)
      (g := fun q => (q.2, q.1.raw)) (h := fun q => some (q.2, q.1.body))
      fun q hq => passALine_raw hc (hmem hq) q.2
    refine passA_eq_ok_iff.mpr ⟨?_, by simpa using hne⟩
    rw [hsplit, numberLines_map, passALines_eq_collect, hlines, Except.map, List.flatMap_map,
      List.map_eq_flatMap (l := ls.zipIdx 1)]
    rfl
  have hB : passB c ((ls.zipIdx 1).map fun q => (q.2, q.1.body)) =
      .ok ((ls.zipIdx 1).map fun q => q.1.resolved q.2) := by
    rw [passB_eq_collect]
    exact collect_map_of_forall fun q hq => passBLine_body hc (hmem hq) q.2
  have hC : passC c ((ls.zipIdx 1).map fun q => q.1.resolved q.2) =
      .ok ((ls.zipIdx 1).map fun q => q.1.record q.2) := by
    rw [passC_eq_collect]
    exact collect_map_of_forall fun q hq => passCLine_resolved hc (hmem hq) q.2
  exact parse_eq_ok_iff.mpr ⟨_, _, hA, hB, hC⟩

/-- Settles O56: `parse_wellFormed` for every text, `parse_programText` for one that is spelled out. -/
theorem parsedRecordsWellFormed : Obligations.ParsedRecordsWellFormed := by
  intro c hcheck
  have hc := (accepted_iff c).mp hcheck
  refine ⟨fun t p => parse_wellFormed hc, fun ls hne hok =>
    ⟨_, parse_programText hc hne hok, by simp, fun k l rec hl hrec => ?_⟩⟩
  have hlok := hok l (List.mem_of_getElem? hl)
  obtain rfl : l.record (k + 1) = rec := by
    simpa [List.getElem?_zipIdx, hl, Nat.add_comm 1 k] using hrec
  have hfits := argFits_of_resolveArgs hc ((List.length_map _).trans hlok.arity)
    (resolveArgs_tokens hc hlok 0)
  exact ⟨rfl, rfl, buildInstr_fields (hc.kinds _ hlok.row) hfits⟩

end Sys2Proof.Machine
end

section
/-! PROOFS about Load (70_reset_and_hazards.md R290): the initial memory, the initial registers, the
program, and the state a successful Load leaves. -/

namespace Sys2Proof.Machine

/-! ### The initial memory -/

/-- One entry of an initial memory is added when key and value are legal and the key is new. -/
theorem readEntries_cons {c : Config} {m : Memory} {a : Nat} {x : Int} (ha : c.InAddr a)
    (hnew : m.find a = none) (hx : c.InCell x) (rest : List (HostScalar × HostScalar)) :
    readEntries c m ((.int (a : Int), .int x) :: rest) = readEntries c (m.write a x) rest := by
  have hkey : ¬ (¬ c.InAddr (a : Int) ∨ (m.find (a : Int).toNat).isSome) := by
    rw [Int.toNat_natCast, hnew]
    exact not_or.mpr ⟨not_not.mpr ha, nofun⟩
  rw [readEntries, if_neg hkey, if_neg (not_not.mpr hx)]
  rfl

/-- An entry that is accepted has a legal new key and a legal value. -/
theorem readEntries_cons_eq_ok {c : Config} {m m' : Memory} {k v : HostScalar}
    {rest : List (HostScalar × HostScalar)} (h : readEntries c m ((k, v) :: rest) = .ok m') :
    ∃ (a : Nat) (x : Int), k = .int (a : Int) ∧ v = .int x ∧ c.InAddr a ∧ m.find a = none ∧
      c.InCell x ∧ readEntries c (m.write a x) rest = .ok m' := by
  unfold readEntries at h
  split at h
  · cases h
  · next a =>
    split at h
    · cases h
    · next hkey =>
      obtain ⟨ha, hnew⟩ := not_or.mp hkey
      have ha := not_not.mp ha
      have hcast : (a.toNat : Int) = a := Int.toNat_of_nonneg ha.1
      split at h
      · cases h
      · next x =>
        split at h
        · cases h
        · next hx =>
          exact ⟨a.toNat, x, by rw [hcast], rfl, by rwa [hcast], by simpa using hnew,
            not_not.mp hx, h⟩

/-- The entries that list the cells `kvs`. -/
def cellEntries (kvs : List (Nat × Int)) : List (HostScalar × HostScalar) :=
  kvs.map fun p => (.int (p.1 : Int), .int p.2)

/-- Cells that a map can hold beside `m`: legal ones, with addresses that differ and are new. -/
structure NewCells (c : Config) (m : Memory) (kvs : List (Nat × Int)) : Prop where
  legal : ∀ p ∈ kvs, c.InAddr p.1 ∧ c.InCell p.2
  nodup : (kvs.map Prod.fst).Nodup
  new : ∀ p ∈ kvs, m.find p.1 = none

theorem newCells_cons_iff {c : Config} {m : Memory} {a : Nat} {x : Int} {kvs : List (Nat × Int)} :
    NewCells c m ((a, x) :: kvs) ↔
      c.InAddr a ∧ c.InCell x ∧ m.find a = none ∧ NewCells c (m.write a x) kvs := by
  have hnew (p : Nat × Int) : (m.write a x).find p.1 = none ↔ p.1 ≠ a ∧ m.find p.1 = none := by
    rw [Memory.find_write]
    split <;> simp [*]
  constructor
  · rintro ⟨hlegal, hnodup, hfresh⟩
    obtain ⟨hax, hlegal⟩ := List.forall_mem_cons.mp hlegal
    obtain ⟨hfa, hfresh⟩ := List.forall_mem_cons.mp hfresh
    obtain ⟨hnot, hnodup⟩ := List.nodup_cons.mp hnodup
    refine ⟨hax.1, hax.2, hfa, hlegal, hnodup, fun p hp => (hnew p).mpr ⟨?_, hfresh p hp⟩⟩
    rintro rfl
    exact hnot (List.mem_map.mpr ⟨p, hp, rfl⟩)
  · rintro ⟨ha, hx, hfa, hlegal, hnodup, hfresh⟩
    refine ⟨List.forall_mem_cons.mpr ⟨⟨ha, hx⟩, hlegal⟩, List.nodup_cons.mpr ⟨?_, hnodup⟩,
      List.forall_mem_cons.mpr ⟨hfa, fun p hp => ((hnew p).mp (hfresh p hp)).2⟩⟩
    intro hm
    obtain ⟨p, hp, rfl⟩ := List.mem_map.mp hm
    exact ((hnew p).mp (hfresh p hp)).1 rfl

/-- Accepted entries list new cells, and the memory read holds them beside those before. -/
theorem newCells_of_readEntries {c : Config} {es : List (HostScalar × HostScalar)} {m m' : Memory}
    (h : readEntries c m es = .ok m') : ∃ kvs, es = cellEntries kvs ∧ NewCells c m kvs ∧
      ∀ a v, m'.find a = some v ↔ (a, v) ∈ kvs ∨ m.find a = some v := by
  induction es generalizing m with
  | nil => cases h; exact ⟨[], rfl, ⟨nofun, .nil, nofun⟩, by simp⟩
  | cons e es ih =>
    obtain ⟨k, v⟩ := e
    obtain ⟨a, x, rfl, rfl, ha, hnew, hx, hrest⟩ := readEntries_cons_eq_ok h
    obtain ⟨kvs, rfl, hcells, hfind⟩ := ih hrest
    refine ⟨(a, x) :: kvs, rfl, newCells_cons_iff.mpr ⟨ha, hx, hnew, hcells⟩, fun b y => ?_⟩
    rw [hfind, Memory.find_write, List.mem_cons, Prod.mk.injEq]
    split
    · next hb => subst hb; simp [hnew, eq_comm (a := x)]; tauto
    · next hb => simp [hb]

theorem readEntries_of_newCells {c : Config} {kvs : List (Nat × Int)} {m : Memory}
    (h : NewCells c m kvs) : ∃ m', readEntries c m (cellEntries kvs) = .ok m' := by
  induction kvs generalizing m with
  | nil => exact ⟨m, rfl⟩
  | cons p kvs ih =>
    obtain ⟨a, x⟩ := p
    obtain ⟨ha, hx, hnew, hcells⟩ := newCells_cons_iff.mp h
    obtain ⟨m', hm'⟩ := ih hcells
    exact ⟨m', (readEntries_cons ha hnew hx _).trans hm'⟩

/-- The only way the initial memory fails. -/
theorem readEntries_eq_error {c : Config} {es : List (HostScalar × HostScalar)} {m : Memory}
    {e : LoadError} (h : readEntries c m es = .error e) : ∃ k, e = .malformedInitialMemory k := by
  induction es generalizing m with
  | nil => cases h
  | cons kv es ih =>
    obtain ⟨k, v⟩ := kv
    unfold readEntries at h
    split at h
    · cases h; exact ⟨_, rfl⟩
    · split at h
      · cases h; exact ⟨_, rfl⟩
      · split at h
        · cases h; exact ⟨_, rfl⟩
        · split at h
          · cases h; exact ⟨_, rfl⟩
          · exact ih h

/-- What an accepted initial memory is, and the memory read from it. -/
theorem readInitMem_eq_ok {c : Config} {im : InitMem} {m : Memory} (h : readInitMem c im = .ok m) :
    (im = .absent ∧ m = []) ∨ ∃ kvs, im = InitMem.ofCells kvs ∧ NewCells c [] kvs ∧
      ∀ a v, m.find a = some v ↔ (a, v) ∈ kvs := by
  cases im with
  | absent => cases h; exact .inl ⟨rfl, rfl⟩
  | notAMap t => cases h
  | entries es =>
    obtain ⟨kvs, rfl, hcells, hfind⟩ := newCells_of_readEntries h
    exact .inr ⟨kvs, rfl, hcells, fun a v => (hfind a v).trans (or_iff_left nofun)⟩

theorem memOk_of_readInitMem {c : Config} {im : InitMem} {m : Memory}
    (h : readInitMem c im = .ok m) : memOk c m = true := by
  have hwf := readInitMem_wf h
  refine (memOk_iff c m).mpr ⟨hwf, fun p hp => ?_⟩
  rcases readInitMem_eq_ok h with ⟨-, rfl⟩ | ⟨kvs, -, hcells, hfind⟩
  · cases hp
  · exact hcells.legal p ((hfind p.1 p.2).mp ((Memory.find_eq_some_iff hwf _ _).mpr hp))

/-- A Load that succeeds has read its initial memory. -/
theorem load_readInitMem {inp : LoadInput} {s : State} (h : load inp = .ok s) :
    readInitMem inp.cfg inp.initMem = .ok s.mem := by
  obtain ⟨p, m, -, -, -, -, hm, rfl⟩ := load_eq_ok h
  exact hm

/-- Settles O55: what `readEntries` accepts, and that Load goes by it. -/
theorem initialMemoryValidated : Obligations.InitialMemoryValidated := by
  refine fun c im => ⟨fun m h => ?_, fun h => by rw [h]; rfl, ?_, fun e h => ?_, ?_⟩
  · rcases readInitMem_eq_ok h with habs | ⟨kvs, rfl, hcells, hfind⟩
    · exact .inl habs
    · exact .inr ⟨kvs, rfl, hcells.legal, hcells.nodup, readInitMem_wf h, hfind⟩
  · rintro kvs rfl hlegal hnodup
    exact readEntries_of_newCells ⟨hlegal, hnodup, fun _ _ => rfl⟩
  · cases im with
    | absent => cases h
    | notAMap t => cases h; exact ⟨_, rfl⟩
    | entries es => exact readEntries_eq_error h
  · rintro inp rfl rfl
    refine ⟨fun s => load_readInitMem, fun e h => ?_⟩
    cases hl : load inp with
    | error e' => exact ⟨e', rfl⟩
    | ok s => exact nomatch h.symm.trans (load_readInitMem hl)

/-! ### The initial registers -/

theorem regInitOk_cons_iff {c : Config} {r : Reg} {v : Int} {rest : List (Reg × Int)} :
    regInitOk c ((r, v) :: rest) = true ↔
      r.inVariant c.variant = true ∧ r ≠ .pc ∧ c.InReg v ∧ (∀ p ∈ rest, p.1 ≠ r) ∧
        regInitOk c rest = true := by
  simp only [regInitOk, Bool.and_eq_true, bne_iff_ne, decide_eq_true_eq, List.all_eq_true, and_assoc]

theorem RegFile.get_zero (r : Reg) : RegFile.zero.get r = 0 := by cases r <;> rfl

/-- A register that `REG_INIT` does not name is 0. -/
theorem initRegs_of_not_mem {ri : List (Reg × Int)} {r : Reg} (h : ∀ p ∈ ri, p.1 ≠ r) :
    (initRegs ri).get r = 0 := by
  induction ri with
  | nil => exact RegFile.get_zero r
  | cons p ri ih =>
    obtain ⟨hp, hri⟩ := List.forall_mem_cons.mp h
    exact (RegFile.get_set_ne _ _ hp.symm).trans (ih hri)

section
variable {c : Config} {ri : List (Reg × Int)}

theorem ne_pc_of_regInitOk (h : regInitOk c ri = true) : ∀ p ∈ ri, p.1 ≠ .pc := by
  induction ri with
  | nil => nofun
  | cons p ri ih =>
    obtain ⟨-, hpc, -, -, hri⟩ := regInitOk_cons_iff.mp h
    exact List.forall_mem_cons.mpr ⟨hpc, ih hri⟩

/-- A register that a legal `REG_INIT` names has its value. -/
theorem initRegs_of_mem (h : regInitOk c ri = true) : ∀ p ∈ ri, (initRegs ri).get p.1 = p.2 := by
  induction ri with
  | nil => nofun
  | cons q ri ih =>
    obtain ⟨-, -, -, hdiff, hri⟩ := regInitOk_cons_iff.mp h
    refine List.forall_mem_cons.mpr ⟨RegFile.get_set_self _ _ _, fun p hp => ?_⟩
    exact (RegFile.get_set_ne _ _ (hdiff p hp)).trans (ih hri p hp)

theorem regsOk_initRegs (h : regInitOk c ri = true) : regsOk c (initRegs ri) = true := by
  induction ri with
  | nil =>
    refine (regsOk_iff c _).mpr fun r => ?_
    rw [initRegs, RegFile.get_zero]
    exact ⟨inReg_zero c, .inr rfl⟩
  | cons p ri ih =>
    obtain ⟨hv, -, hr, -, hri⟩ := regInitOk_cons_iff.mp h
    exact regsOk_set (ih hri) hv hr

end

/-! ### The program -/

theorem decodeNat_eq_instr {I : Nat} {v : Variant} {w : Nat} {i : Instr}
    (h : decodeNat I v w = .instr i) : decode I v (BitVec.ofNat (wordWidth I) w) = .instr i := by
  unfold decodeNat at h
  split at h
  · exact h
  · cases h

/-- A store that is accepted gives a record a word, and each fits the configuration. -/
theorem decodeStore_eq_ok {c : Config} (hI : 1 ≤ c.immWidth) {ws : List (Nat × Text × Nat)}
    {k : Nat} {p : List Record} (h : decodeStore c k ws = .ok p) :
    p.length = ws.length ∧ ∀ rec ∈ p, rec.instr.fits c = true := by
  induction ws generalizing k p with
  | nil => cases h; exact ⟨rfl, nofun⟩
  | cons w ws ih =>
    obtain ⟨line, text, w⟩ := w
    unfold decodeStore at h
    split at h
    · cases h
    · next i hi =>
      split at h
      · cases h
      · next rest hrest =>
        cases h
        obtain ⟨hlen, hfits⟩ := ih hrest
        have henc := (decodeRefusesExactly c _ hI).1 i (decodeNat_eq_instr hi)
        obtain ⟨-, hfit⟩ := Bool.and_eq_true_iff.mp henc
        exact ⟨congrArg (· + 1) hlen, List.forall_mem_cons.mpr ⟨hfit, hfits⟩⟩

/-- A program that reads has at least one record, and each fits the configuration. -/
theorem readProgram_eq_ok {c : Config} (hc : Accepted c) {src : ProgramSource} {p : List Record}
    (h : readProgram c src = .ok p) : p ≠ [] ∧ ∀ rec ∈ p, rec.instr.fits c = true := by
  unfold readProgram at h
  split at h
  · split at h
    · cases h
    · next hp =>
      cases h
      obtain ⟨hne, hwf⟩ := parse_wellFormed hc hp
      exact ⟨hne, fun rec hrec => (Bool.and_eq_true_iff.mp (hwf rec hrec)).2⟩
  · cases h
  · obtain ⟨hlen, hfits⟩ := decodeStore_eq_ok hc.widths.1 h
    exact ⟨List.ne_nil_of_length_pos (hlen ▸ Nat.succ_pos _), hfits⟩

/-! ### Load -/

/-- Load succeeds when each of its checks does. -/
theorem load_of_checks {inp : LoadInput} {p : List Record} {m : Memory}
    (hc : checkConfig inp.cfg = none) (hr : regInitOk inp.cfg inp.regInit = true)
    (hp : readProgram inp.cfg inp.source = .ok p) (hlen : (p.length : Int) ≤ inp.cfg.regMax)
    (hm : readInitMem inp.cfg inp.initMem = .ok m) :
    load inp = .ok { State.reset with
      cfg := inp.cfg, regs := initRegs inp.regInit, mem := m, prog := p } := by
  unfold load
  simp only [hc, hr, hp, hm, not_lt.mpr hlen, if_false, reduceCtorEq]

theorem serveLoad_of_ok {inp : LoadInput} {s : State} (h : load inp = .ok s) (t : State) :
    serveLoad inp t = .next { s with requests := t.requests } := by
  simp only [serveLoad, h]

/-- Settles O53: the checks of Load, and what each leaves in the state. -/
theorem successfulLoadState : Obligations.SuccessfulLoadState := by
  refine fun inp => ⟨fun p m => load_of_checks, fun s t h => ?_⟩
  have hserve := serveLoad_of_ok h t
  obtain ⟨p, m, hcheck, hr, hp, hlen, hm, rfl⟩ := load_eq_ok h
  have hc := (accepted_iff _).mp hcheck
  obtain ⟨hne, -⟩ := readProgram_eq_ok hc hp
  have hpos : 1 ≤ (p.length : Int) := by have := List.length_pos_iff.mpr hne; omega
  exact ⟨hserve, rfl, hc.widths, hpos, hlen, hp, hm, memOk_of_readInitMem hm,
    initRegs_of_not_mem (ne_pc_of_regInitOk hr), initRegs_of_mem hr, fun _ => initRegs_of_not_mem,
    rfl, rfl, rfl, rfl, rfl⟩

end Sys2Proof.Machine
end

section
/-! PROOFS that every step keeps the invariant between requests (45_controller.md R237). -/

namespace Sys2Proof.Machine

/-! ### The invariant's parts -/

/-- A loaded state that meets the invariant, taken apart; the last part depends on the controller. -/
structure Loaded (s : State) : Prop where
  config : checkConfig s.cfg = none
  length : s.progLen ≤ s.cfg.regMax
  fits : ∀ rec ∈ s.prog, rec.instr.fits s.cfg = true
  regs : regsOk s.cfg s.regs = true
  mem : memOk s.cfg s.mem = true
  undo : ∀ p ∈ s.undo, snapshotOk s.cfg s.prog.length p = true

theorem pcInside_iff (n : Nat) (f : RegFile) : pcInside n f = true ↔ 0 ≤ f.pc ∧ f.pc < n := by
  simp [pcInside]

theorem snapshotOk_iff (c : Config) (n : Nat) (p : Snapshot) : snapshotOk c n p = true ↔
    regsOk c p.regs = true ∧ memOk c p.mem = true ∧ pcInside n p.regs = true := by
  simp [snapshotOk, and_assoc]

theorem Loaded.inv_awaiting {s : State} (h : Loaded s) (hp : s.prog ≠ []) (hg : s.signal = .advance)
    (hw : s.cstate = .awaitingStep) (hpc : pcInside s.prog.length s.regs = true) : s.inv = true :=
  (State.inv_iff s).mpr ⟨hg, .inr ⟨hp, (State.loadedOk_iff s).mpr
    ⟨h.config, h.length, h.fits, h.regs, h.mem, h.undo, by rw [hw]; exact hpc⟩⟩⟩

theorem Loaded.inv_terminated {s : State} (h : Loaded s) (hp : s.prog ≠ [])
    (hg : s.signal = .advance) (ht : s.cstate = .terminated) (hok : terminatedOk s = true) :
    s.inv = true :=
  (State.inv_iff s).mpr ⟨hg, .inr ⟨hp, (State.loadedOk_iff s).mpr
    ⟨h.config, h.length, h.fits, h.regs, h.mem, h.undo, by rw [ht]; exact hok⟩⟩⟩

/-- A state of the invariant with a program is a loaded one. -/
theorem loaded_of_inv {s : State} (h : s.inv = true) (hp : s.prog ≠ []) :
    Loaded s ∧ s.signal = .advance ∧
      (s.cstate = .awaitingStep → pcInside s.prog.length s.regs = true) := by
  obtain ⟨hg, ⟨hnil, -⟩ | ⟨-, hok⟩⟩ := (State.inv_iff s).mp h
  · exact absurd hnil hp
  · obtain ⟨h1, h2, h3, h4, h5, h6, h7⟩ := (State.loadedOk_iff s).mp hok
    exact ⟨⟨h1, h2, h3, h4, h5, h6⟩, hg, fun hw => by rwa [hw] at h7⟩

/-- The invariant reads neither messages, latch, answers nor requests. -/
theorem inv_congr {s t : State} (hcfg : t.cfg = s.cfg) (hregs : t.regs = s.regs) (hmem : t.mem = s.mem)
    (hprog : t.prog = s.prog) (hundo : t.undo = s.undo) (hc : t.cstate = s.cstate)
    (hg : t.signal = s.signal) : t.inv = s.inv := by
  cases s; cases t
  cases hcfg; cases hregs; cases hmem; cases hprog; cases hundo; cases hc; cases hg
  rfl

theorem terminatedOk_iff (s : State) : terminatedOk s = true ↔ s.undo ≠ [] ∧
    (s.progLen ≤ s.regs.pc ∨ ∃ rec, s.fetch = some rec ∧ isSentinel rec.instr = true) := by
  simp [terminatedOk]

/-- What a successful Step leaves is loaded, if its registers and memory are legal. -/
theorem Loaded.of_stepSucceeds {s t : State} (h : Loaded s)
    (hpc : pcInside s.prog.length s.regs = true) (hst : StepSucceeds s t)
    (hregs : regsOk s.cfg t.regs = true) (hmem : memOk s.cfg t.mem = true) : Loaded t := by
  have hlen : t.progLen = s.progLen := State.progLen_congr hst.prog
  have hsnap : snapshotOk s.cfg s.prog.length ⟨s.regs, s.mem⟩ = true :=
    (snapshotOk_iff _ _ _).mpr ⟨h.regs, h.mem, hpc⟩
  refine ⟨?_, ?_, ?_, ?_, ?_, ?_⟩ <;> rw [hst.cfg]
  · exact h.config
  · exact hlen ▸ h.length
  · exact hst.prog ▸ h.fits
  · exact hregs
  · exact hmem
  · rw [hst.undo, hst.prog]
    exact List.forall_mem_cons.mpr ⟨hsnap, h.undo⟩

/-! ### An instruction that succeeds keeps registers and memory legal -/

theorem inReg_of_nonneg {c : Config} {v : Int} (h0 : 0 ≤ v) (h1 : v ≤ c.regMax) : c.InReg v :=
  ⟨(inReg_zero c).1.trans h0, h1⟩

theorem regsOk_set_pc {c : Config} {f : RegFile} (h : regsOk c f = true) {v : Int} (h0 : 0 ≤ v)
    (h1 : v ≤ c.regMax) : regsOk c (f.set .pc v) = true :=
  regsOk_set h rfl (inReg_of_nonneg h0 h1)

/-- The auto-advance from inside the program leaves a legal PC. -/
theorem regsOk_autoAdvance {s : State} (h : regsOk s.cfg s.regs = true)
    (hpc : s.signal = .advance → 0 ≤ s.regs.pc ∧ s.regs.pc < s.cfg.regMax) :
    regsOk s.cfg s.autoAdvance.regs = true := by
  cases hg : s.signal with
  | advance =>
    obtain ⟨h0, h1⟩ := hpc hg
    rw [State.autoAdvance_regs_advance hg]
    exact regsOk_set_pc h (by omega) (by omega)
  | jumped => rwa [State.autoAdvance_regs_jumped hg]

/-- What an instruction that succeeds leaves is legal, also after the auto-advance. -/
theorem exec_keeps_legal {i : Instr} {s u : State} (hw : s.cfg.WidthsOk) (hfits : i.fits s.cfg = true)
    (hregs : regsOk s.cfg s.regs = true) (hmem : memOk s.cfg s.mem = true)
    (hpc : 0 ≤ s.regs.pc ∧ s.regs.pc < s.progLen) (hlen : s.progLen ≤ s.cfg.regMax)
    (h : exec i s = .next u) (hrun : u.cstate = .running) :
    regsOk s.cfg u.autoAdvance.regs = true ∧ memOk s.cfg u.mem = true := by
  have hpc' : 0 ≤ s.regs.pc ∧ s.regs.pc < s.cfg.regMax := ⟨hpc.1, hpc.2.trans_le hlen⟩
  rcases exec_eq_next h with ⟨e, p, rest, -, -, rfl⟩ | ⟨d, v, hd, -, -, -, hv, rfl⟩ |
    ⟨a, r, -, -, -, -, ha, rfl⟩ | ⟨n, -, -, -, -, h0, h1, rfl⟩ | ⟨-, -, -, -, rfl⟩ | ⟨-, rfl⟩
  · cases hrun
  · refine ⟨regsOk_autoAdvance (regsOk_set hregs (fits_dest hfits hd) hv) fun hg => ?_, hmem⟩
    have hne : d ≠ .pc := by rintro rfl; cases hg
    simpa only [RegFile.set_pc_of_ne _ _ hne] using hpc'
  · obtain ⟨hr, -⟩ := (regsOk_iff _ _).mp hregs r
    have haddr : s.cfg.InAddr (a.toNat : Int) := by rwa [Int.toNat_of_nonneg ha.1]
    exact ⟨regsOk_autoAdvance hregs fun _ => hpc', memOk_write hmem haddr (inCell_of_inReg hw hr)⟩
  · exact ⟨regsOk_autoAdvance (regsOk_set_pc hregs h0 (h1.trans hlen)) nofun, hmem⟩
  · exact ⟨regsOk_autoAdvance hregs fun _ => hpc', hmem⟩
  · exact ⟨regsOk_autoAdvance hregs fun _ => hpc', hmem⟩

/-! ### Step -/

/-- After a sentinel that ran, PC still indexes it. -/
theorem fetch_of_sentinel {s u : State} {rec : Record} (hf : s.fetch = some rec)
    (hs : isSentinel rec.instr = true) (h : exec rec.instr s.beginStep = .next u) :
    u.autoAdvance.fetch = some rec := by
  obtain ⟨h0, hlt, -, -⟩ := State.fetch_eq_some hf
  have hi : rec.instr = .jump 0 := eq_of_beq hs
  rw [hi] at h
  cases (exec_jump_zero (s := s.beginStep) h0 hlt.le).symm.trans h
  exact hf

/-- The Step of a fetched record keeps the invariant. -/
theorem runRecord_keeps_inv {s t : State} {rec : Record} (hinv : s.inv = true)
    (hw : s.cstate = .awaitingStep) (hf : s.fetch = some rec)
    (h : runRecord rec s.beginStep = .next t) : t.inv = true := by
  obtain ⟨-, -, hne, hrec⟩ := State.fetch_eq_some hf
  obtain ⟨hs, hg, hin⟩ := loaded_of_inv hinv hne
  have hpc := hin hw
  rcases runRecord_outcome hf h with ⟨e, rfl⟩ | ⟨hst, u, hexec, hu, h0, hend⟩
  · have hsame := inv_congr (s := s) (t := s.rolledBack e rec) rfl rfl rfl rfl rfl hw.symm hg.symm
    exact hsame.trans hinv
  have hrun : u.cstate = .running := by obtain ⟨_, _, _, _, rfl⟩ := hu; rfl
  obtain ⟨hregs, hmem⟩ := exec_keeps_legal (s := s.beginStep) (checkConfig_widths hs.config)
    (hs.fits rec hrec) hs.regs hs.mem ((pcInside_iff _ _).mp hpc) hs.length hexec hrun
  rw [← u.autoAdvance_mem] at hmem
  rcases hend with ⟨hsent, rfl⟩ | ⟨hend, rfl⟩ | ⟨hlt, rfl⟩
  all_goals have hloaded := hs.of_stepSucceeds hpc hst hregs hmem
  · exact hloaded.inv_terminated (hst.prog ▸ hne) rfl rfl ((terminatedOk_iff _).mpr
      ⟨by rw [hst.undo]; nofun, .inr ⟨rec, fetch_of_sentinel hf hsent hexec, hsent⟩⟩)
  · exact hloaded.inv_terminated (hst.prog ▸ hne) rfl rfl ((terminatedOk_iff _).mpr
      ⟨by rw [hst.undo]; nofun, .inl (u.autoAdvance_progLen.trans_le hend)⟩)
  · exact hloaded.inv_awaiting (hst.prog ▸ hne) rfl rfl ((pcInside_iff _ _).mpr
      ⟨h0, hlt.trans_eq u.autoAdvance_progLen.symm⟩)

theorem serveStep_keeps_inv {s t : State} (hinv : s.inv = true) (h : serveStep s = .next t) :
    t.inv = true := by
  rcases serveStep_cases s with ⟨-, h'⟩ | ⟨-, -, h'⟩ | ⟨-, -, -, h'⟩ | ⟨-, -, -, h'⟩ |
    ⟨-, -, -, -, h'⟩ | ⟨-, -, hw, rec, hf, h'⟩ <;> rw [h'] at h
  · cases h
  · cases h
  · cases h; exact (inv_congr (s := s) rfl rfl rfl rfl rfl rfl rfl).trans hinv
  · cases h
  · cases h; exact (inv_congr (s := s) rfl rfl rfl rfl rfl rfl rfl).trans hinv
  · exact runRecord_keeps_inv hinv hw hf h

/-! ### Undo and Load -/

/-- A snapshot of the invariant becomes a legal machine state again. -/
theorem serveUndo_keeps_inv {s t : State} (hinv : s.inv = true) (h : serveUndo s = .next t) :
    t.inv = true := by
  rcases serveUndo_cases s with ⟨r, h'⟩ | ⟨-, -, -, -, h'⟩ | ⟨hne, -, -, p, rest, hu, h'⟩ <;>
    cases h'.symm.trans h
  · exact (inv_congr (s := s) rfl rfl rfl rfl rfl rfl rfl).trans hinv
  · obtain ⟨hs, hg, -⟩ := loaded_of_inv hinv hne
    obtain ⟨hp, hrest⟩ := List.forall_mem_cons.mp (hu ▸ hs.undo)
    obtain ⟨hregs, hmem, hpc⟩ := (snapshotOk_iff _ _ _).mp hp
    have hloaded : Loaded { s.restore p rest with
        cstate := .awaitingStep, msg := .undone, dbg := .none } :=
      ⟨hs.config, hs.length, hs.fits, hregs, hmem, hrest⟩
    exact hloaded.inv_awaiting hne hg rfl hpc

/-- A successful Load leaves a state of the invariant. -/
theorem inv_of_load {inp : LoadInput} {s : State} (h : load inp = .ok s) : s.inv = true := by
  obtain ⟨p, m, hcheck, hr, hp, hlen, hm, rfl⟩ := load_eq_ok h
  obtain ⟨hne, hfits⟩ := readProgram_eq_ok ((accepted_iff _).mp hcheck) hp
  have hpc : (initRegs inp.regInit).pc = 0 := initRegs_of_not_mem (ne_pc_of_regInitOk hr)
  have hloaded : Loaded { State.reset with
      cfg := inp.cfg, regs := initRegs inp.regInit, mem := m, prog := p } :=
    ⟨hcheck, hlen, hfits, regsOk_initRegs hr, memOk_of_readInitMem hm, nofun⟩
  refine hloaded.inv_awaiting hne rfl rfl ((pcInside_iff _ _).mpr ⟨hpc.ge, ?_⟩)
  rw [hpc]
  exact Int.natCast_pos.mpr (List.length_pos_iff.mpr hne)

theorem serveLoad_keeps_inv {inp : LoadInput} {s t : State} (h : serveLoad inp s = .next t) :
    t.inv = true := by
  cases hl : load inp with
  | ok u =>
    cases (serveLoad_of_ok hl s).symm.trans h
    exact (inv_congr (s := u) rfl rfl rfl rfl rfl rfl rfl).trans (inv_of_load hl)
  | error e =>
    cases (serveLoad_of_error hl s).symm.trans h
    rfl

/-! ### Every step -/

theorem serve_keeps_inv {r : Request} {s t : State} (hinv : s.inv = true) (h : serve r s = .next t) :
    t.inv = true := by
  cases r with
  | load inp => exact serveLoad_keeps_inv h
  | step => exact serveStep_keeps_inv hinv h
  | undo => exact serveUndo_keeps_inv hinv h

/-- Settles O50: the request served keeps the invariant, which does not read the list it came from. -/
theorem stepKeepsInvariant : Obligations.StepKeepsInvariant := by
  intro s t hinv h
  rcases serveNext_cases s with ⟨-, h'⟩ | ⟨r, rest, -, hserve⟩
  · exact serveStep_keeps_inv hinv (h'.symm.trans h)
  have hspent : ({ s with requests := rest } : State).inv = true :=
    (inv_congr (s := s) rfl rfl rfl rfl rfl rfl rfl).trans hinv
  rcases hserve with ⟨-, h'⟩ | ⟨why, -, h'⟩
  · exact serve_keeps_inv hspent (h'.symm.trans h)
  · cases h'.symm.trans h
    exact (inv_congr (s := s) rfl rfl rfl rfl rfl rfl rfl).trans hinv

end Sys2Proof.Machine
end
